-- ==== Sys2Proof/Word.lean ====
section
/-! DEFINITION. The word types of the block and the small closed name sets the spec uses everywhere. -/

namespace Sys2Proof

/-- An octet: 8 bits, bit 7 the most significant (00_scope R14). -/
abbrev Octet := BitVec 8

/-- A finite octet string, indexed from 0 (00_scope R14). -/
abbrev Octets := List Octet

/-- A 32-bit register, command word, data word or COUNT (00_scope R13, 10_state R21). -/
abbrev Word := BitVec 32

/-- A key register: KEY_BITS = 128 bits (00_scope R10, 10_state R33). -/
abbrev Key128 := BitVec 128

/-- The two supported SN widths (00_scope R9: "12 or 18, per entity"). -/
inductive SnWidth where
  | w12
  | w18
  deriving DecidableEq, Repr

/-- The three non-null algorithms, numbered 1, 2, 3 (42_security_engine R156). -/
inductive Alg where
  | alg1
  | alg2
  | alg3
  deriving DecidableEq, Repr

/-- A 4-octet integrity tag, octet 0 first (00_scope R9: TAG_LEN, R12: Octets4). -/
structure Tag where
  o0 : Octet
  o1 : Octet
  o2 : Octet
  o3 : Octet
  deriving DecidableEq, Repr

end Sys2Proof
end

