-- ==== Sys2Proof/Machine/Octets.lean ====
section
/-! DEFINITION. Octet-string helpers of 00_scope R14 and R16: slices, big-endian numbers, exclusive or, table look-up. -/

namespace Sys2Proof

/-- The four octets of a 32-bit word, most significant first. -/
def wordOctets (w : Word) : Octets :=
  [w.extractLsb' 24 8, w.extractLsb' 16 8, w.extractLsb' 8 8, w.extractLsb' 0 8]

/-- The word of four octets, the first the most significant. -/
def octetsWord (a b c d : Octet) : Word := a ++ b ++ c ++ d

/-- `be(s)`: the number whose most significant octet is `s[0]` (00_scope R14). -/
def be (s : Octets) : Nat := s.foldl (fun n o => n * 256 + o.toNat) 0

/-- `sub(s, a, n)`: the `n` octets from index `a` (00_scope R14; `MemRead` of R16). -/
def sub (s : Octets) (a n : Nat) : Octets := (s.drop a).take n

/-- Octet `i` of a string. -/
def octetAt (s : Octets) (i : Nat) : Octet := s.getD i 0#8

/-- `s ⊕ t`: octet-wise exclusive or (00_scope R14). -/
def xorOctets (s t : Octets) : Octets := List.zipWith (· ^^^ ·) s t

/-- The 16 octets of a 128-bit block or key, most significant first. -/
def blockOctets (x : BitVec 128) : Octets :=
  (List.range 16).map fun i => x.extractLsb' (8 * (15 - i)) 8

/-- The 128-bit block of 16 octets, the first the most significant. -/
def octetsBlock (s : Octets) : BitVec 128 := BitVec.ofNat 128 (be s)

/-- Word `j` (0 to 3) of a key: key octets `4j .. 4j+3`, big-endian (10_state R33). -/
def keyWord (k : Key128) (j : Nat) : Word := k.extractLsb' (32 * (3 - j)) 32

/-- The tag whose octets are the four octets of a word, most significant first. -/
def wordTag (w : Word) : Tag :=
  ⟨w.extractLsb' 24 8, w.extractLsb' 16 8, w.extractLsb' 8 8, w.extractLsb' 0 8⟩

/-- Look `x` up in a 16 by 16 table: row = high nibble, column = low nibble, column 0 the most
significant octet of its row (the layout of the tables of R221, R241, R264, R265). -/
def tableLookup (rows : List (BitVec 128)) (x : Octet) : Octet :=
  (rows.getD (x.toNat / 16) 0#128).extractLsb' (8 * (15 - x.toNat % 16)) 8

end Sys2Proof
end

