-- ==== Sys2Proof/Config.lean ====
section
/-! DEFINITION. What is fixed for a machine: the parameters of 00_scope R9 and R10, the two configuration functions
of R12, and the free values of what the spec leaves unspecified. -/

namespace Sys2Proof

/-- The configuration functions `KS` and `MAC` (00_scope R12): parameters of the step relation, not state.
The reception operations take a `Crypto`; nothing of them depends on which one. -/
structure Crypto where
  /-- `KS(a, k, c, b, d, n)`: the first `n` octets of keystream. -/
  ks : Alg → Key128 → Word → BitVec 5 → BitVec 1 → Nat → Octets
  /-- `MAC(a, k, c, b, d, message)`: the 4-octet tag. -/
  mac : Alg → Key128 → Word → BitVec 5 → BitVec 1 → Octets → Tag

/-- What files 40 to 45, 60 and 70 assume of `KS` (42_security_engine R159): the length asked for, and
prefixes of one stream. That `MAC` returns 4 octets is its type. -/
structure Crypto.Lawful (c : Crypto) : Prop where
  length : ∀ a k count b d n, (c.ks a k count b d n).length = n
  stable : ∀ a k count b d n m, n ≤ m → (c.ks a k count b d m).take n = c.ks a k count b d n

/-- The zero sentinel of T_REORD (10_state R32). -/
abbrev Config.timerZero : Word := 0x00000000#32

/-- The infinite sentinel of T_REORD (10_state R32). -/
abbrev Config.timerInfinite : Word := 0xFFFFFFFF#32

/-- TAG_LEN (00_scope R9). -/
abbrev Config.tagLen : Nat := 4

/-- DESIGN CHOICE (log 2): the value MAX_PDU_LEN has in `State.reset`, the one 92 D6 suggests. -/
abbrev Config.suggestedMaxPduLen : BitVec 16 := 9003#16

/-- DESIGN CHOICE (log 2): the value RLC_INORDER_MODE has in `State.reset`, the one 92 D9 suggests. -/
abbrev Config.suggestedInorderMode : BitVec 1 := 1#1

/-- Free value (log 8): what the PDU store holds after an `RX_PDU` (10_state R41, 93 U2: "any value"). -/
opaque Config.stalePdu : Nat → Octets

/-- Free value (log 8): what PDU_LEN holds after an `RX_PDU` (10_state R41). -/
opaque Config.stalePduLen : Nat → BitVec 16

/-- Free value (log 8): what RCVD_SN holds after an `RX_PDU` (10_state R24: dead when the command ends). -/
opaque Config.staleSn : Nat → Word

/-- Free value (log 8): what RCVD_HFN holds after an `RX_PDU` (10_state R24). -/
opaque Config.staleHfn : Nat → Word

/-- Free value (log 8): what RCVD_COUNT holds after an `RX_PDU` (10_state R24). -/
opaque Config.staleCount : Nat → Word

end Sys2Proof
end

