-- ==== Sys2Proof/Machine/State.lean ====
section
/-! DEFINITION. The state of one entity (10_state R20), its reset values (R46), and the reasons a step can stop. -/

namespace Sys2Proof.Machine

/-- `LC` (10_state R27): 0 IDLE, 1 ACTIVE, 2 FAULTED. The value 3 is never reached (93 U4). -/
inductive Lifecycle where
  | idle
  | active
  | faulted
  deriving DecidableEq, Repr

/-- The `RESULT` codes 0 to 8 (30_encoding R90). The codes 9 to 15 are never produced (93 U4). -/
inductive ResultCode where
  | ok
  | malformed
  | droppedStale
  | droppedDup
  | integFail
  | internalFault
  | ignored
  | illegalCmd
  | okCfgWarn
  deriving DecidableEq, Repr

/-- The error classes (60_exceptions R280), class (2) split in its two conditions, and the two codes of the
spec's own. Class (4) is a warning of `CREATE` and raises nothing. -/
inductive ErrorClass where
  | malformedPdu
  | stale
  | duplicate
  | integrityFailure
  | internalFault
  | ignored
  | illegalCommand
  deriving DecidableEq, Repr

/-- An element of `UL_CTRL` (30_encoding R94): the one kind there is, carrying no payload. -/
inductive Notification where
  | integrityFailure
  deriving DecidableEq, Repr

/-- An element of `TIMER_CMD` (30_encoding R94). -/
inductive TimerRequest where
  | start (duration : Word)
  | stop
  deriving DecidableEq, Repr

/-- One push of the block on one of its output queues, as the global trace records it (20_memory R71). -/
inductive Push where
  | data (payload : Octets)
  | ctrl (notification : Notification)
  | timer (request : TimerRequest)
  deriving DecidableEq, Repr

/-- What the port answers a command with (30_encoding R80): its result code and, for `CSRR`, a data word. -/
structure Completion where
  result : ResultCode
  data : Option Word
  deriving DecidableEq, Repr

/-- The OPEN parameters (00_scope R10), which no instruction changes (log 2). -/
structure Params where
  /-- `MAX_PDU_LEN` (92 D6). -/
  maxPduLen : BitVec 16
  /-- `RLC_INORDER_MODE` (92 D9). -/
  rlcInorderMode : BitVec 1
  deriving DecidableEq, Repr

/-- The state that lives inside one `RX_PDU`: the PDU input store (10_state R41) and the working values
(R24), the latter zero-extended to 32 bits (log 18). -/
structure Work where
  pdu : Octets
  pduLen : BitVec 16
  rcvdSn : Word
  rcvdHfn : Word
  rcvdCount : Word
  deriving DecidableEq, Repr

/-- `BUF` (10_state R40): a partial map from COUNT to payload, as a list in one canonical form. -/
abbrev Buffer := List (Word × Octets)

/-- The whole state of one entity (10_state R20), then the port, the completions, the open parameters and
the index of the free values. -/
structure State where
  rxNext : Word
  rxDeliv : Word
  rxReord : Word
  lc : Lifecycle
  timerRunning : Bool
  cfgWarn : Bool
  cfg : Word
  tReord : Word
  kCpInt : Key128
  kCpEnc : Key128
  kUpInt : Key128
  kUpEnc : Key128
  result : ResultCode
  buf : Buffer
  work : Work
  ulData : List Octets
  ulCtrl : List Notification
  timerCmd : List TimerRequest
  /-- Every push on the three queues so far, in their one total order (20_memory R71; log 25). -/
  trace : List Push
  completions : List Completion
  port : Octets
  params : Params
  staleIndex : Nat
  deriving DecidableEq, Repr

/-- Why the machine stops with a fault. It never does: every command, also a malformed or illegal one, ends
by writing a result code (00_scope R17, 70_reset R329), so there is no fault to name (log 23). -/
inductive Fault where
  deriving DecidableEq, Repr

/-- Why an instruction has no meaning. -/
inductive Refusal where
  /-- An instruction whose meaning is not written. Nothing raises it: every instruction has one. Safe. -/
  | notModelled (mnemonic : String)
  deriving DecidableEq, Repr

/-- The working values at reset. DESIGN CHOICE (log 9): the spec gives none. -/
def Work.initial : Work := ⟨[], 0, 0, 0, 0⟩

/-- The machine right after hardware reset (10_state R46, 70_reset R320). -/
def State.reset : State where
  rxNext := 0
  rxDeliv := 0
  rxReord := 0
  lc := .idle
  timerRunning := false
  cfgWarn := false
  cfg := 0
  tReord := 0
  kCpInt := 0
  kCpEnc := 0
  kUpInt := 0
  kUpEnc := 0
  result := .ok
  buf := []
  work := Work.initial
  ulData := []
  ulCtrl := []
  timerCmd := []
  trace := []
  completions := []
  port := []
  params := ⟨Config.suggestedMaxPduLen, Config.suggestedInorderMode⟩
  staleIndex := 0

end Sys2Proof.Machine
end

