-- ==== Sys2Proof/Machine/Widths.lean ====
section
/-! DEFINITION. The parameters that the SN width fixes (00_scope R9) and the SN / HFN parts of a COUNT (10_state R22). -/

namespace Sys2Proof

/-- The width a value of `CFG.SN_WIDTH` selects, if it is one of the two supported ones (10_state R31). -/
def snWidthOf (field : BitVec 6) : Option SnWidth :=
  if field = 12#6 then some .w12 else if field = 18#6 then some .w18 else none

/-- `W`. -/
def snBits : SnWidth → Nat
  | .w12 => 12
  | .w18 => 18

/-- The value of `CFG.SN_WIDTH` that selects a width (10_state R31). -/
def snField (w : SnWidth) : BitVec 6 := BitVec.ofNat 6 (snBits w)

/-- `HDR_LEN`: 2 or 3 octets. -/
def hdrLen : SnWidth → Nat
  | .w12 => 2
  | .w18 => 3

/-- `HFN_BITS = 32 - W`. -/
def hfnBits (w : SnWidth) : Nat := 32 - snBits w

/-- `WINDOW = 2^(W-1)`. -/
def window (w : SnWidth) : Nat := 2 ^ (snBits w - 1)

/-- `SN(c) = c[W-1:0]` as a number (10_state R22). -/
def countSn (w : SnWidth) (c : Word) : Nat := c.toNat % 2 ^ snBits w

/-- `HFN(c) = c[31:W]` as a number (10_state R22). -/
def countHfn (w : SnWidth) (c : Word) : Nat := c.toNat / 2 ^ snBits w

/-- `HFN ‖ SN` (10_state R22, 30_encoding R91). -/
def countOf (w : SnWidth) (hfn sn : Word) : Word := (hfn <<< snBits w) ||| sn

end Sys2Proof
end

