-- ==== Sys2Proof/Machine/Ops.lean ====
section
/-! DEFINITION. The named operations every command uses: completing, raising an error, pushing on the queues, the timer
requests, and the operations of the Reception Buffer (44_reception_buffer). -/

namespace Sys2Proof.Machine

/-- `RESULT` codes as numbers (30_encoding R90). -/
def ResultCode.code : ResultCode → BitVec 4
  | .ok => 0
  | .malformed => 1
  | .droppedStale => 2
  | .droppedDup => 3
  | .integFail => 4
  | .internalFault => 5
  | .ignored => 6
  | .illegalCmd => 7
  | .okCfgWarn => 8

/-- `LC` as a number (10_state R27). -/
def Lifecycle.code : Lifecycle → BitVec 2
  | .idle => 0
  | .active => 1
  | .faulted => 2

/-- The kind of a `UL_CTRL` element (30_encoding R94). -/
def Notification.kind : Notification → BitVec 4
  | .integrityFailure => 1

/-- The kind of a `TIMER_CMD` element: 1 or 2 (30_encoding R94). DESIGN CHOICE (log 24): its width is 4 bits, that of a
`UL_CTRL` kind; R94 states none. -/
def TimerRequest.kind : TimerRequest → BitVec 4
  | .start _ => 1
  | .stop => 2

/-! ### Pushes (10_state R42, 20_memory R71) -/

/-- `Q.push(v)` on the queue that the push names, recorded in the global trace. -/
def State.push (e : Push) (s : State) : State :=
  match e with
  | .data p => { s with ulData := s.ulData ++ [p], trace := s.trace ++ [e] }
  | .ctrl n => { s with ulCtrl := s.ulCtrl ++ [n], trace := s.trace ++ [e] }
  | .timer r => { s with timerCmd := s.timerCmd ++ [r], trace := s.trace ++ [e] }

/-! ### Completion and errors (00_scope R17, 60_exceptions R280) -/

/-- Write `RESULT` and answer on the port (10_state R44, 30_encoding R80). -/
def State.completeWith (r : ResultCode) (data : Option Word) (s : State) : State :=
  { s with result := r, completions := s.completions ++ [⟨r, data⟩] }

/-- `done(code)`: end the command with no data word. -/
def State.complete (r : ResultCode) (s : State) : State := s.completeWith r none

/-- The result code of an error class (60_exceptions R280). -/
def ErrorClass.result : ErrorClass → ResultCode
  | .malformedPdu => .malformed
  | .stale => .droppedStale
  | .duplicate => .droppedDup
  | .integrityFailure => .integFail
  | .internalFault => .internalFault
  | .ignored => .ignored
  | .illegalCommand => .illegalCmd

/-- The side effect of an error class (60_exceptions R280): one notification for class (3), `LC <- FAULTED`
for class (5), nothing for the others. -/
def State.errorEffect (e : ErrorClass) (s : State) : State :=
  match e with
  | .integrityFailure => s.push (.ctrl .integrityFailure)
  | .internalFault => { s with lc := .faulted }
  | .malformedPdu => s
  | .stale => s
  | .duplicate => s
  | .ignored => s
  | .illegalCommand => s

/-- `raise` (00_scope R17): the class's side effect, its result code, the end of the command. Nothing is saved
and control goes nowhere (60_exceptions R291); after class (5) the way back is `RELEASE` (R292). -/
def State.raise (e : ErrorClass) (s : State) : State := (s.errorEffect e).complete e.result

/-- Write the input store and the working values of an `RX_PDU` (10_state R24, R41). -/
def State.withWork (k : Work) (s : State) : State := { s with work := k }

/-! ### Queues and timer requests (10_state R42, R43) -/

/-- `UL_DATA.push(p)`. -/
def State.pushData (p : Octets) (s : State) : State := s.push (.data p)

/-- Start the timer: `RX_REORD <- RX_NEXT`, push `START(T_REORD)`, `TIMER_RUNNING <- 1` (40 R118, 41 R141). -/
def State.startTimer (s : State) : State :=
  { s.push (.timer (.start s.tReord)) with rxReord := s.rxNext, timerRunning := true }

/-- Stop the timer: push `STOP`, `TIMER_RUNNING <- 0` (40 R118, 45 R203). -/
def State.stopTimer (s : State) : State :=
  { s.push (.timer .stop) with timerRunning := false }

/-! ### The Reception Buffer (44_reception_buffer) -/

/-- The canonical form of `BUF`: keys strictly rising as unsigned numbers (R197). -/
abbrev Buffer.wf (b : Buffer) : Prop := b.Pairwise fun x y => x.1 < y.1

/-- `BUF[k]`, or nothing when `k ∉ BUF` (R192). -/
def Buffer.find : Buffer → Word → Option Octets
  | [], _ => none
  | (k, p) :: b, x => if k = x then some p else Buffer.find b x

/-- `k ∈ BUF` (R192). -/
def Buffer.holds (b : Buffer) (k : Word) : Bool := (Buffer.find b k).isSome

/-- `BUF[k] <- p` for `k ∉ BUF` (R191): the entry goes before the first larger key. -/
def Buffer.insert : Buffer → Word → Octets → Buffer
  | [], k, p => [(k, p)]
  | (j, q) :: b, k, p => if j < k then (j, q) :: Buffer.insert b k p else (k, p) :: (j, q) :: b

/-- `BUF \ k` (00_scope R15). -/
def Buffer.remove (b : Buffer) (k : Word) : Buffer := b.filter fun e => e.1 ≠ k

/-- The entries with key below `t`, in ascending order (R194). -/
def Buffer.below (b : Buffer) (t : Word) : Buffer := b.filter fun e => e.1 < t

/-- The entries with key `t` or above. -/
def Buffer.above (b : Buffer) (t : Word) : Buffer := b.filter fun e => ¬ e.1 < t

/-- `full`: `|BUF|` has reached `BUF_CAP = WINDOW` (R190, R196). -/
def Buffer.full (w : SnWidth) (b : Buffer) : Bool := window w ≤ b.length

/-- `drain_below(t)` (R194). -/
def State.drainBelow (t : Word) (s : State) : State :=
  { s with
    ulData := s.ulData ++ (Buffer.below s.buf t).map Prod.snd
    trace := s.trace ++ (Buffer.below s.buf t).map fun e => .data e.2
    buf := Buffer.above s.buf t }

/-- One round of the consecutive drain: deliver `p`, the entry at `RX_DELIV` (R193). -/
def State.deliverNext (p : Octets) (s : State) : State :=
  { s.pushData p with buf := Buffer.remove s.buf s.rxDeliv, rxDeliv := s.rxDeliv + 1 }

/-- The loop of the consecutive drain, at most `n` rounds (R193). -/
def drainRounds : Nat → State → State
  | 0, s => s
  | n + 1, s =>
    match Buffer.find s.buf s.rxDeliv with
    | none => s
    | some p => drainRounds n (s.deliverNext p)

/-- `consecutive_drain()` (R193): each round removes an entry, so `|BUF|` rounds reach the loop's end. -/
def State.consecutiveDrain (s : State) : State := drainRounds s.buf.length s

/-- Clear (R195): nothing is delivered. -/
def State.clearBuffer (s : State) : State := { s with buf := [] }

/-- All three COUNT registers to zero (45 R201 step 1, R203 step 3). -/
def State.zeroCounters (s : State) : State := { s with rxNext := 0, rxDeliv := 0, rxReord := 0 }

end Sys2Proof.Machine
end

