-- ==== Sys2Proof/Machine/Operands.lean ====
section
/-! DEFINITION. The operands of the register commands: the fields of CFG (10_state R31), the key words (R33), and
the CSR space (R30) as `CSRR` reads it and `CSRW` writes it. -/

namespace Sys2Proof.Machine

/-- `CFG.SN_WIDTH`, bits 5:0. -/
def cfgSnWidth (cfg : Word) : BitVec 6 := cfg.extractLsb' 0 6

/-- `CFG.RLC_MODE`, bit 6. -/
def cfgRlcMode (cfg : Word) : BitVec 1 := cfg.extractLsb' 6 1

/-- `CFG.BEARER_TYPE`, bit 7: 0 control-plane, 1 user-plane. -/
def cfgBearerType (cfg : Word) : BitVec 1 := cfg.extractLsb' 7 1

/-- `CFG.BEARER`, bits 12:8. -/
def cfgBearer (cfg : Word) : BitVec 5 := cfg.extractLsb' 8 5

/-- `CFG.DIRECTION`, bit 13. -/
def cfgDirection (cfg : Word) : BitVec 1 := cfg.extractLsb' 13 1

/-- `CFG.INT_EN`, bit 14. -/
def cfgIntEn (cfg : Word) : BitVec 1 := cfg.extractLsb' 14 1

/-- `CFG.CIPH_EN`, bit 15. -/
def cfgCiphEn (cfg : Word) : BitVec 1 := cfg.extractLsb' 15 1

/-- `CFG.INT_ALG`, bits 17:16. -/
def cfgIntAlg (cfg : Word) : BitVec 2 := cfg.extractLsb' 16 2

/-- `CFG.CIPH_ALG`, bits 19:18. -/
def cfgCiphAlg (cfg : Word) : BitVec 2 := cfg.extractLsb' 18 2

/-- The bits of CFG that a write stores; bits 31:20 are discarded (R31, 45 R205). -/
def cfgMask : Word := 0x000FFFFF#32

/-- The algorithm of a 2-bit algorithm number; 0 is the null algorithm (42 R156). -/
def algOf (n : BitVec 2) : Option Alg :=
  if n = 0#2 then none else if n = 1#2 then some .alg1 else if n = 2#2 then some .alg2 else some .alg3

/-- A key with its word `j` replaced, word 0 the most significant (10_state R33). -/
def setKeyWord (k : Key128) (j : Nat) (v : Word) : Key128 :=
  match j with
  | 0 => v ++ keyWord k 1 ++ keyWord k 2 ++ keyWord k 3
  | 1 => keyWord k 0 ++ v ++ keyWord k 2 ++ keyWord k 3
  | 2 => keyWord k 0 ++ keyWord k 1 ++ v ++ keyWord k 3
  | _ => keyWord k 0 ++ keyWord k 1 ++ keyWord k 2 ++ v

/-- Write word `j` of key register number `i`: 0 = K_CP_INT, 1 = K_CP_ENC, 2 = K_UP_INT, 3 = K_UP_ENC (45 R205). -/
def State.writeKey (i j : Nat) (v : Word) (s : State) : State :=
  match i with
  | 0 => { s with kCpInt := setKeyWord s.kCpInt j v }
  | 1 => { s with kCpEnc := setKeyWord s.kCpEnc j v }
  | 2 => { s with kUpInt := setKeyWord s.kUpInt j v }
  | _ => { s with kUpEnc := setKeyWord s.kUpEnc j v }

/-- The write `CSRW` makes to a number 0 to 17 (45 R205). -/
def State.writeCsr (n : Nat) (v : Word) (s : State) : State :=
  if n = 0 then { s with cfg := v &&& cfgMask }
  else if n = 1 then { s with tReord := v }
  else s.writeKey ((n - 2) / 4) ((n - 2) % 4) v

/-- `STATUS` (10_state R34): LC in bits 1:0, TIMER_RUNNING in bit 2, CFG_WARN in bit 3. -/
def State.statusWord (s : State) : Word :=
  (0#28 ++ BitVec.ofBool s.cfgWarn ++ BitVec.ofBool s.timerRunning ++ s.lc.code : BitVec 32)

/-- The value `CSRR` returns (10_state R30, 45 R206): key words read 0, reserved numbers return 0. -/
def State.readCsr (n : Nat) (s : State) : Word :=
  if n = 0 then s.cfg
  else if n = 1 then s.tReord
  else if n = 18 then s.statusWord
  else if n = 19 then s.rxNext
  else if n = 20 then s.rxDeliv
  else if n = 21 then s.rxReord
  else if n = 22 then BitVec.ofNat 32 s.buf.length
  else if n = 23 then s.result.code.setWidth 32
  else 0

end Sys2Proof.Machine
end

