-- ==== Sys2Proof/Machine/Flags.lean ====
section
/-! DEFINITION. The conditions the rules compute from the state: TAGP (42_security_engine R154), the lifecycle tests
(45_lifecycle R200), the ConfigurationInconsistency condition (R202), and the timer conditions (40 R118, 41 R141). -/

namespace Sys2Proof.Machine

/-- `TAGP`: a tag is present and checked (42 R154). -/
def tagPresent (cfg : Word) : Bool := cfgBearerType cfg = 0#1 || cfgIntEn cfg = 1#1

/-- The bearer is a control-plane bearer (42 R151). -/
def controlPlane (cfg : Word) : Bool := cfgBearerType cfg = 0#1

/-- ConfigurationInconsistency (45 R202): infinite timer and the RLC mode that delivers in order. -/
def State.configMismatch (s : State) : Bool :=
  s.tReord = Config.timerInfinite && cfgRlcMode s.cfg = s.params.rlcInorderMode

/-- Something is outstanding: `RX_DELIV < RX_NEXT`. -/
def State.outstanding (s : State) : Bool := s.rxDeliv < s.rxNext

/-- The stop condition of step 7a: the timer runs and `RX_DELIV ≥ RX_REORD` (40 R118). -/
def State.timerDue (s : State) : Bool := s.timerRunning && s.rxReord ≤ s.rxDeliv

end Sys2Proof.Machine
end

