-- ==== Sys2Proof/Machine/Lifecycle.lean ====
section
/-! DEFINITION. The lifecycle and register commands (45_lifecycle): `CREATE`, `RELEASE`, `CSRW`, `CSRR`. -/

namespace Sys2Proof.Machine

/-- Steps 1 to 5 of `CREATE` (R201). -/
def State.createEntity (s : State) : State :=
  { s.zeroCounters.clearBuffer with timerRunning := false, cfgWarn := s.configMismatch, lc := .active }

/-- `CREATE` (45_lifecycle R201). -/
def execCreate (s : State) : Host.Outcome State Fault Refusal :=
  if s.lc ≠ .idle then .next (s.raise .ignored)
  else .next (s.createEntity.complete (if s.configMismatch then .okCfgWarn else .ok))

/-- Step 1 of `RELEASE` (R203): the timer is stopped before the buffer goes (R204). -/
def State.stopIfRunning (s : State) : State := if s.timerRunning then s.stopTimer else s

/-- Steps 1 to 5 of `RELEASE` (R203). -/
def State.releaseEntity (s : State) : State :=
  { s.stopIfRunning.clearBuffer.zeroCounters with cfgWarn := false, lc := .idle }

/-- `RELEASE` (45_lifecycle R203). -/
def execRelease (s : State) : Host.Outcome State Fault Refusal :=
  if s.lc = .idle then .next (s.raise .ignored) else .next (s.releaseEntity.complete .ok)

/-- `CSRW n, v` (45_lifecycle R205). -/
def execCsrw (n : BitVec 8) (v : Word) (s : State) : Host.Outcome State Fault Refusal :=
  if 24 ≤ n.toNat then .next (s.raise .illegalCommand)
  else if 18 ≤ n.toNat then .next (s.raise .ignored)
  else if s.lc ≠ .idle then .next (s.raise .ignored)
  else .next ((s.writeCsr n.toNat v).complete .ok)

/-- `CSRR n` (45_lifecycle R206): the value is read before `RESULT` is overwritten. -/
def execCsrr (n : BitVec 8) (s : State) : Host.Outcome State Fault Refusal :=
  if 24 ≤ n.toNat then .next (s.completeWith .illegalCmd (some 0))
  else .next (s.completeWith .ok (some (s.readCsr n.toNat)))

end Sys2Proof.Machine
end

