-- ==== Sys2Proof/Syntax.lean ====
section
/-! DEFINITION. The instructions: one constructor per row of spec/opcode_table.json. -/

namespace Sys2Proof

/-- The six commands (30_encoding R82) and the two PDU header formats (R87, R88). Fields that a command
does not use are ignored by the decoder (R81) and are no operands. -/
inductive Instr where
  /-- `CREATE`, format C0 (45_lifecycle R201). -/
  | create
  /-- `RX_PDU`, format C2: the `LEN` octets of one PDU, octet 0 first (40_reception R110). -/
  | rxPdu (pdu : Octets)
  /-- `T_EXPIRE`, format C0 (41_timer_expiry R140). -/
  | tExpire
  /-- `RELEASE`, format C0 (45_lifecycle R203). -/
  | release
  /-- `CSRW n, v`, format C1 (45_lifecycle R205). -/
  | csrw (n : BitVec 8) (v : Word)
  /-- `CSRR n`, format C1 (45_lifecycle R206). -/
  | csrr (n : BitVec 8)
  /-- `PDU12`: a PDU with a 12-bit SN header: the bits `r`, the SN, the octets after the header (R87). -/
  | pdu12 (r : BitVec 4) (sn : BitVec 12) (body : Octets)
  /-- `PDU18`: a PDU with an 18-bit SN header: the bits `r`, the SN, the octets after the header (R88). -/
  | pdu18 (r : BitVec 6) (sn : BitVec 18) (body : Octets)
  deriving DecidableEq, Repr

end Sys2Proof
end

