-- ==== Sys2Proof/WellFormed.lean ====
section
/-! DEFINITION. Which instruction terms an encoding exists for. -/

namespace Sys2Proof

/-- `LEN` is a 16-bit field (30_encoding R81): a PDU has at most 65535 octets. -/
def fitsLen (n : Nat) : Bool := n < 65536

/-- A PDU must be longer than its header (40_reception R111, 43_header_codec R180): the body is not empty. -/
def hasBody (body : Octets) : Bool := !body.isEmpty

/-- The terms that an encoding stands for. A command's register number and data word are of their field's
width by type; a PDU must fit the `LEN` field, and a PDU with a header must have an octet after it. -/
def Instr.wf : Instr → Bool
  | .create => true
  | .rxPdu pdu => fitsLen pdu.length
  | .tExpire => true
  | .release => true
  | .csrw _ _ => true
  | .csrr _ => true
  | .pdu12 _ _ body => hasBody body && fitsLen (2 + body.length)
  | .pdu18 _ _ body => hasBody body && fitsLen (3 + body.length)

/-- The terms that are commands, with an encoding on the command port; the other two are PDUs. -/
def Instr.isCommand : Instr → Bool
  | .create => true
  | .rxPdu _ => true
  | .tExpire => true
  | .release => true
  | .csrw _ _ => true
  | .csrr _ => true
  | .pdu12 _ _ _ => false
  | .pdu18 _ _ _ => false

end Sys2Proof
end

