-- ==== Sys2Proof/Decode.lean ====
section
/-! DEFINITION. The two decoders of 30_encoding R95: a command from the octets of the command port (R80 to R86),
and a PDU from its octets and the SN width (R87, R88); then the encoder. -/

namespace Sys2Proof

/-- What the port's octets begin with. -/
inductive Decoded where
  /-- A whole command, and the octets after it. -/
  | command (i : Instr) (rest : Octets)
  /-- A command word with a reserved opcode, and the octets after the word (R86: no operand data). -/
  | reservedOpcode (opc : Octet) (rest : Octets)
  /-- Fewer octets than the command word and its operand data need. -/
  | incomplete
  deriving DecidableEq, Repr

/-- What a PDU's octets are under one SN width. -/
inductive DecodedPdu where
  | pdu (i : Instr)
  /-- `SN_WIDTH` is neither 12 nor 18 (43_header_codec R181 (i)). -/
  | unsupportedWidth
  /-- The PDU does not exceed its header (R181 (ii)). -/
  | tooShort
  deriving DecidableEq, Repr

/-- `RX_PDU`: `LEN` octets of operand data (R84). -/
def decodeRxPdu (len : Nat) (rest : Octets) : Decoded :=
  if rest.length < len then .incomplete else .command (.rxPdu (rest.take len)) (rest.drop len)

/-- `CSRW`: one 32-bit data word (R81, format C1), most significant octet first (log 3). -/
def decodeCsrw (n : Octet) : Octets → Decoded
  | a :: b :: c :: d :: rest => .command (.csrw n (octetsWord a b c d)) rest
  | _ => .incomplete

/-- A command from its opcode, CSR number and length fields and the octets after the word (R81, R82). -/
def decodeFields (opc csrn : Octet) (len : Nat) (rest : Octets) : Decoded :=
  if opc = 0x01#8 then .command .create rest
  else if opc = 0x02#8 then decodeRxPdu len rest
  else if opc = 0x03#8 then .command .tExpire rest
  else if opc = 0x04#8 then .command .release rest
  else if opc = 0x10#8 then decodeCsrw csrn rest
  else if opc = 0x11#8 then .command (.csrr csrn) rest
  else .reservedOpcode opc rest

/-- The command the port's octets begin with (R80, R81). DESIGN CHOICE (log 3): a 32-bit word is laid out
on the port most significant octet first. -/
def decode : Octets → Decoded
  | opc :: csrn :: lenHi :: lenLo :: rest => decodeFields opc csrn (lenHi ++ lenLo).toNat rest
  | _ => .incomplete

/-- `PDU12` (R87): SN in bits 3:0 of octet 0 and all of octet 1. -/
def decodePdu12 : Octets → DecodedPdu
  | o0 :: o1 :: o2 :: rest => .pdu (.pdu12 (o0.extractLsb' 4 4) (o0.extractLsb' 0 4 ++ o1) (o2 :: rest))
  | _ => .tooShort

/-- `PDU18` (R88): SN in bits 1:0 of octet 0 and all of octets 1 and 2. -/
def decodePdu18 : Octets → DecodedPdu
  | o0 :: o1 :: o2 :: o3 :: rest =>
    .pdu (.pdu18 (o0.extractLsb' 2 6) (o0.extractLsb' 0 2 ++ o1 ++ o2) (o3 :: rest))
  | _ => .tooShort

/-- A PDU under a value of `CFG.SN_WIDTH` (R95: the header's length follows from it alone). -/
def decodePdu (field : BitVec 6) (pdu : Octets) : DecodedPdu :=
  match snWidthOf field with
  | some .w12 => decodePdu12 pdu
  | some .w18 => decodePdu18 pdu
  | none => .unsupportedWidth

/-- The command word `OPC ‖ CSRN ‖ LEN` (R81). -/
def commandWord (opc csrn : Octet) (len : BitVec 16) : Word := opc ++ csrn ++ len

/-- The two header octets of a `PDU12` (R87). -/
def header12 (r : BitVec 4) (sn : BitVec 12) : Octets := [r ++ sn.extractLsb' 8 4, sn.extractLsb' 0 8]

/-- The three header octets of a `PDU18` (R88). -/
def header18 (r : BitVec 6) (sn : BitVec 18) : Octets :=
  [r ++ sn.extractLsb' 16 2, sn.extractLsb' 8 8, sn.extractLsb' 0 8]

/-- The octets of an instruction: a command as it stands on the port (R81 to R84; unused fields 0), a PDU as
the lower layer hands it over (R87, R88). -/
def encode : Instr → Octets
  | .create => wordOctets (commandWord 0x01#8 0 0)
  | .rxPdu pdu => wordOctets (commandWord 0x02#8 0 (BitVec.ofNat 16 pdu.length)) ++ pdu
  | .tExpire => wordOctets (commandWord 0x03#8 0 0)
  | .release => wordOctets (commandWord 0x04#8 0 0)
  | .csrw n v => wordOctets (commandWord 0x10#8 n 0) ++ wordOctets v
  | .csrr n => wordOctets (commandWord 0x11#8 n 0)
  | .pdu12 r sn body => header12 r sn ++ body
  | .pdu18 r sn body => header18 r sn ++ body

/-- The instructions that hand the block a PDU, and the PDU's octets. -/
def Instr.pdu? : Instr → Option Octets
  | .create => none
  | .rxPdu pdu => some pdu
  | .tExpire => none
  | .release => none
  | .csrw _ _ => none
  | .csrr _ => none
  | .pdu12 r sn body => some (header12 r sn ++ body)
  | .pdu18 r sn body => some (header18 r sn ++ body)

/-- How many octets of operand data the word on the port takes with it (R81). -/
def operandLen (w : Word) : Nat :=
  if w.extractLsb' 24 8 = 0x02#8 then (w.extractLsb' 0 16).toNat
  else if w.extractLsb' 24 8 = 0x10#8 then 4
  else 0

/-- A command word with operand data of zeros, as it stands on the port. -/
def tableCommand (w : Nat) : Octets :=
  let word : Word := BitVec.ofNat 32 w
  wordOctets word ++ List.replicate (operandLen word) 0#8

/-- A 12-bit header given as one number, octet 0 its most significant octet, and 4 octets of zeros after it:
the shortest data part that every configuration takes (log 5). -/
def tablePdu12 (w : Nat) : Octets := (wordOctets (BitVec.ofNat 32 w)).drop 2 ++ List.replicate 4 0#8

/-- The same for an 18-bit header (log 5). -/
def tablePdu18 (w : Nat) : Octets := (wordOctets (BitVec.ofNat 32 w)).drop 1 ++ List.replicate 4 0#8

/-- The instruction of a decoded PDU. -/
def DecodedPdu.instr? : DecodedPdu → Option Instr
  | .pdu i => some i
  | .unsupportedWidth => none
  | .tooShort => none

/-- The instruction of a decoded command. -/
def Decoded.instr? : Decoded → Option Instr
  | .command i _ => some i
  | .reservedOpcode _ _ => none
  | .incomplete => none

/-- The instruction the decoder reads from the bits `w` of a row of spec/opcode_table.json: a 32-bit row is
a command word, a 16-bit row a `PDU12` header, a 24-bit row a `PDU18` header; the operand data is zeros. -/
def decodeTableWord (nbits w : Nat) : Option Instr :=
  if nbits = 32 then (decode (tableCommand w)).instr?
  else if nbits = 16 then (decodePdu (snField .w12) (tablePdu12 w)).instr?
  else if nbits = 24 then (decodePdu (snField .w18) (tablePdu18 w)).instr?
  else none

end Sys2Proof
end

