-- ==== Sys2Proof/Machine/Expiry.lean ====
section
/-! DEFINITION. The Timer Expiry Handler (41_timer_expiry): the expiry body and the command `T_EXPIRE`. -/

namespace Sys2Proof.Machine

/-- Steps a to c of the expiry body (R141): deliver everything below `RX_REORD`, `RX_DELIV <- RX_REORD`,
consecutive drain. -/
def State.expiryDrain (s : State) : State :=
  ({ s.drainBelow s.rxReord with rxDeliv := s.rxReord }).consecutiveDrain

/-- Step d of the expiry body (R141): restart the timer for what is still outstanding, or, with a zero
duration, InternalFault. -/
def State.expiryRestart (s : State) : State × ResultCode :=
  if s.outstanding then
    if s.tReord = Config.timerZero then (s.errorEffect .internalFault, .internalFault)
    else (s.startTimer, .ok)
  else (s, .ok)

/-- `expiry_body()` (R141). -/
def State.expiryBody (s : State) : State × ResultCode := s.expiryDrain.expiryRestart

/-- `T_EXPIRE` as a state change (R140). -/
def State.expire (s : State) : State :=
  if s.lc ≠ .active then s.raise .ignored
  else if !s.timerRunning then s.raise .ignored
  else
    let r := ({ s with timerRunning := false }).expiryBody
    r.1.complete r.2

/-- `T_EXPIRE` (41_timer_expiry R140). -/
def execTExpire (s : State) : Host.Outcome State Fault Refusal := .next s.expire

end Sys2Proof.Machine
end

