-- ==== Sys2Proof/Machine/HeaderCodec.lean ====
section
/-! DEFINITION. The Header Codec (43_header_codec): parse_header, strip_header, strip_integrity_tag. -/

namespace Sys2Proof.Machine

/-- `((PDU[0] and 0x0F) << 8) or PDU[1]`, zero-extended (R180). -/
def sn12 (pdu : Octets) : Word :=
  ((octetAt pdu 0 &&& 0x0F#8).setWidth 32 <<< 8) ||| (octetAt pdu 1).setWidth 32

/-- `((PDU[0] and 0x03) << 16) or (PDU[1] << 8) or PDU[2]`, zero-extended (R180). -/
def sn18 (pdu : Octets) : Word :=
  ((octetAt pdu 0 &&& 0x03#8).setWidth 32 <<< 16) ||| ((octetAt pdu 1).setWidth 32 <<< 8) |||
    (octetAt pdu 2).setWidth 32

/-- `parse_header(PDU)` under a value of `CFG.SN_WIDTH` (R180); `none` is "fail malformed". -/
def parseHeader (field : BitVec 6) (pdu : Octets) : Option Word :=
  if field = 12#6 then
    if pdu.length ≤ 2 then none else some (sn12 pdu)
  else if field = 18#6 then
    if pdu.length ≤ 3 then none else some (sn18 pdu)
  else none

/-- The header octets kept aside (R182). -/
def headerOctets (w : SnWidth) (pdu : Octets) : Octets := sub pdu 0 (hdrLen w)

/-- `strip_header(PDU)` (R182). -/
def stripHeader (w : SnWidth) (pdu : Octets) : Octets := sub pdu (hdrLen w) (pdu.length - hdrLen w)

/-- The payload of `strip_integrity_tag(body)` (R183). -/
def stripTag (body : Octets) : Octets := sub body 0 (body.length - 4)

/-- The tag of `strip_integrity_tag(body)` (R183). -/
def receivedTag (body : Octets) : Tag :=
  let t := sub body (body.length - 4) 4
  ⟨octetAt t 0, octetAt t 1, octetAt t 2, octetAt t 3⟩

end Sys2Proof.Machine
end

