-- ==== Sys2Proof/Machine/Aes.lean ====
section
/-! DEFINITION. Algorithm 2 of the annex: AES-128, its counter mode and CMAC (46_alg_aes R220 to R228).
Every rule of that file is from general knowledge; see log entry 1. -/

namespace Sys2Proof.Machine.Aes

/-- `xtime` of R220, in the field modulo `0x11B`. -/
def xtime (a : Octet) : Octet := if a.getLsbD 7 then (a <<< 1) ^^^ 0x1B#8 else a <<< 1

/-- The table of `SR`, one row a line (46_alg_aes R221). -/
def srRows : List (BitVec 128) :=
  [0x637C777BF26B6FC53001672BFED7AB76#128,
   0xCA82C97DFA5947F0ADD4A2AF9CA472C0#128,
   0xB7FD9326363FF7CC34A5E5F171D83115#128,
   0x04C723C31896059A071280E2EB27B275#128,
   0x09832C1A1B6E5AA0523BD6B329E32F84#128,
   0x53D100ED20FCB15B6ACBBE394A4C58CF#128,
   0xD0EFAAFB434D338545F9027F503C9FA8#128,
   0x51A3408F929D38F5BCB6DA2110FFF3D2#128,
   0xCD0C13EC5F974417C4A77E3D645D1973#128,
   0x60814FDC222A908846EEB814DE5E0BDB#128,
   0xE0323A0A4906245CC2D3AC629195E479#128,
   0xE7C8376D8DD54EA96C56F4EA657AAE08#128,
   0xBA78252E1CA6B4C6E8DD741F4BBD8B8A#128,
   0x703EB5664803F60E613557B986C11D9E#128,
   0xE1F8981169D98E949B1E87E9CE5528DF#128,
   0x8CA1890DBFE6426841992D0FB054BB16#128]

/-- The S-box `SR` (R221). -/
def sr (x : Octet) : Octet := tableLookup srRows x

/-- `SubWord(RotWord(t)) xor (Rcon ‖ 00 00 00)` (R222). -/
def scheduleCore (t : Word) (rcon : Octet) : Word :=
  octetsWord (sr (t.extractLsb' 16 8)) (sr (t.extractLsb' 8 8)) (sr (t.extractLsb' 0 8))
    (sr (t.extractLsb' 24 8)) ^^^ octetsWord rcon 0 0 0

/-- The next round key: words `w[4r+4 .. 4r+7]` from `w[4r .. 4r+3]` (R222). -/
def nextRoundKey (k : BitVec 128) (rcon : Octet) : BitVec 128 :=
  let w0 := keyWord k 0 ^^^ scheduleCore (keyWord k 3) rcon
  let w1 := keyWord k 1 ^^^ w0
  let w2 := keyWord k 2 ^^^ w1
  let w3 := keyWord k 3 ^^^ w2
  w0 ++ w1 ++ w2 ++ w3

/-- SubBytes (R223). -/
def subBytes (s : Octets) : Octets := s.map sr

/-- ShiftRows (R223): octet `4c + r` comes from `4((c + r) mod 4) + r`. -/
def shiftRows (s : Octets) : Octets :=
  (List.range 16).map fun i => octetAt s (4 * ((i / 4 + i % 4) % 4) + i % 4)

/-- MixColumns on one column (R223); `2•a` is `xtime a` and `3•a` is `xtime a xor a`. -/
def mixColumn (a0 a1 a2 a3 : Octet) : Octets :=
  [xtime a0 ^^^ (xtime a1 ^^^ a1) ^^^ a2 ^^^ a3,
   a0 ^^^ xtime a1 ^^^ (xtime a2 ^^^ a2) ^^^ a3,
   a0 ^^^ a1 ^^^ xtime a2 ^^^ (xtime a3 ^^^ a3),
   (xtime a0 ^^^ a0) ^^^ a1 ^^^ a2 ^^^ xtime a3]

/-- MixColumns, column by column (R223). -/
def mixColumns : Octets → Octets
  | a0 :: a1 :: a2 :: a3 :: rest => mixColumn a0 a1 a2 a3 ++ mixColumns rest
  | s => s

/-- One round up to AddRoundKey (R223); the last round has no MixColumns. -/
def round (last : Bool) (s key : BitVec 128) : BitVec 128 :=
  let t := shiftRows (subBytes (blockOctets s))
  octetsBlock (if last then t else mixColumns t) ^^^ key

/-- Rounds 1 to 10: `n` rounds remain, `rcon` is the constant of the next round key (R222, R223). -/
def rounds : Nat → BitVec 128 → BitVec 128 → Octet → BitVec 128
  | 0, s, _, _ => s
  | n + 1, s, k, rcon =>
    let k' := nextRoundKey k rcon
    rounds n (round (n == 0) s k') k' (xtime rcon)

/-- `AES(K, B)` (R223). -/
def encrypt (k : Key128) (b : BitVec 128) : BitVec 128 := rounds 10 (b ^^^ k) k 0x01#8

/-- The high half of every counter block: COUNT, BEARER, DIRECTION, 26 zero bits (R224). -/
def counterHigh (count : Word) (bearer : BitVec 5) (dir : BitVec 1) : BitVec 64 :=
  count ++ bearer ++ dir ++ 0#26

/-- Counter block `T_(j+1)`: the low 64 bits count from 0 modulo 2^64 (R224). -/
def counterBlock (count : Word) (bearer : BitVec 5) (dir : BitVec 1) (j : Nat) : BitVec 128 :=
  counterHigh count bearer dir ++ BitVec.ofNat 64 j

/-- The octets of `AES(K, T_(j+1)) ‖ …`, `m` blocks from block `j` (R225). -/
def keystreamBlocks (k : Key128) (count : Word) (bearer : BitVec 5) (dir : BitVec 1) : Nat → Nat → Octets
  | 0, _ => []
  | m + 1, j => blockOctets (encrypt k (counterBlock count bearer dir j)) ++ keystreamBlocks k count bearer dir m (j + 1)

/-- `KS(2, …)`: 128-EEA2 (R225). -/
def ks (k : Key128) (count : Word) (bearer : BitVec 5) (dir : BitVec 1) (n : Nat) : Octets :=
  (keystreamBlocks k count bearer dir ((n + 15) / 16) 0).take n

/-- `dbl` of R226. -/
def dbl (x : BitVec 128) : BitVec 128 := if x.getLsbD 127 then (x <<< 1) ^^^ 0x87#128 else x <<< 1

/-- The last CMAC block from a full last part (R227). -/
def cmacLastFull (k : Key128) (part : Octets) : BitVec 128 := octetsBlock part ^^^ dbl (encrypt k 0)

/-- The last CMAC block from a part of 0 to 15 octets: padded with `80 00 …` (R227). -/
def cmacLastPadded (k : Key128) (part : Octets) : BitVec 128 :=
  octetsBlock (part ++ [0x80#8] ++ List.replicate (15 - part.length) 0#8) ^^^ dbl (dbl (encrypt k 0))

/-- The CMAC chain: `n` full blocks before the last part, running value `x` (R227). -/
def cmacChain (k : Key128) : Nat → BitVec 128 → Octets → BitVec 128
  | 0, x, part =>
    encrypt k (x ^^^ (if part.length = 16 then cmacLastFull k part else cmacLastPadded k part))
  | n + 1, x, m => cmacChain k n (encrypt k (x ^^^ octetsBlock (m.take 16))) (m.drop 16)

/-- `CMAC(K, M)` for a whole number of octets (R227): `n - 1` full blocks precede the last part. -/
def cmac (k : Key128) (m : Octets) : BitVec 128 := cmacChain k ((m.length + 15) / 16 - 1) 0 m

/-- `MAC(2, …)`: 128-EIA2, the first 4 octets of the CMAC of the 8-octet prefix and the message (R228). -/
def mac (k : Key128) (count : Word) (bearer : BitVec 5) (dir : BitVec 1) (message : Octets) : Tag :=
  let p := (blockOctets (counterBlock count bearer dir 0)).take 8
  wordTag (keyWord (cmac k (p ++ message)) 0)

end Sys2Proof.Machine.Aes
end

