-- ==== Sys2Proof/Machine/Snow3g.lean ====
section
/-! DEFINITION. Algorithm 1 of the annex: SNOW 3G, 128-EEA1 and 128-EIA1 (47_alg_snow3g R240 to R251).
Every rule of that file is from general knowledge; see log entry 1. -/

namespace Sys2Proof.Machine.Snow3g

/-- `MULx(V, c)` (R240). -/
def mulx (v c : Octet) : Octet := if v.getLsbD 7 then (v <<< 1) ^^^ c else v <<< 1

/-- `MULxPOW(V, i, c)` (R240). -/
def mulxPow (v : Octet) : Nat → Octet → Octet
  | 0, _ => v
  | i + 1, c => mulx (mulxPow v i c) c

/-- The table of `SQ`, one row a line (47_alg_snow3g R241). -/
def sqRows : List (BitVec 128) :=
  [0x25247367D7AE5C30A4EE6ECB7DB582DB#128,
   0xE48E48494F5D6A787088E85F5E8465E2#128,
   0xD8E9CCED402F112857D2ACE34A151BB9#128,
   0xB28085A62E024729074B0EC151AA89D4#128,
   0xCA0146B3EFDD447BC27FBEC39F204C64#128,
   0x83A2684213B441CDBAC6BB6D4D7121F4#128,
   0x8DB0E593FE8FE6CF43453122373696FA#128,
   0xBC0F08521D551AC54E23697A92FF5B5A#128,
   0xEB9A1CA9D17E0DFC508AB662F50AF8DC#128,
   0x033C0C39F1B8F33DF2D597668132A000#128,
   0x06CEF6EAB717F78C79D6A7BF8B3F1F53#128,
   0x6375352C60FD27D394A57CA105582DBD#128,
   0xD9C7AF6B540BE03804C89DE714B1879C#128,
   0xDF6FF9DA2AC459167491AB266176342B#128,
   0xAD99FB72EC3312DE983BC09B3E18103A#128,
   0x56E177C91E9E95A39019A86C09D0F086#128]

/-- The S-box `SQ` (R241). -/
def sq (x : Octet) : Octet := tableLookup sqRows x

/-- The mixing shared by `S1` and `S2` (R242): octets after the S-box, and the constant of `MULx`. -/
def mixWord (a0 a1 a2 a3 c : Octet) : Word :=
  octetsWord
    (mulx a0 c ^^^ a1 ^^^ a2 ^^^ mulx a3 c ^^^ a3)
    (mulx a0 c ^^^ a0 ^^^ mulx a1 c ^^^ a2 ^^^ a3)
    (a0 ^^^ mulx a1 c ^^^ a1 ^^^ mulx a2 c ^^^ a3)
    (a0 ^^^ a1 ^^^ mulx a2 c ^^^ a2 ^^^ mulx a3 c)

/-- The 32-bit S-box `S1` (R242). -/
def s1 (w : Word) : Word :=
  mixWord (Aes.sr (w.extractLsb' 24 8)) (Aes.sr (w.extractLsb' 16 8)) (Aes.sr (w.extractLsb' 8 8))
    (Aes.sr (w.extractLsb' 0 8)) 0x1B#8

/-- The 32-bit S-box `S2` (R242). -/
def s2 (w : Word) : Word :=
  mixWord (sq (w.extractLsb' 24 8)) (sq (w.extractLsb' 16 8)) (sq (w.extractLsb' 8 8))
    (sq (w.extractLsb' 0 8)) 0x69#8

/-- `MULα` (R243). -/
def mulAlpha (c : Octet) : Word :=
  octetsWord (mulxPow c 23 0xA9#8) (mulxPow c 245 0xA9#8) (mulxPow c 48 0xA9#8) (mulxPow c 239 0xA9#8)

/-- `DIVα` (R243). -/
def divAlpha (c : Octet) : Word :=
  octetsWord (mulxPow c 16 0xA9#8) (mulxPow c 39 0xA9#8) (mulxPow c 6 0xA9#8) (mulxPow c 64 0xA9#8)

/-- The generator's state (R244): the LFSR words `s0 … s15`, first `s0`, and the FSM words. -/
structure Gen where
  lfsr : List Word
  r1 : Word
  r2 : Word
  r3 : Word
  deriving DecidableEq, Repr

/-- LFSR word `si`. -/
def cell (g : Gen) (i : Nat) : Word := g.lfsr.getD i 0#32

/-- The output of `ClockFSM` (R244). -/
def fsmOutput (g : Gen) : Word := (cell g 15 + g.r1) ^^^ g.r2

/-- The state after `ClockFSM` (R244). -/
def clockFsm (g : Gen) : Gen :=
  let r := g.r2 + (g.r3 ^^^ cell g 5)
  ⟨g.lfsr, r, s1 g.r1, s2 g.r2⟩

/-- The LFSR's feedback word without `F` (R245). -/
def feedback (g : Gen) : Word :=
  (cell g 0 <<< 8) ^^^ mulAlpha ((cell g 0).extractLsb' 24 8) ^^^ cell g 2 ^^^ (cell g 11 >>> 8)
    ^^^ divAlpha ((cell g 11).extractLsb' 0 8)

/-- Clock the LFSR; `u` is `F` in initialisation mode and 0 in keystream mode (R245). -/
def clockLfsr (g : Gen) (u : Word) : Gen := ⟨g.lfsr.tail ++ [feedback g ^^^ u], g.r1, g.r2, g.r3⟩

/-- `n` initialisation clocks (R246). -/
def initClocks : Nat → Gen → Gen
  | 0, g => g
  | n + 1, g => initClocks n (clockLfsr (clockFsm g) (fsmOutput g))

/-- One keystream clock (R247). -/
def keystreamClock (g : Gen) : Gen := clockLfsr (clockFsm g) 0#32

/-- The loaded state before the 32 clocks (R246). -/
def load (k0 k1 k2 k3 iv0 iv1 iv2 iv3 : Word) : Gen :=
  let one := 0xFFFFFFFF#32
  ⟨[k0 ^^^ one, k1 ^^^ one, k2 ^^^ one, k3 ^^^ one, k0, k1, k2, k3,
    k0 ^^^ one, k1 ^^^ one ^^^ iv3, k2 ^^^ one ^^^ iv2, k3 ^^^ one, k0 ^^^ iv1, k1, k2, k3 ^^^ iv0], 0, 0, 0⟩

/-- The generator ready for its first keystream word (R246, R247). -/
def start (k0 k1 k2 k3 iv0 iv1 iv2 iv3 : Word) : Gen :=
  keystreamClock (initClocks 32 (load k0 k1 k2 k3 iv0 iv1 iv2 iv3))

/-- The next `m` keystream words (R247). -/
def keystreamWords : Nat → Gen → List Word
  | 0, _ => []
  | m + 1, g => (fsmOutput g ^^^ cell g 0) :: keystreamWords m (keystreamClock g)

/-- The generator for a 16-octet key: the first four octets are `k3` (R248). -/
def startKey (k : Key128) (iv0 iv1 iv2 iv3 : Word) : Gen :=
  start (keyWord k 3) (keyWord k 2) (keyWord k 1) (keyWord k 0) iv0 iv1 iv2 iv3

/-- `IV2` of ciphering: `(BEARER << 27) or (DIRECTION << 26)` (R248). -/
def cipherIv (bearer : BitVec 5) (dir : BitVec 1) : Word := bearer ++ dir ++ 0#26

/-- `KS(1, …)`: 128-EEA1 (R249). -/
def ks (k : Key128) (count : Word) (bearer : BitVec 5) (dir : BitVec 1) (n : Nat) : Octets :=
  let iv := cipherIv bearer dir
  ((keystreamWords ((n + 3) / 4) (startKey k iv count iv count)).flatMap wordOctets).take n

/-- `MUL64x(V, c)` (R250). -/
def mul64x (v c : BitVec 64) : BitVec 64 := if v.getLsbD 63 then (v <<< 1) ^^^ c else v <<< 1

/-- The sum of `MUL64(V, P, c)` over bits `64 - n .. 63` of `P`, where `v` is `MUL64xPOW(V, 64 - n, c)` and
`p` is `P` shifted right by `64 - n` (R250). -/
def mul64From : Nat → BitVec 64 → BitVec 64 → BitVec 64 → BitVec 64
  | 0, _, _, _ => 0
  | n + 1, v, p, c => (if p.getLsbD 0 then v else 0) ^^^ mul64From n (mul64x v c) (p >>> 1) c

/-- `MUL64(V, P, c)` (R250). -/
def mul64 (v p c : BitVec 64) : BitVec 64 := mul64From 64 v p c

/-- The message as 64-bit big-endian blocks, `n` of them, the last padded with zero bits (R251). -/
def blocks64 : Nat → Octets → List (BitVec 64)
  | 0, _ => []
  | n + 1, m => BitVec.ofNat 64 (be (m.take 8 ++ List.replicate (8 - m.length) 0#8)) :: blocks64 n (m.drop 8)

/-- `EVAL` after the message blocks (R251). -/
def evalBlocks (p : BitVec 64) (ms : List (BitVec 64)) : BitVec 64 :=
  ms.foldl (fun ev m => mul64 (ev ^^^ m) p 0x1B#64) 0

/-- The 32-bit tag value with `FRESH` given (R251). -/
def macFresh (k : Key128) (count fresh : Word) (dir : BitVec 1) (message : Octets) : Word :=
  let dirWord : Word := dir.setWidth 32
  let z := keystreamWords 5
    (startKey k (fresh ^^^ (dirWord <<< 15)) (count ^^^ (dirWord <<< 31)) fresh count)
  let p : BitVec 64 := z.getD 0 0 ++ z.getD 1 0
  let q : BitVec 64 := z.getD 2 0 ++ z.getD 3 0
  let ev := evalBlocks p (blocks64 ((message.length + 7) / 8) message)
  let ev := mul64 (ev ^^^ BitVec.ofNat 64 (8 * message.length)) q 0x1B#64
  ev.extractLsb' 32 32 ^^^ z.getD 4 0

/-- `MAC(1, …)`: 128-EIA1, `FRESH = BEARER << 27` (R251). -/
def mac (k : Key128) (count : Word) (bearer : BitVec 5) (dir : BitVec 1) (message : Octets) : Tag :=
  wordTag (macFresh k count (bearer ++ 0#27) dir message)

end Sys2Proof.Machine.Snow3g
end

