-- ==== Sys2Proof/Machine/Zuc.lean ====
section
/-! DEFINITION. Algorithm 3 of the annex: ZUC, 128-EEA3 and 128-EIA3 (48_alg_zuc R260 to R270).
Every rule of that file is from general knowledge; see log entry 1. -/

namespace Sys2Proof.Machine.Zuc

/-- A 31-bit LFSR cell (R260). -/
abbrev Cell := BitVec 31

/-- The generator's state (R260): the LFSR cells `s0 … s15`, first `s0`, and `R1`, `R2`. -/
structure Gen where
  lfsr : List Cell
  r1 : Word
  r2 : Word
  deriving DecidableEq, Repr

/-- LFSR cell `si`. -/
def cell (g : Gen) (i : Nat) : Cell := g.lfsr.getD i 0#31

/-- `add31(a, b)`: addition modulo `2^31 - 1` by folding the carry back (R260). -/
def add31 (a b : Cell) : Cell :=
  let c : Word := a.setWidth 32 + b.setWidth 32
  c.setWidth 31 + (c >>> 31).setWidth 31

/-- The LFSR's feedback, before the input `u` and the zero rule (R261). -/
def feedback (g : Gen) : Cell :=
  add31 (add31 (add31 (add31 (add31 (cell g 0) ((cell g 0).rotateLeft 8)) ((cell g 4).rotateLeft 20))
    ((cell g 10).rotateLeft 21)) ((cell g 13).rotateLeft 17)) ((cell g 15).rotateLeft 15)

/-- Shift `v` into the LFSR, with 0 replaced by `2^31 - 1` (R261). -/
def shiftIn (g : Gen) (v : Cell) : Gen := ⟨g.lfsr.tail ++ [if v = 0 then 0x7FFFFFFF#31 else v], g.r1, g.r2⟩

/-- Initialisation mode with input `u` (R261). -/
def clockInit (g : Gen) (u : Cell) : Gen := shiftIn g (add31 (feedback g) u)

/-- Work mode (R261). -/
def clockWork (g : Gen) : Gen := shiftIn g (feedback g)

/-- `sH`: the high 16 bits of a cell (file 48, introduction). -/
def high (s : Cell) : BitVec 16 := s.extractLsb' 15 16

/-- `sL`: the low 16 bits of a cell. -/
def low (s : Cell) : BitVec 16 := s.extractLsb' 0 16

/-- `X0` (R262). -/
def x0 (g : Gen) : Word := high (cell g 15) ++ low (cell g 14)

/-- `X1` (R262). -/
def x1 (g : Gen) : Word := low (cell g 11) ++ high (cell g 9)

/-- `X2` (R262). -/
def x2 (g : Gen) : Word := low (cell g 7) ++ high (cell g 5)

/-- `X3` (R262). -/
def x3 (g : Gen) : Word := low (cell g 2) ++ high (cell g 0)

/-- The table of `S0`, one row a line (48_alg_zuc R264). -/
def s0Rows : List (BitVec 128) :=
  [0x3E725B47CAE0003304D1549809B96DCB#128,
   0x7B1BF932AF9D6AA5B82DFC1D08530390#128,
   0x4D4E8499E4CED991DDB685488B296EAC#128,
   0xCDC1F81E734369C6B5BDFD396320D438#128,
   0x767DB2A7CFED57C5F32CBB142106559B#128,
   0xE3EF5E314F7F5AA40D8251495FBA581C#128,
   0x4A16D517A892241F8CFFD8AE2E01D3AD#128,
   0x3B4BDA46EBC9DE9A8F87D73A806F2FC8#128,
   0xB1B437F70A2213287CCC3C89C7C39656#128,
   0x07BF7EF00B2B975235417961A64C10FE#128,
   0xBC2695888AB0A3FBC01894F2E1E5E95D#128,
   0xD0DC1166645CEC59427512F5749CAA23#128,
   0x0E86ABBE2A02E767E644A26CC2939FF1#128,
   0xF6FA36D250689E6271153DD640C4E20F#128,
   0x8E83776B25053F0C30EA70B7A1E8A965#128,
   0x8D271ADB81B3A0F4457A19DFEE783460#128]

/-- The table of `S1`, one row a line (48_alg_zuc R265). -/
def s1Rows : List (BitVec 128) :=
  [0x55C263713BC847869F3CDA5B29AAFD77#128,
   0x8CC5940CA61A1300E3A8167240F9F842#128,
   0x4426689681D9453E1076C6A78B3943E1#128,
   0x3AB5562AC06DB3052266BFDC0BFA6248#128,
   0xDD20110636C9C1CFF62752BB69F5D487#128,
   0x7F844CD29C57A4BC4F9ADFFED68D7AEB#128,
   0x2B53D85CA11417FB23D57D3067730809#128,
   0xEEB7703F61B2198E4EE54B938F5DDBA9#128,
   0xADF1AE2ECB0DFCF42D466E1D97E8D1E9#128,
   0x4D37A5755E839EAB829DB91CE0CD4989#128,
   0x01B6BD5824A25F387899159050B895E4#128,
   0xD091C7CEED0FB46FA0CCF0024A79C3DE#128,
   0xA3EFEA51E66B18EC1B2C80F774E7FF21#128,
   0x5A6A541E41319235C433070ABA7E0E34#128,
   0x88B1987CF33D606C7BCAD31F32650428#128,
   0x64BE859B2F598AD7B025ACAF1203E2F2#128]

/-- The 32-bit S-box `S` of R263: `S0`, `S1`, `S0`, `S1` from the most significant octet down. -/
def sbox (w : Word) : Word :=
  octetsWord (tableLookup s0Rows (w.extractLsb' 24 8)) (tableLookup s1Rows (w.extractLsb' 16 8))
    (tableLookup s0Rows (w.extractLsb' 8 8)) (tableLookup s1Rows (w.extractLsb' 0 8))

/-- The linear map `L1` (R263). -/
def l1 (x : Word) : Word := x ^^^ x.rotateLeft 2 ^^^ x.rotateLeft 10 ^^^ x.rotateLeft 18 ^^^ x.rotateLeft 24

/-- The linear map `L2` (R263). -/
def l2 (x : Word) : Word := x ^^^ x.rotateLeft 8 ^^^ x.rotateLeft 14 ^^^ x.rotateLeft 22 ^^^ x.rotateLeft 30

/-- The value `F(X0, X1, X2)` returns (R263). -/
def fOutput (g : Gen) : Word := (x0 g ^^^ g.r1) + g.r2

/-- The state after `F(X0, X1, X2)`: `R1`, `R2` rewritten (R263). -/
def fState (g : Gen) : Gen :=
  let w1 := g.r1 + x1 g
  let w2 := g.r2 ^^^ x2 g
  ⟨g.lfsr, sbox (l1 (w1.extractLsb' 0 16 ++ w2.extractLsb' 16 16)),
    sbox (l2 (w2.extractLsb' 0 16 ++ w1.extractLsb' 16 16))⟩

/-- The sixteen 15-bit constants `d0 … d15` (R266). -/
def dConst : List (BitVec 15) :=
  [0x44D7#15, 0x26BC#15, 0x626B#15, 0x135E#15, 0x5789#15, 0x35E2#15, 0x7135#15, 0x09AF#15,
   0x4D78#15, 0x2F13#15, 0x6BC4#15, 0x1AF1#15, 0x5E26#15, 0x3C4D#15, 0x789A#15, 0x47AC#15]

/-- The loaded state: `s_i = k_i ‖ d_i ‖ iv_i` (R266). -/
def load (key iv : Octets) : Gen :=
  ⟨(List.range 16).map fun i => octetAt key i ++ dConst.getD i 0 ++ octetAt iv i, 0, 0⟩

/-- `n` initialisation rounds (R266). -/
def initRounds : Nat → Gen → Gen
  | 0, g => g
  | n + 1, g => initRounds n (clockInit (fState g) ((fOutput g).extractLsb' 1 31))

/-- One work round: `F`, then the LFSR in work mode (R266). -/
def workRound (g : Gen) : Gen := clockWork (fState g)

/-- The generator ready for its first keystream word (R266). -/
def start (key iv : Octets) : Gen := workRound (initRounds 32 (load key iv))

/-- The next `m` keystream words (R266). -/
def keystreamWords : Nat → Gen → List Word
  | 0, _ => []
  | m + 1, g => (fOutput g ^^^ x3 g) :: keystreamWords m (workRound g)

/-- The first half of the IV of ciphering (R267). -/
def cipherIvHalf (count : Word) (bearer : BitVec 5) (dir : BitVec 1) : Octets :=
  wordOctets count ++ [bearer ++ dir ++ 0#2, 0, 0, 0]

/-- `KS(3, …)`: 128-EEA3 (R267, R268). -/
def ks (k : Key128) (count : Word) (bearer : BitVec 5) (dir : BitVec 1) (n : Nat) : Octets :=
  let half := cipherIvHalf count bearer dir
  ((keystreamWords ((n + 3) / 4) (start (blockOctets k) (half ++ half))).flatMap wordOctets).take n

/-- The IV of integrity (R269). -/
def macIv (count : Word) (bearer : BitVec 5) (dir : BitVec 1) : Octets :=
  let c := wordOctets count
  let iv4 : Octet := bearer ++ 0#3
  let d : Octet := dir ++ 0#7
  c ++ [iv4, 0, 0, 0] ++ [octetAt c 0 ^^^ d, octetAt c 1, octetAt c 2, octetAt c 3, iv4, 0, d, 0]

/-- Keystream words read as one bit string, as a number whose top bit is `z[0]` (R270). -/
def wordsNat (ws : List Word) : Nat := be (ws.flatMap wordOctets)

/-- `Z(i)`: the 32 bits of the keystream of `total` bits from bit index `i` (R270). -/
def window (z total i : Nat) : Word := BitVec.ofNat 32 (z >>> (total - 32 - i))

/-- `T` over message bits: `n` bits remain, the next is message bit `i`, the last bit of the number `m`
is message bit `i + n - 1` (R270). -/
def accumulate (z total m : Nat) : Nat → Nat → Word → Word
  | 0, _, t => t
  | n + 1, i, t => accumulate z total m n (i + 1) (if m.testBit n then t ^^^ window z total i else t)

/-- The 32-bit tag value (R270). -/
def macWord (key iv message : Octets) : Word :=
  let length := 8 * message.length
  let words := (length + 31) / 32 + 2
  let z := wordsNat (keystreamWords words (start key iv))
  let total := 32 * words
  accumulate z total (be message) length 0 0 ^^^ window z total length ^^^ window z total (32 * (words - 1))

/-- `MAC(3, …)`: 128-EIA3 (R269, R270). -/
def mac (k : Key128) (count : Word) (bearer : BitVec 5) (dir : BitVec 1) (message : Octets) : Tag :=
  wordTag (macWord (blockOctets k) (macIv count bearer dir) message)

end Sys2Proof.Machine.Zuc
end

