-- ==== Sys2Proof/Machine/Security.lean ====
section
/-! DEFINITION. The Security Engine (42_security_engine): key selection, decipher, verify_integrity, security_rx, and
the binding of `KS` and `MAC` to the annex. -/

namespace Sys2Proof.Machine

/-- The ciphering key (R151). -/
def State.cipherKey (s : State) : Key128 := if controlPlane s.cfg then s.kCpEnc else s.kUpEnc

/-- The integrity key (R151). -/
def State.integrityKey (s : State) : Key128 := if controlPlane s.cfg then s.kCpInt else s.kUpInt

/-- `decipher(region, COUNT)` (R152); the null algorithm is the identity (R157). -/
def decipher (c : Crypto) (s : State) (region : Octets) (count : Word) : Octets :=
  match algOf (cfgCiphAlg s.cfg) with
  | none => region
  | some a =>
    xorOctets region (c.ks a s.cipherKey count (cfgBearer s.cfg) (cfgDirection s.cfg) region.length)

/-- The difference of two tags: all four octet comparisons in a fixed structure (R153, R158). -/
def tagDiff (x y : Tag) : Octet := (x.o0 ^^^ y.o0) ||| (x.o1 ^^^ y.o1) ||| (x.o2 ^^^ y.o2) ||| (x.o3 ^^^ y.o3)

/-- `verify_integrity(message, COUNT, received_tag)` (R153); the null algorithm always reports valid (R157). -/
def verifyIntegrity (c : Crypto) (s : State) (message : Octets) (count : Word) (tag : Tag) : Bool :=
  match algOf (cfgIntAlg s.cfg) with
  | none => true
  | some a =>
    tagDiff (c.mac a s.integrityKey count (cfgBearer s.cfg) (cfgDirection s.cfg) message) tag = 0#8

/-- The octets after the header, deciphered when ciphering is enabled (R150, R155 (a)). -/
def plainBody (c : Crypto) (w : SnWidth) (s : State) (pdu : Octets) (count : Word) : Octets :=
  if cfgCiphEn s.cfg = 1#1 then decipher c s (stripHeader w pdu) count else stripHeader w pdu

/-- The payload `security_rx` returns (R150): the body, less its tag when one is present. -/
def rxPayload (c : Crypto) (w : SnWidth) (s : State) (pdu : Octets) (count : Word) : Octets :=
  if tagPresent s.cfg then stripTag (plainBody c w s pdu count) else plainBody c w s pdu count

/-- The verdict `ok` of `security_rx` (R150): the message is header and deciphered payload (R155 (b)), the tag
the last four octets of the deciphered body (R155 (c)). -/
def rxAuthentic (c : Crypto) (w : SnWidth) (s : State) (pdu : Octets) (count : Word) : Bool :=
  if tagPresent s.cfg then
    verifyIntegrity c s (headerOctets w pdu ++ rxPayload c w s pdu count) count
      (receivedTag (plainBody c w s pdu count))
  else true

/-- `security_rx(PDU, COUNT)` (R150). -/
def securityRx (c : Crypto) (w : SnWidth) (s : State) (pdu : Octets) (count : Word) : Bool × Octets :=
  (rxAuthentic c w s pdu count, rxPayload c w s pdu count)

/-- `KS` of the annex (R156: 1 = SNOW 3G, 2 = AES, 3 = ZUC). -/
def annexKs (a : Alg) (k : Key128) (count : Word) (bearer : BitVec 5) (dir : BitVec 1) (n : Nat) : Octets :=
  match a with
  | .alg1 => Snow3g.ks k count bearer dir n
  | .alg2 => Aes.ks k count bearer dir n
  | .alg3 => Zuc.ks k count bearer dir n

/-- `MAC` of the annex (R156). -/
def annexMac (a : Alg) (k : Key128) (count : Word) (bearer : BitVec 5) (dir : BitVec 1) (m : Octets) : Tag :=
  match a with
  | .alg1 => Snow3g.mac k count bearer dir m
  | .alg2 => Aes.mac k count bearer dir m
  | .alg3 => Zuc.mac k count bearer dir m

/-- PRESUMED (log 1): the machine's `KS` and `MAC` are the annex's (00_scope R8, R12). -/
def machineCrypto : Crypto := ⟨annexKs, annexMac⟩

end Sys2Proof.Machine
end

