-- ==== Sys2Proof/Machine/Reception.lean ====
section
/-! DEFINITION. The Reception State Machine (40_reception_state_machine): `RX_PDU` and the PDU formats it receives. -/

namespace Sys2Proof.Machine

/-- `check_wellformed(PDU)` (R111): the SN width, then the header's length, then the tag's; `none` is MalformedPdu. -/
def checkWellformed (cfg : Word) (pduLen : Nat) : Option SnWidth :=
  match snWidthOf (cfgSnWidth cfg) with
  | none => none
  | some w =>
    if pduLen ≤ hdrLen w then none
    else if tagPresent cfg && pduLen < hdrLen w + 4 then none
    else some w

/-- `window_rule(RCVD_SN, RX_DELIV)` (R112): the comparisons on unbounded integers, `HFN ± 1` modulo 2^HFN_BITS. -/
def windowRule (w : SnWidth) (sn deliv : Word) : Word :=
  let s : Int := sn.toNat
  let d : Int := countSn w deliv
  let h := countHfn w deliv
  if s < d - window w then BitVec.ofNat 32 ((h + 1) % 2 ^ hfnBits w)
  else if s ≥ d + window w then BitVec.ofNat 32 ((h + (2 ^ hfnBits w - 1)) % 2 ^ hfnBits w)
  else BitVec.ofNat 32 h

/-- `RCVD_COUNT` (R113, 30_encoding R91). -/
def rcvdCountOf (w : SnWidth) (sn deliv : Word) : Word := countOf w (windowRule w sn deliv) sn

/-- The data phase (30_encoding R84): the octets go to `PDU`, their number to `PDU_LEN`. -/
def State.openStore (pdu : Octets) (s : State) : State :=
  s.withWork { s.work with pdu := pdu, pduLen := BitVec.ofNat 16 pdu.length }

/-- At the end of the command the store and the working values hold free values (10_state R24, R41; log 8). -/
def State.closeStore (s : State) : State :=
  { s with
    work := ⟨Config.stalePdu s.staleIndex, Config.stalePduLen s.staleIndex, Config.staleSn s.staleIndex,
      Config.staleHfn s.staleIndex, Config.staleCount s.staleIndex⟩
    staleIndex := s.staleIndex + 1 }

/-- Steps 1 and 2: `RCVD_SN`, `RCVD_HFN`, `RCVD_COUNT` (R110, R112, R113). -/
def State.formCount (w : SnWidth) (sn : Word) (s : State) : State :=
  s.withWork { s.work with
    rcvdSn := sn
    rcvdHfn := windowRule w sn s.rxDeliv
    rcvdCount := rcvdCountOf w sn s.rxDeliv }

/-- `max` of unsigned 32-bit numbers (R116). -/
def maxCount (a b : Word) : Word := if a < b then b else a

/-- Step 5 (R116): insert the payload, `RX_NEXT <- max(RX_NEXT, RCVD_COUNT +_32 1)`. -/
def State.insertPdu (payload : Octets) (s : State) : State :=
  { s with
    buf := Buffer.insert s.buf s.work.rcvdCount payload
    rxNext := maxCount s.rxNext (s.work.rcvdCount + 1) }

/-- Step 6 (R117): the consecutive drain when `RCVD_COUNT = RX_DELIV`. -/
def State.drainIfNext (s : State) : State :=
  if s.work.rcvdCount = s.rxDeliv then s.consecutiveDrain else s

/-- Step 7a (R118): stop the timer when `RX_DELIV` has reached `RX_REORD`. -/
def State.stopIfDue (s : State) : State := if s.timerDue then s.stopTimer else s

/-- Step 7b (R118): nothing with an infinite duration; the expiry body at once with a zero one; else start the
timer when it is not running and something is outstanding. -/
def State.startIfNeeded (s : State) : State × ResultCode :=
  if s.tReord = Config.timerInfinite then (s, .ok)
  else if s.tReord = Config.timerZero then ({ s with rxReord := s.rxNext }).expiryBody
  else if !s.timerRunning && s.outstanding then (s.startTimer, .ok)
  else (s, .ok)

/-- `timer_management()` (R118). -/
def State.timerManagement (s : State) : State × ResultCode := s.stopIfDue.startIfNeeded

/-- Steps 5 to 7 (R116 to R118). -/
def State.acceptPdu (payload : Octets) (s : State) : State :=
  let r := (s.insertPdu payload).drainIfNext.timerManagement
  r.1.complete r.2

/-- Steps 4 to 7 (R115 to R118) for a PDU that passed step 3. DESIGN CHOICE (log 10): a PDU for which the buffer
is full is an InternalFault and is not stored (93 U10: not silently dropped, nothing overwritten); a running timer is left
running and no `STOP` is pushed, so FAULTED is then reached with `TIMER_RUNNING = 1`, which the spec does not foresee. -/
def State.discardOrAccept (w : SnWidth) (payload : Octets) (s : State) : State :=
  if s.work.rcvdCount < s.rxDeliv then s.raise .stale
  else if Buffer.holds s.buf s.work.rcvdCount then s.raise .duplicate
  else if Buffer.full w s.buf then s.raise .internalFault
  else s.acceptPdu payload

/-- Steps 3 to 7 (R114 to R118). -/
def State.verifyAndAccept (c : Crypto) (w : SnWidth) (s : State) : State :=
  let r := securityRx c w s s.work.pdu s.work.rcvdCount
  if r.1 then s.discardOrAccept w r.2 else s.raise .integrityFailure

/-- Steps 1 to 7 (R110) on the PDU in the store. -/
def State.handlePdu (c : Crypto) (s : State) : State :=
  match checkWellformed s.cfg s.work.pduLen.toNat with
  | none => s.raise .malformedPdu
  | some w =>
    match parseHeader (cfgSnWidth s.cfg) s.work.pdu with
    | none => s.raise .malformedPdu
    | some sn => (s.formCount w sn).verifyAndAccept c w

/-- `RX_PDU` as a state change, for any `KS` and `MAC` (R110): `LEN > MAX_PDU_LEN` first (30_encoding R84), then
the lifecycle test of step 0, then steps 1 to 7. -/
def State.receive (c : Crypto) (pdu : Octets) (s : State) : State :=
  if s.params.maxPduLen.toNat < pdu.length then s.raise .illegalCommand
  else if s.lc ≠ .active then s.raise .ignored
  else ((s.openStore pdu).handlePdu c).closeStore

/-! The three meanings, over any `KS` and `MAC` (00_scope R12) and for the machine's own (log 1). -/

/-- `RX_PDU` (40_reception R110) over `c`. -/
def execRxPduOver (c : Crypto) (pdu : Octets) (s : State) : Host.Outcome State Fault Refusal := .next (s.receive c pdu)

/-- `PDU12` (30_encoding R87) over `c`: the block handles a PDU with these header bits and octets. It reaches the block
as the operand data of `RX_PDU`, and its header is read by `CFG.SN_WIDTH`. DEDUCED (log 6). -/
def execPdu12Over (c : Crypto) (r : BitVec 4) (sn : BitVec 12) (body : Octets) (s : State) :
    Host.Outcome State Fault Refusal :=
  .next (s.receive c (header12 r sn ++ body))

/-- `PDU18` (30_encoding R88) over `c`, in the same way. DEDUCED (log 6). -/
def execPdu18Over (c : Crypto) (r : BitVec 6) (sn : BitVec 18) (body : Octets) (s : State) :
    Host.Outcome State Fault Refusal :=
  .next (s.receive c (header18 r sn ++ body))

/-- `RX_PDU` (40_reception R110). -/
def execRxPdu (pdu : Octets) (s : State) : Host.Outcome State Fault Refusal := execRxPduOver machineCrypto pdu s

/-- `PDU12` (30_encoding R87; log 6). -/
def execPdu12 (r : BitVec 4) (sn : BitVec 12) (body : Octets) (s : State) : Host.Outcome State Fault Refusal :=
  execPdu12Over machineCrypto r sn body s

/-- `PDU18` (30_encoding R88; log 6). -/
def execPdu18 (r : BitVec 6) (sn : BitVec 18) (body : Octets) (s : State) : Host.Outcome State Fault Refusal :=
  execPdu18Over machineCrypto r sn body s

end Sys2Proof.Machine
end

