-- ==== Sys2Proof/Machine/Dispatch.lean ====
section
/-! DEFINITION. One arm per instruction, each a direct call of its meaning. -/

namespace Sys2Proof.Machine

-- The meaning of an instruction that the port has accepted.
def exec (i : Instr) (s : State) : Host.Outcome State Fault Refusal :=
  match i with
  | .create => Sys2Proof.Machine.execCreate s
  | .rxPdu pdu => Sys2Proof.Machine.execRxPdu pdu s
  | .tExpire => Sys2Proof.Machine.execTExpire s
  | .release => Sys2Proof.Machine.execRelease s
  | .csrw n v => Sys2Proof.Machine.execCsrw n v s
  | .csrr n => Sys2Proof.Machine.execCsrr n s
  | .pdu12 r sn body => Sys2Proof.Machine.execPdu12 r sn body s
  | .pdu18 r sn body => Sys2Proof.Machine.execPdu18 r sn body s

end Sys2Proof.Machine
end

