-- ==== Sys2Proof/Machine/Fetch.lean ====
section
/-! DEFINITION. The command port (30_encoding R80, 20_memory R67): what a step accepts from it, and placing the
instruction of a table row where the next step accepts it. -/

namespace Sys2Proof.Machine

/-- The state in which the port's first command has been accepted and `rest` is still waiting. -/
def State.accept (rest : Octets) (s : State) : State := { s with port := rest }

/-- A reserved opcode (30_encoding R86): no state but `RESULT`, no operand data, `ILLEGAL_CMD`. -/
def State.rejectOpcode (rest : Octets) (s : State) : State := (s.accept rest).raise .illegalCommand

/-- Accept what the port gives next and run it with `run` (20_memory R67): a whole command is accepted and run; a
reserved opcode ends with `ILLEGAL_CMD` (30_encoding R86); with no whole command on the port the block holds its state
(60_exceptions R314; DESIGN CHOICE, log 4). -/
def State.runNext (run : Instr → State → Host.Outcome State Fault Refusal) (s : State) :
    Host.Outcome State Fault Refusal :=
  match decode s.port with
  | .command i rest => run i (s.accept rest)
  | .reservedOpcode _ rest => .next (s.rejectOpcode rest)
  | .incomplete => .next s

/-- `CFG` with its `SN_WIDTH` field replaced. -/
def withSnField (field : BitVec 6) (cfg : Word) : Word := cfg.extractLsb' 6 26 ++ field

/-- A command word and its operand data of zeros as the port's next octets. -/
def State.placeCommand (w : Nat) (s : State) : State := { s with port := tableCommand w }

/-- A PDU as the operand data of the port's next command, an `RX_PDU`, with what selects its format and lets it be
handled: `SN_WIDTH` and an ACTIVE entity (log 5). -/
def State.placePdu (w : SnWidth) (pdu : Octets) (s : State) : State :=
  { s with
    port := encode (.rxPdu pdu)
    cfg := withSnField (snField w) s.cfg
    lc := .active }

/-- The row's instruction placed (log 5). -/
def State.placeRow (nbits w : Nat) (s : State) : State :=
  if nbits = 16 then s.placePdu .w12 (tablePdu12 w)
  else if nbits = 24 then s.placePdu .w18 (tablePdu18 w)
  else s.placeCommand w

end Sys2Proof.Machine
end

