-- ==== Sys2Proof/Machine/Step.lean ====
section
/-! DEFINITION. One step: accept the next command from the port and run it as one atomic transition (00_scope R18,
20_memory R67). -/

namespace Sys2Proof.Machine

/-- One step of the machine: the step relation of Family.lean for the machine's own `KS` and `MAC` (log 1). -/
def step (s : State) : Host.Outcome State Fault Refusal := s.runNext exec

/-- `s` with the instruction of a table row as the next one the port gives (log 5). -/
def State.withFetchWord (s : State) (nbits w : Nat) : State := s.placeRow nbits w

end Sys2Proof.Machine
end

