-- ==== Sys2Proof/Machine/Environment.lean ====
section
/-! DEFINITION. The moves of the agents outside the block (60_exceptions R300, 70_reset R337): octets arriving at the
port, pops of the output queues, hardware reset (R320); and several entities side by side (R312). -/

namespace Sys2Proof.Machine

/-- What the environment may do between any two steps. -/
inductive EnvEvent where
  /-- The host, the lower layer or the Timer service puts octets on the serialising port (30_encoding R80). -/
  | arrive (octets : Octets)
  /-- The data sink takes the oldest element of `UL_DATA` (20_memory R68). -/
  | popData
  /-- The control sink takes the oldest element of `UL_CTRL`. -/
  | popCtrl
  /-- The Timer service takes the oldest element of `TIMER_CMD` (60_exceptions R300). -/
  | popTimer
  /-- A command's issuer takes the oldest completion (30_encoding R80; log 7). -/
  | popCompletion
  /-- Hardware reset at a command boundary (70_reset R320). -/
  | hardwareReset
  deriving DecidableEq, Repr

/-- Hardware reset (70_reset R320): the values of `State.reset`. It pushes nothing. What waits on the port
and the open parameters are not the block's to reset (log 13), and the trace goes on (log 25). -/
def State.hardwareReset (s : State) : State :=
  { State.reset with port := s.port, params := s.params, staleIndex := s.staleIndex, trace := s.trace }

/-- One move of the environment. -/
def State.environment (e : EnvEvent) (s : State) : State :=
  match e with
  | .arrive octets => { s with port := s.port ++ octets }
  | .popData => { s with ulData := s.ulData.tail }
  | .popCtrl => { s with ulCtrl := s.ulCtrl.tail }
  | .popTimer => { s with timerCmd := s.timerCmd.tail }
  | .popCompletion => { s with completions := s.completions.tail }
  | .hardwareReset => s.hardwareReset

/-- Several entities, one per radio bearer, which share nothing (60_exceptions R312). -/
abbrev System := List State

/-- Entity `k` of a system makes a step; the others keep their states (60_exceptions R312). -/
def stepEntity (k : Nat) (sys : System) : Host.Outcome System Fault Refusal :=
  match sys[k]? with
  | none => .next sys
  | some s =>
    match step s with
    | .next t => .next (sys.set k t)
    | .fault r => .fault r
    | .refused r => .refused r

end Sys2Proof.Machine
end

