-- ==== Sys2Proof/Machine/Family.lean ====
section
/-! DEFINITION. The step relation with `KS` and `MAC` as its parameters (00_scope R12, 42_security_engine R159). `exec` and
`step`, whose types the host fixes, are its instance at `machineCrypto` (log 1). -/

namespace Sys2Proof.Machine

/-- The meaning of an instruction over `c`. -/
def execOver (c : Crypto) (i : Instr) (s : State) : Host.Outcome State Fault Refusal :=
  match i with
  | .create => execCreate s
  | .rxPdu pdu => execRxPduOver c pdu s
  | .tExpire => execTExpire s
  | .release => execRelease s
  | .csrw n v => execCsrw n v s
  | .csrr n => execCsrr n s
  | .pdu12 r sn body => execPdu12Over c r sn body s
  | .pdu18 r sn body => execPdu18Over c r sn body s

/-- One step over `c`. -/
def stepOver (c : Crypto) (s : State) : Host.Outcome State Fault Refusal := s.runNext (execOver c)

end Sys2Proof.Machine
end

