-- ==== Sys2Proof/Machine/Script.lean ====
section
/-! DEFINITION. The script notation's two pseudo-instructions and the octets of a script (30_encoding R96). -/

namespace Sys2Proof.Machine

/-- A CFG word packed from its fields (10_state R31), the most significant field first. -/
def cfgWord (snWidth : BitVec 6) (rlcMode bearerType : BitVec 1) (bearer : BitVec 5)
    (direction intEn ciphEn : BitVec 1) (intAlg ciphAlg : BitVec 2) : Word :=
  0#12 ++ ciphAlg ++ intAlg ++ ciphEn ++ intEn ++ direction ++ bearer ++ bearerType ++ rlcMode ++ snWidth

/-- `CFGW …`: one `CSRW` to CFG. -/
def cfgw (snWidth : BitVec 6) (rlcMode bearerType : BitVec 1) (bearer : BitVec 5)
    (direction intEn ciphEn : BitVec 1) (intAlg ciphAlg : BitVec 2) : Instr :=
  .csrw 0 (cfgWord snWidth rlcMode bearerType bearer direction intEn ciphEn intAlg ciphAlg)

/-- `KEYW <name>, <key>`: four `CSRW`s, word 0 first; key register number `i` as in 45_lifecycle R205. -/
def keyw (i : BitVec 2) (key : Key128) : List Instr :=
  let base : BitVec 8 := 2#8 + 4#8 * i.setWidth 8
  [.csrw base (keyWord key 0), .csrw (base + 1) (keyWord key 1), .csrw (base + 2) (keyWord key 2),
    .csrw (base + 3) (keyWord key 3)]

/-- The octets of a script on the command port. -/
def scriptOctets (script : List Instr) : Octets := script.flatMap encode

end Sys2Proof.Machine
end

