-- ==== Sys2Proof/Safety.lean ====
section
/-! DEFINITION. What counts as a safe run, in the terms the statements use: the two invariants, the hypothesis that no
COUNT wraps, the end of a run and what is observed of it, and the requests the Timer service must be able to serve. -/

namespace Sys2Proof.Machine

/-- The `UL_DATA` element of a push, if that is its queue. -/
def Push.data? : Push → Option Octets
  | .data p => some p
  | .ctrl _ => none
  | .timer _ => none

/-- The `UL_CTRL` element of a push. -/
def Push.ctrl? : Push → Option Notification
  | .data _ => none
  | .ctrl n => some n
  | .timer _ => none

/-- The `TIMER_CMD` element of a push. -/
def Push.timer? : Push → Option TimerRequest
  | .data _ => none
  | .ctrl _ => none
  | .timer r => some r

/-- Between `s` and `t` the pushes `pushed` were made, in this order: the trace gains them, and each queue its own. -/
structure Pushes (s t : State) (pushed : List Push) : Prop where
  trace : t.trace = s.trace ++ pushed
  data : t.ulData = s.ulData ++ pushed.filterMap Push.data?
  ctrl : t.ulCtrl = s.ulCtrl ++ pushed.filterMap Push.ctrl?
  timer : t.timerCmd = s.timerCmd ++ pushed.filterMap Push.timer?

/-- Each queue holds the latest of its pushes in the global trace, in the trace's order (20_memory R71: per-queue FIFO). -/
structure State.Traced (s : State) : Prop where
  data : s.ulData <:+ s.trace.filterMap Push.data?
  ctrl : s.ulCtrl <:+ s.trace.filterMap Push.ctrl?
  timer : s.timerCmd <:+ s.trace.filterMap Push.timer?

/-- The SN width the entity runs with, if it is a supported one. -/
def State.width (s : State) : Option SnWidth := snWidthOf (cfgSnWidth s.cfg)

/-- What holds in every state that any run reaches. -/
structure State.Sound (s : State) : Prop where
  /-- `BUF` is in its canonical form (44 R197). -/
  canonical : Buffer.wf s.buf
  /-- `CFG[31:20]` reads 0 (10_state R31). -/
  cfgReserved : s.cfg.extractLsb' 20 12 = 0
  /-- `BUF` never exceeds `BUF_CAP` (10_state R40). -/
  capacity : ∀ w, s.width = some w → s.buf.length ≤ window w
  /-- While no entity exists everything of one is at its initial value (45 R203; 92 D14). -/
  idleQuiet : s.lc = .idle →
    s.rxNext = 0 ∧ s.rxDeliv = 0 ∧ s.rxReord = 0 ∧ s.buf = [] ∧ s.timerRunning = false ∧ s.cfgWarn = false
  /-- The timer runs only with a finite non-zero duration (60 R288). -/
  timerFinite : s.timerRunning = true → s.tReord ≠ Config.timerZero ∧ s.tReord ≠ Config.timerInfinite
  /-- The queues are what is left of the global trace (20_memory R71). -/
  traced : s.Traced

/-- The source's invariants (10_state R23) and the window bound of 44 R196, which hold as long as no COUNT
addition wraps. -/
structure State.Ordered (s : State) : Prop where
  /-- R23 (a). -/
  delivNext : s.rxDeliv ≤ s.rxNext
  /-- R23 (c) and (d). -/
  keys : ∀ e ∈ s.buf, s.rxDeliv ≤ e.1 ∧ e.1 < s.rxNext
  /-- R23 (e). -/
  timer : s.timerRunning = true → s.rxDeliv < s.rxReord ∧ s.rxReord ≤ s.rxNext
  /-- Everything outstanding lies within one window of `RX_DELIV` (44 R196). -/
  near : ∀ w, s.width = some w → s.rxNext.toNat ≤ s.rxDeliv.toNat + window w
  /-- With a finite duration and no timer running nothing is outstanding (70_reset R336). -/
  settled : s.lc = .active → s.tReord ≠ Config.timerInfinite → s.timerRunning = false → s.rxDeliv = s.rxNext

/-- The hypothesis of 93 U3 for one PDU: its SN does not run under HFN 0, and its COUNT is not `2^32 - 1`. -/
def State.NoWrap (s : State) (pdu : Octets) : Prop :=
  ∀ w sn, s.width = some w → parseHeader (cfgSnWidth s.cfg) pdu = some sn →
    (countHfn w s.rxDeliv = 0 → sn.toNat < countSn w s.rxDeliv + window w) ∧
      rcvdCountOf w sn s.rxDeliv ≠ 0xFFFFFFFF#32

/-- The hypothesis of 93 U3 for the command the port gives next. -/
def State.NextFits (s : State) : Prop :=
  ∀ pdu rest, decode s.port = .command (.rxPdu pdu) rest → s.NoWrap pdu

/-- The end of a run (70_reset R336): no expiry is owed. -/
def State.Complete (s : State) : Prop := s.timerRunning = false ∨ s.lc ≠ .active

/-- What is observed of a complete trace (70_reset R336). -/
structure Observation where
  ulData : List Octets
  ulCtrl : List Notification
  timerCmd : List TimerRequest
  results : List ResultCode
  status : Word
  rxNext : Word
  rxDeliv : Word
  rxReord : Word
  bufCount : Word
  deriving DecidableEq, Repr

/-- The observation of a state in which nothing was popped (70_reset R336). -/
def State.observe (s : State) : Observation where
  ulData := s.ulData
  ulCtrl := s.ulCtrl
  timerCmd := s.timerCmd
  results := s.completions.map Completion.result
  status := s.statusWord
  rxNext := s.rxNext
  rxDeliv := s.rxDeliv
  rxReord := s.rxReord
  bufCount := BitVec.ofNat 32 s.buf.length

/-- The Timer service's timer after a sequence of requests, `running` before it; `none` if it is asked to start a
running timer or to stop a stopped one (60_exceptions R303 (iv)). -/
def serveTimer (running : Bool) : List TimerRequest → Option Bool
  | [] => some running
  | .start _ :: rs => if running then none else serveTimer true rs
  | .stop :: rs => if running then serveTimer false rs else none

/-! ### The rules as relations, in which the statements are written -/

/-- `s` after a command that ends with code `r` and data `d` and changes nothing else (00_scope R17). -/
def State.answered (r : ResultCode) (d : Option Word) (s : State) : State :=
  { s with result := r, completions := s.completions ++ [⟨r, d⟩] }

/-- `s` with other contents of the store that lives inside one `RX_PDU` (10_state R24, R41): unspecified after it. -/
def State.scratched (k : Work) (n : Nat) (s : State) : State := { s with work := k, staleIndex := n }

/-- The loop of `consecutive_drain()` (44 R193): `DrainLoop s t` when it leads from `s` to `t`. -/
inductive DrainLoop : State → State → Prop where
  /-- `RX_DELIV ∉ BUF`: the loop ends. -/
  | stop (s : State) (gap : ∀ e ∈ s.buf, e.1 ≠ s.rxDeliv) : DrainLoop s s
  /-- `RX_DELIV ∈ BUF`: one round. -/
  | turn (s t : State) (p : Octets) (found : Buffer.find s.buf s.rxDeliv = some p)
      (more : DrainLoop { s with
        ulData := s.ulData ++ [p]
        trace := s.trace ++ [.data p]
        buf := s.buf.filter fun e => e.1 ≠ s.rxDeliv
        rxDeliv := s.rxDeliv + 1 } t) : DrainLoop s t

/-- Steps a and b of the expiry body (41 R141). -/
def State.expirySwept (s : State) : State :=
  { s with
    ulData := s.ulData ++ (s.buf.filter fun e => e.1 < s.rxReord).map Prod.snd
    trace := s.trace ++ (s.buf.filter fun e => e.1 < s.rxReord).map fun e => .data e.2
    buf := s.buf.filter fun e => ¬ e.1 < s.rxReord
    rxDeliv := s.rxReord }

/-- The expiry body (41 R141): `ExpiryRun s t r` when it leads from `s` to `t` and returns `r`. -/
inductive ExpiryRun (s : State) : State → ResultCode → Prop where
  | settled (d : State) (drained : DrainLoop s.expirySwept d) (done : ¬ d.rxDeliv < d.rxNext) : ExpiryRun s d .ok
  | restarted (d : State) (drained : DrainLoop s.expirySwept d) (more : d.rxDeliv < d.rxNext)
      (nonzero : d.tReord ≠ Config.timerZero) :
      ExpiryRun s { d with
        rxReord := d.rxNext
        timerCmd := d.timerCmd ++ [.start d.tReord]
        trace := d.trace ++ [.timer (.start d.tReord)]
        timerRunning := true } .ok
  | faulted (d : State) (drained : DrainLoop s.expirySwept d) (more : d.rxDeliv < d.rxNext)
      (zero : d.tReord = Config.timerZero) : ExpiryRun s { d with lc := .faulted } .internalFault

/-- Step 7a of timer management (40 R118). -/
def State.stopped7a (s : State) : State :=
  if s.timerRunning = true ∧ s.rxReord ≤ s.rxDeliv then
    { s with timerCmd := s.timerCmd ++ [.stop], trace := s.trace ++ [.timer .stop], timerRunning := false }
  else s

/-- Timer management (40 R118): `TimerRun s t r` when it leads from `s` to `t` and returns `r`. -/
inductive TimerRun (s : State) : State → ResultCode → Prop where
  | infinite (inf : s.tReord = Config.timerInfinite) : TimerRun s s.stopped7a .ok
  | zero (t : State) (r : ResultCode) (zero : s.tReord = Config.timerZero)
      (body : ExpiryRun { s.stopped7a with rxReord := s.rxNext } t r) : TimerRun s t r
  | start (finite : s.tReord ≠ Config.timerInfinite) (nonzero : s.tReord ≠ Config.timerZero)
      (idle : s.stopped7a.timerRunning = false) (more : s.rxDeliv < s.rxNext) :
      TimerRun s { s.stopped7a with
        rxReord := s.rxNext
        timerCmd := s.stopped7a.timerCmd ++ [.start s.tReord]
        trace := s.stopped7a.trace ++ [.timer (.start s.tReord)]
        timerRunning := true } .ok
  | keep (finite : s.tReord ≠ Config.timerInfinite) (nonzero : s.tReord ≠ Config.timerZero)
      (no : ¬ (s.stopped7a.timerRunning = false ∧ s.rxDeliv < s.rxNext)) : TimerRun s s.stopped7a .ok

/-- Steps 5 and 6 of `RX_PDU` (40 R116, R117): insert under `count`, raise `RX_NEXT`, drain if `count` is next. -/
def InsertRun (s : State) (count : Word) (payload : Octets) (d : State) : Prop :=
  let a : State := { s with
    buf := Buffer.insert s.buf count payload
    rxNext := if s.rxNext < count + 1 then count + 1 else s.rxNext }
  (count = s.rxDeliv → DrainLoop a d) ∧ (count ≠ s.rxDeliv → d = a)

/-- Key register number `i` (45_lifecycle R205): 0 = K_CP_INT, 1 = K_CP_ENC, 2 = K_UP_INT, 3 = K_UP_ENC. -/
def State.keyReg (s : State) (i : Nat) : Key128 :=
  match i with
  | 0 => s.kCpInt
  | 1 => s.kCpEnc
  | 2 => s.kUpInt
  | _ => s.kUpEnc

/-- `s` with other contents of the four key registers. -/
def State.withKeys (s : State) (cpInt cpEnc upInt upEnc : Key128) : State :=
  { s with kCpInt := cpInt, kCpEnc := cpEnc, kUpInt := upInt, kUpEnc := upEnc }

/-- The three conditions of 43_header_codec R181, `TAGP` written out (42 R154). -/
def State.Malformed (s : State) (pdu : Octets) : Prop :=
  let tag : Prop := cfgBearerType s.cfg = 0#1 ∨ cfgIntEn s.cfg = 1#1
  (cfgSnWidth s.cfg ≠ 12#6 ∧ cfgSnWidth s.cfg ≠ 18#6) ∨
  (cfgSnWidth s.cfg = 12#6 ∧ (pdu.length ≤ 2 ∨ (tag ∧ pdu.length < 6))) ∨
  (cfgSnWidth s.cfg = 18#6 ∧ (pdu.length ≤ 3 ∨ (tag ∧ pdu.length < 7)))

/-- The conditions under which `RX_PDU` reaches step 2 (40 R110 steps 0 and 1), `w` and `sn` what step 1 finds. -/
structure State.Parses (s : State) (pdu : Octets) (w : SnWidth) (sn : Word) : Prop where
  fits : pdu.length ≤ s.params.maxPduLen.toNat
  active : s.lc = .active
  width : s.width = some w
  wellformed : ¬ s.Malformed pdu
  number : parseHeader (cfgSnWidth s.cfg) pdu = some sn

/-- The conditions under which a parsed PDU passes steps 3 and 4 and finds room (40 R114, R115, 44 R196). -/
structure State.Admits (c : Crypto) (s : State) (pdu : Octets) (w : SnWidth) (count : Word) : Prop where
  authentic : rxAuthentic c w s pdu count = true
  fresh : s.rxDeliv ≤ count
  unbuffered : ∀ e ∈ s.buf, e.1 ≠ count
  room : s.buf.length < window w

/-- Between `s` and `t` the payloads of `out`, in strictly ascending COUNT order from `RX_DELIV` on and below the new
`RX_DELIV`, went to `UL_DATA`; `out` and the new buffer hold what the old buffer and `fresh` held (40 R121 (P1)). -/
structure DeliversInOrder (s t : State) (fresh : Buffer) (out : Buffer) : Prop where
  pushed : t.ulData = s.ulData ++ out.map Prod.snd
  ascending : out.Pairwise fun x y => x.1 < y.1
  inRange : ∀ e ∈ out, s.rxDeliv ≤ e.1 ∧ e.1 < t.rxDeliv
  waiting : ∀ e ∈ t.buf, t.rxDeliv ≤ e.1
  forward : s.rxDeliv ≤ t.rxDeliv
  conserved : ∀ e, (e ∈ out ∨ e ∈ t.buf) ↔ (e ∈ s.buf ∨ e ∈ fresh)

/-- A list of commands, one after the other. -/
def execAll : List Instr → State → Host.Outcome State Fault Refusal
  | [], s => .next s
  | i :: is, s =>
    match exec i s with
    | .next t => execAll is t
    | .fault r => .fault r
    | .refused r => .refused r

end Sys2Proof.Machine
end

