-- ==== Sys2Proof/Certificates/Slice0/Obligations.lean ====
section
/-! DEFINITION. The statements for the provers, from the numbered rules of spec/. "log n" is notes/assumptions/n.md. -/

open Sys2Proof Sys2Proof.Machine

/-! ### Encodings (30_encoding, 43_header_codec) -/

/-- R81, R82, R84: what the decoder reads from a command's fields, each field a format does not use ignored. -/
def Obligations.CommandFieldsSelectTheCommand : Prop :=
  ∀ (opc csrn : Octet) (len : Nat) (rest : Octets),
    (opc = 0x01#8 → decodeFields opc csrn len rest = .command .create rest) ∧
    (opc = 0x02#8 → len ≤ rest.length →
      decodeFields opc csrn len rest = .command (.rxPdu (rest.take len)) (rest.drop len)) ∧
    (opc = 0x03#8 → decodeFields opc csrn len rest = .command .tExpire rest) ∧
    (opc = 0x04#8 → decodeFields opc csrn len rest = .command .release rest) ∧
    (opc = 0x10#8 → ∀ v : Word, decodeFields opc csrn len (wordOctets v ++ rest) = .command (.csrw csrn v) rest) ∧
    (opc = 0x11#8 → decodeFields opc csrn len rest = .command (.csrr csrn) rest)

/-- Decode and encode agree: the command decoder reads back every command the encoder writes and leaves what stands
behind it (the layout of a word on the port is the model's, log 3), the PDU decoder reads back every PDU, and the
octets of a PDU it reads are exactly those of the instruction it gives. -/
def Obligations.DecodeAndEncodeAgree : Prop :=
  (∀ (i : Instr) (rest : Octets), i.wf = true → i.isCommand = true → decode (encode i ++ rest) = .command i rest) ∧
  (∀ (r : BitVec 4) (sn : BitVec 12) (body : Octets), (Instr.pdu12 r sn body).wf = true →
    decodePdu 12#6 (encode (.pdu12 r sn body)) = .pdu (.pdu12 r sn body)) ∧
  (∀ (r : BitVec 6) (sn : BitVec 18) (body : Octets), (Instr.pdu18 r sn body).wf = true →
    decodePdu 18#6 (encode (.pdu18 r sn body)) = .pdu (.pdu18 r sn body)) ∧
  (∀ (field : BitVec 6) (pdu : Octets) (i : Instr), decodePdu field pdu = .pdu i → encode i = pdu)

/-- Words written out from the spec (30_encoding R96, 95_test_vectors V1, V2) decode as it says. A sanity statement; the
order of a word's octets on the port is the model's (log 3). -/
def Obligations.WrittenOutWordsDecode : Prop :=
  decode [0x01#8, 0x00#8, 0x00#8, 0x00#8] = .command .create [] ∧
  decode [0x02#8, 0x00#8, 0x00#8, 0x03#8, 0x80#8, 0x00#8, 0xAA#8] = .command (.rxPdu [0x80#8, 0x00#8, 0xAA#8]) [] ∧
  decode [0x03#8, 0x00#8, 0x00#8, 0x00#8] = .command .tExpire [] ∧
  decode [0x04#8, 0x00#8, 0x00#8, 0x00#8] = .command .release [] ∧
  decode [0x10#8, 0x04#8, 0x00#8, 0x00#8, 0x95#8, 0x2C#8, 0x49#8, 0x10#8] = .command (.csrw 4#8 0x952C4910#32) [] ∧
  decode [0x11#8, 0x13#8, 0x00#8, 0x00#8] = .command (.csrr 19#8) [] ∧
  decodePdu 12#6 [0x8F#8, 0xA0#8, 0x55#8] = .pdu (.pdu12 0x8#4 4000#12 [0x55#8]) ∧
  decodePdu 18#6 [0x82#8, 0x01#8, 0x02#8, 0x55#8] = .pdu (.pdu18 0x20#6 131330#18 [0x55#8])

/-- R180: `parse_header` in its equivalent form, the low W bits of the big-endian number of the header octets. -/
def Obligations.ParseHeaderReadsLowBits : Prop :=
  ∀ (field : BitVec 6) (pdu : Octets),
    parseHeader field pdu =
      if field = 12#6 then
        if pdu.length ≤ 2 then none else some (BitVec.ofNat 32 (be (sub pdu 0 2) % 2 ^ 12))
      else if field = 18#6 then
        if pdu.length ≤ 3 then none else some (BitVec.ofNat 32 (be (sub pdu 0 3) % 2 ^ 18))
      else none

/-- R89: on a bearer whose PDUs carry no tag, an entity handles a PDU the same whatever the bits `r` of its header hold. -/
def Obligations.HeaderBitsAboveSnAreIgnored : Prop :=
  ∀ s : State, cfgBearerType s.cfg = 1#1 → cfgIntEn s.cfg = 0#1 →
    (cfgSnWidth s.cfg = 12#6 → ∀ (r r' : BitVec 4) (sn : BitVec 12) (body : Octets),
      exec (.pdu12 r sn body) s = exec (.pdu12 r' sn body) s) ∧
    (cfgSnWidth s.cfg = 18#6 → ∀ (r r' : BitVec 6) (sn : BitVec 18) (body : Octets),
      exec (.pdu18 r sn body) s = exec (.pdu18 r' sn body) s)

/-! ### The port and the step (00_scope R17, R18, 20_memory R67) -/

/-- A step runs the command the port's octets begin with, in the state that has the octets behind it still waiting. A
PDU is run as the operand data of `RX_PDU` (log 6); with no whole command the step holds the state (log 4). -/
def Obligations.StepRunsTheDecodedCommand : Prop :=
  (∀ (s : State) (i : Instr) (rest : Octets), decode s.port = .command i rest →
    step s = exec i { s with port := rest }) ∧
  (∀ (s : State) (i : Instr) (rest : Octets), i.wf = true → i.isCommand = true → s.port = encode i ++ rest →
    step s = exec i { s with port := rest }) ∧
  (∀ (s : State) (i : Instr) (rest : Octets), i.wf = true → i.isCommand = false →
    s.port = encode (.rxPdu (encode i)) ++ rest → step s = exec i { s with port := rest }) ∧
  (∀ s : State, decode s.port = .incomplete → step s = .next s)

/-- R86: any other opcode takes no operand data, and the step that accepts it changes no state but `RESULT`. -/
def Obligations.ReservedOpcodeIsIllegal : Prop :=
  (∀ (opc csrn : Octet) (len : Nat) (rest : Octets),
    opc ≠ 0x01#8 → opc ≠ 0x02#8 → opc ≠ 0x03#8 → opc ≠ 0x04#8 → opc ≠ 0x10#8 → opc ≠ 0x11#8 →
    decodeFields opc csrn len rest = .reservedOpcode opc rest) ∧
  (∀ (s : State) (opc : Octet) (rest : Octets), decode s.port = .reservedOpcode opc rest →
    step s = .next (({ s with port := rest } : State).answered .illegalCmd none))

/-- Every instruction ends with exactly one completion, whose code is the new `RESULT`; `CSRR` alone returns a data word
(R17, R44, R80, R329). -/
def Obligations.EveryInstructionCompletesOnce : Prop :=
  ∀ (i : Instr) (s : State), ∃ (t : State) (d : Option Word),
    exec i s = .next t ∧ t.completions = s.completions ++ [⟨t.result, d⟩] ∧
      (d.isSome = true ↔ ∃ n, i = .csrr n)

/-- Several entities share nothing (60_exceptions R312): one entity's step changes no other entity. -/
def Obligations.EntitiesAreIsolated : Prop :=
  ∀ (k : Nat) (sys sys' : System), stepEntity k sys = .next sys' →
    sys'.length = sys.length ∧ ∀ j, j ≠ k → sys'[j]? = sys[j]?

/-! ### Lifecycle and register commands (45_lifecycle) -/

/-- R201: `CREATE`, its gate and its whole effect; everything not named keeps its value. -/
def Obligations.CreateStartsAnEntity : Prop :=
  ∀ s : State,
    (s.lc ≠ .idle → exec .create s = .next (s.answered .ignored none)) ∧
    (s.lc = .idle → ∀ warn : Bool,
      (warn = true ↔ s.tReord = 0xFFFFFFFF#32 ∧ s.cfg.extractLsb' 6 1 = s.params.rlcInorderMode) →
      exec .create s = .next (State.answered (if warn then .okCfgWarn else .ok) none { s with
        rxNext := 0
        rxDeliv := 0
        rxReord := 0
        buf := []
        timerRunning := false
        cfgWarn := warn
        lc := .active }))

/-- R203: `RELEASE`, its gate and its whole effect: `STOP` for a running timer, nothing delivered, the queues, `CFG`,
`T_REORD` and the keys left as they are. -/
def Obligations.ReleaseEndsTheEntity : Prop :=
  ∀ s : State,
    (s.lc = .idle → exec .release s = .next (s.answered .ignored none)) ∧
    (s.lc ≠ .idle → exec .release s = .next (State.answered .ok none { s with
      timerCmd := if s.timerRunning then s.timerCmd ++ [.stop] else s.timerCmd
      trace := if s.timerRunning then s.trace ++ [.timer .stop] else s.trace
      timerRunning := false
      buf := []
      rxNext := 0
      rxDeliv := 0
      rxReord := 0
      cfgWarn := false
      lc := .idle }))

/-- R204: a `T_EXPIRE` that arrives after `RELEASE` changes nothing but `RESULT`, whatever came of the timer. -/
def Obligations.ExpiryAfterReleaseIsDiscarded : Prop :=
  ∀ s t : State, exec .release s = .next t → exec .tExpire t = .next (t.answered .ignored none)

/-- R205: `CSRW`: its three gates, the masked write to CFG, the write to T_REORD, and the write of one key word, which
leaves the other fifteen words and everything else as they are. -/
def Obligations.CsrwWritesOneRegister : Prop :=
  ∀ (s : State) (n : BitVec 8) (v : Word),
    (24 ≤ n.toNat → exec (.csrw n v) s = .next (s.answered .illegalCmd none)) ∧
    (18 ≤ n.toNat ∧ n.toNat < 24 → exec (.csrw n v) s = .next (s.answered .ignored none)) ∧
    (n.toNat < 18 ∧ s.lc ≠ .idle → exec (.csrw n v) s = .next (s.answered .ignored none)) ∧
    (n.toNat = 0 ∧ s.lc = .idle →
      exec (.csrw n v) s = .next (State.answered .ok none { s with cfg := v &&& 0x000FFFFF#32 })) ∧
    (n.toNat = 1 ∧ s.lc = .idle → exec (.csrw n v) s = .next (State.answered .ok none { s with tReord := v })) ∧
    (2 ≤ n.toNat ∧ n.toNat < 18 ∧ s.lc = .idle → ∃ k0 k1 k2 k3 : Key128,
      exec (.csrw n v) s = .next (State.answered .ok none (s.withKeys k0 k1 k2 k3)) ∧
      ∀ i j : Nat, i < 4 → j < 4 →
        keyWord ((s.withKeys k0 k1 k2 k3).keyReg i) j =
          if i = (n.toNat - 2) / 4 ∧ j = (n.toNat - 2) % 4 then v else keyWord (s.keyReg i) j)

/-- R206, R30, R34: `CSRR` returns the register's value before `RESULT` is overwritten, 0 for a key word and for a
reserved number, and changes nothing but `RESULT`, in every lifecycle state. -/
def Obligations.CsrrReturnsTheRegister : Prop :=
  ∀ (s : State) (n : BitVec 8),
    (24 ≤ n.toNat → exec (.csrr n) s = .next (s.answered .illegalCmd (some 0))) ∧
    (2 ≤ n.toNat ∧ n.toNat < 18 → exec (.csrr n) s = .next (s.answered .ok (some 0))) ∧
    (n.toNat = 0 → exec (.csrr n) s = .next (s.answered .ok (some s.cfg))) ∧
    (n.toNat = 1 → exec (.csrr n) s = .next (s.answered .ok (some s.tReord))) ∧
    (n.toNat = 18 → exec (.csrr n) s = .next (s.answered .ok (some (BitVec.ofNat 32
      (s.lc.code.toNat + (if s.timerRunning then 4 else 0) + (if s.cfgWarn then 8 else 0)))))) ∧
    (n.toNat = 19 → exec (.csrr n) s = .next (s.answered .ok (some s.rxNext))) ∧
    (n.toNat = 20 → exec (.csrr n) s = .next (s.answered .ok (some s.rxDeliv))) ∧
    (n.toNat = 21 → exec (.csrr n) s = .next (s.answered .ok (some s.rxReord))) ∧
    (n.toNat = 22 → exec (.csrr n) s = .next (s.answered .ok (some (BitVec.ofNat 32 s.buf.length)))) ∧
    (n.toNat = 23 → exec (.csrr n) s = .next (s.answered .ok (some (BitVec.ofNat 32 s.result.code.toNat))))

/-- R31, R96: `CFGW` while IDLE stores every field where the spec places it. -/
def Obligations.CfgwStoresEveryField : Prop :=
  ∀ (s : State) (sn : BitVec 6) (rlc type : BitVec 1) (bearer : BitVec 5) (dir int ciph : BitVec 1)
    (ialg calg : BitVec 2), s.lc = .idle →
    ∃ t, exec (cfgw sn rlc type bearer dir int ciph ialg calg) s = .next t ∧
      t = State.answered .ok none { s with cfg := t.cfg } ∧
      cfgSnWidth t.cfg = sn ∧ cfgRlcMode t.cfg = rlc ∧ cfgBearerType t.cfg = type ∧ cfgBearer t.cfg = bearer ∧
      cfgDirection t.cfg = dir ∧ cfgIntEn t.cfg = int ∧ cfgCiphEn t.cfg = ciph ∧ cfgIntAlg t.cfg = ialg ∧
      cfgCiphAlg t.cfg = calg ∧ t.cfg.extractLsb' 20 12 = 0#12

/-- R33, R96: the four `CSRW`s of `KEYW` while IDLE put the key into the named register and touch no other. -/
def Obligations.KeywWritesTheKey : Prop :=
  ∀ (s : State) (i : BitVec 2) (key : Key128), s.lc = .idle →
    ∃ t, execAll (keyw i key) s = .next t ∧
      t = { s.withKeys t.kCpInt t.kCpEnc t.kUpInt t.kUpEnc with
        result := .ok
        completions := s.completions ++ [⟨.ok, none⟩, ⟨.ok, none⟩, ⟨.ok, none⟩, ⟨.ok, none⟩] } ∧
      ∀ j : Nat, j < 4 → t.keyReg j = if j = i.toNat then key else s.keyReg j

/-! ### `RX_PDU` and the PDU formats (40_reception): where a PDU is rejected

Each statement is about the three instructions that hand the block a PDU: `RX_PDU`, `PDU12`, `PDU18` (log 6). What the
store and the working values hold afterwards is left open (10_state R24, R41; log 8). -/

/-- R84, R289: a PDU longer than `MAX_PDU_LEN` ends `ILLEGAL_CMD` in every lifecycle state and changes nothing else. -/
def Obligations.OversizedPduIsIllegal : Prop :=
  ∀ (i : Instr) (pdu : Octets) (s : State), i.pdu? = some pdu → s.params.maxPduLen.toNat < pdu.length →
    exec i s = .next (s.answered .illegalCmd none)

/-- R200: a PDU for an entity that is not ACTIVE is ignored. -/
def Obligations.PduWithoutEntityIsIgnored : Prop :=
  ∀ (i : Instr) (pdu : Octets) (s : State), i.pdu? = some pdu → pdu.length ≤ s.params.maxPduLen.toNat →
    s.lc ≠ .active → exec i s = .next (s.answered .ignored none)

/-- R281: a malformed PDU changes nothing but `RESULT`, and nothing else ends `MALFORMED`. -/
def Obligations.MalformedPduIsDropped : Prop :=
  (∀ (i : Instr) (pdu : Octets) (s : State), i.pdu? = some pdu → pdu.length ≤ s.params.maxPduLen.toNat →
    s.lc = .active → s.Malformed pdu →
    ∃ k n, exec i s = .next ((s.scratched k n).answered .malformed none)) ∧
  (∀ (i : Instr) (s t : State), exec i s = .next t → t.result = .malformed →
    ∃ pdu, i.pdu? = some pdu ∧ pdu.length ≤ s.params.maxPduLen.toNat ∧ s.lc = .active ∧ s.Malformed pdu)

/-- R283: a PDU that fails the integrity check, stale and duplicate ones included, pushes one notification and changes
nothing else but `RESULT`. -/
def Obligations.IntegrityFailureIsNotified : Prop :=
  ∀ (i : Instr) (pdu : Octets) (s : State) (w : SnWidth) (sn : Word), i.pdu? = some pdu → s.Parses pdu w sn →
    rxAuthentic machineCrypto w s pdu (rcvdCountOf w sn s.rxDeliv) = false →
    ∃ k n, exec i s = .next (State.answered .integFail none { s.scratched k n with
      ulCtrl := s.ulCtrl ++ [.integrityFailure]
      trace := s.trace ++ [.ctrl .integrityFailure] })

/-- R115: a PDU whose COUNT lies below `RX_DELIV` is dropped silently as stale, and one whose COUNT is a key of `BUF` as
a duplicate, whatever its payload. -/
def Obligations.StaleAndDuplicatePdusAreDropped : Prop :=
  ∀ (i : Instr) (pdu : Octets) (s : State) (w : SnWidth) (sn : Word), i.pdu? = some pdu → s.Parses pdu w sn →
    rxAuthentic machineCrypto w s pdu (rcvdCountOf w sn s.rxDeliv) = true →
    (rcvdCountOf w sn s.rxDeliv < s.rxDeliv →
      ∃ k n, exec i s = .next ((s.scratched k n).answered .droppedStale none)) ∧
    (¬ rcvdCountOf w sn s.rxDeliv < s.rxDeliv → (∃ e ∈ s.buf, e.1 = rcvdCountOf w sn s.rxDeliv) →
      ∃ k n, exec i s = .next ((s.scratched k n).answered .droppedDup none))

/-- The model's choice where the spec allows a fault (93 U10, log 10): a PDU that passed step 4 and finds `BUF` full is
an InternalFault; it is not stored, no entry is lost, and a running timer is left running. -/
def Obligations.FullBufferIsAnInternalFault : Prop :=
  ∀ (i : Instr) (pdu : Octets) (s : State) (w : SnWidth) (sn : Word), i.pdu? = some pdu → s.Parses pdu w sn →
    rxAuthentic machineCrypto w s pdu (rcvdCountOf w sn s.rxDeliv) = true →
    s.rxDeliv ≤ rcvdCountOf w sn s.rxDeliv → (∀ e ∈ s.buf, e.1 ≠ rcvdCountOf w sn s.rxDeliv) →
    window w ≤ s.buf.length →
    ∃ k n, exec i s = .next (State.answered .internalFault none { s.scratched k n with lc := .faulted })

/-! ### `RX_PDU` and the PDU formats: where a PDU is accepted -/

/-- R116, R117, R118: `RX_PDU` of a PDU that passes steps 1 to 4 inserts its payload, raises `RX_NEXT`, drains when it is
the next one, manages the timer, and ends with the code of the timer management. -/
def Obligations.RxPduAcceptsAndDelivers : Prop :=
  ∀ (pdu : Octets) (s : State) (w : SnWidth) (sn : Word), s.Parses pdu w sn →
    s.Admits machineCrypto pdu w (rcvdCountOf w sn s.rxDeliv) →
    ∃ d t r k n,
      InsertRun s (rcvdCountOf w sn s.rxDeliv)
        (rxPayload machineCrypto w s pdu (rcvdCountOf w sn s.rxDeliv)) d ∧
      TimerRun d t r ∧ exec (.rxPdu pdu) s = .next ((t.scratched k n).answered r none)

/-- R87, R180: a `PDU12` under `SN_WIDTH = 12` is accepted with the SN of its header, in the same way. -/
def Obligations.Pdu12AcceptsAndDelivers : Prop :=
  ∀ (bits : BitVec 4) (sn : BitVec 12) (body : Octets) (s : State), cfgSnWidth s.cfg = 12#6 → s.lc = .active →
    2 + body.length ≤ s.params.maxPduLen.toNat → 1 ≤ body.length → (tagPresent s.cfg = true → 4 ≤ body.length) →
    s.Admits machineCrypto (header12 bits sn ++ body) .w12 (rcvdCountOf .w12 (sn.setWidth 32) s.rxDeliv) →
    ∃ d t r k n,
      InsertRun s (rcvdCountOf .w12 (sn.setWidth 32) s.rxDeliv)
        (rxPayload machineCrypto .w12 s (header12 bits sn ++ body) (rcvdCountOf .w12 (sn.setWidth 32) s.rxDeliv)) d ∧
      TimerRun d t r ∧ exec (.pdu12 bits sn body) s = .next ((t.scratched k n).answered r none)

/-- R88, R180: the same for a `PDU18` under `SN_WIDTH = 18`. -/
def Obligations.Pdu18AcceptsAndDelivers : Prop :=
  ∀ (bits : BitVec 6) (sn : BitVec 18) (body : Octets) (s : State), cfgSnWidth s.cfg = 18#6 → s.lc = .active →
    3 + body.length ≤ s.params.maxPduLen.toNat → 1 ≤ body.length → (tagPresent s.cfg = true → 4 ≤ body.length) →
    s.Admits machineCrypto (header18 bits sn ++ body) .w18 (rcvdCountOf .w18 (sn.setWidth 32) s.rxDeliv) →
    ∃ d t r k n,
      InsertRun s (rcvdCountOf .w18 (sn.setWidth 32) s.rxDeliv)
        (rxPayload machineCrypto .w18 s (header18 bits sn ++ body) (rcvdCountOf .w18 (sn.setWidth 32) s.rxDeliv)) d ∧
      TimerRun d t r ∧ exec (.pdu18 bits sn body) s = .next ((t.scratched k n).answered r none)

/-! ### The window rule and COUNT (40 R112, R113) -/

/-- R112: the three branches, on integers, with `HFN ± 1` modulo 2^HFN_BITS; `h` and `d` are HFN and SN of `RX_DELIV`. -/
def Obligations.WindowRuleOnIntegers : Prop :=
  ∀ (w : SnWidth) (sn deliv : Word) (h d : Nat), deliv.toNat = h * 2 ^ snBits w + d → d < 2 ^ snBits w →
    ((sn.toNat : Int) < d - (2 : Int) ^ (snBits w - 1) →
      (windowRule w sn deliv).toNat = (h + 1) % 2 ^ (32 - snBits w)) ∧
    (d + (2 : Int) ^ (snBits w - 1) ≤ (sn.toNat : Int) →
      ((windowRule w sn deliv).toNat + 1) % 2 ^ (32 - snBits w) = h ∧
        (windowRule w sn deliv).toNat < 2 ^ (32 - snBits w)) ∧
    (d - (2 : Int) ^ (snBits w - 1) ≤ (sn.toNat : Int) → (sn.toNat : Int) < d + (2 : Int) ^ (snBits w - 1) →
      (windowRule w sn deliv).toNat = h)

/-- R113: away from the ends of the HFN range, `RCVD_COUNT` is the one COUNT with these low W bits in the half-open
window around `RX_DELIV`. -/
def Obligations.ReceivedCountIsTheNearest : Prop :=
  ∀ (w : SnWidth) (sn deliv : Word), sn.toNat < 2 ^ snBits w →
    (countHfn w deliv = 0 → sn.toNat < countSn w deliv + window w) →
    (countHfn w deliv = 2 ^ hfnBits w - 1 → countSn w deliv ≤ sn.toNat + window w) →
    ∀ c : Word, c = rcvdCountOf w sn deliv ↔
      countSn w c = sn.toNat ∧ deliv.toNat ≤ c.toNat + window w ∧ c.toNat < deliv.toNat + window w

/-- R124 (a): the source's boundary example. With W = 12 and SN(RX_DELIV) = 4000, SN 10 belongs to the next HFN. -/
def Obligations.WindowCrossingMovesToTheNextHfn : Prop :=
  ∀ (h deliv : Word), h.toNat < 2 ^ 20 - 1 → deliv.toNat = h.toNat * 4096 + 4000 →
    (rcvdCountOf .w12 10#32 deliv).toNat = (h.toNat + 1) * 4096 + 10 ∧ ¬ rcvdCountOf .w12 10#32 deliv < deliv

/-! ### The Security Engine (42_security_engine), for every `KS` and `MAC` -/

/-- R151, R152: `decipher` is octet-wise exclusive or with the keystream under the bearer type's ciphering key; the null
algorithm is the identity; doing it twice gives the region back. -/
def Obligations.DecipherIsAnAdditiveStream : Prop :=
  ∀ (c : Crypto) (s : State) (region : Octets) (count : Word), c.Lawful →
    (decipher c s region count).length = region.length ∧
    decipher c s (decipher c s region count) count = region ∧
    (algOf (cfgCiphAlg s.cfg) = none → decipher c s region count = region) ∧
    (∀ a, algOf (cfgCiphAlg s.cfg) = some a → ∀ j, j < region.length →
      octetAt (decipher c s region count) j = octetAt region j ^^^
        octetAt (c.ks a (if cfgBearerType s.cfg = 0#1 then s.kCpEnc else s.kUpEnc) count (cfgBearer s.cfg)
          (cfgDirection s.cfg) region.length) j)

/-- R153: the verdict is true exactly when the algorithm is null or all four octets are equal. -/
def Obligations.IntegrityVerdictComparesAllOctets : Prop :=
  ∀ (c : Crypto) (s : State) (message : Octets) (count : Word) (tag : Tag),
    verifyIntegrity c s message count tag = true ↔
      cfgIntAlg s.cfg = 0#2 ∨ ∃ a, algOf (cfgIntAlg s.cfg) = some a ∧
        c.mac a (if cfgBearerType s.cfg = 0#1 then s.kCpInt else s.kUpInt) count (cfgBearer s.cfg)
          (cfgDirection s.cfg) message = tag

/-- R150, R154, R155: what `security_rx` returns: header and body are the PDU, the body is deciphered under `CIPH_EN`
alone, and with a tag (control-plane, or `INT_EN`) payload and tag octets are the body, the verdict on header and payload. -/
def Obligations.SecurityRxSplitsAndVerifies : Prop :=
  ∀ (c : Crypto) (w : SnWidth) (s : State) (pdu : Octets) (count : Word), c.Lawful → hdrLen w < pdu.length →
    (cfgBearerType s.cfg = 0#1 ∨ cfgIntEn s.cfg = 1#1 → hdrLen w + 4 ≤ pdu.length) →
    ∃ hdr rest body : Octets, pdu = hdr ++ rest ∧ hdr.length = hdrLen w ∧
      body = (if cfgCiphEn s.cfg = 1#1 then decipher c s rest count else rest) ∧
      (cfgBearerType s.cfg = 1#1 ∧ cfgIntEn s.cfg = 0#1 → securityRx c w s pdu count = (true, body)) ∧
      (cfgBearerType s.cfg = 0#1 ∨ cfgIntEn s.cfg = 1#1 →
        ∃ (payload : Octets) (tag : Tag), body = payload ++ [tag.o0, tag.o1, tag.o2, tag.o3] ∧
          securityRx c w s pdu count = (verifyIntegrity c s (hdr ++ payload) count tag, payload))

/-- R323: a PDU is handled the same whatever the key registers hold that the configuration does not read. -/
def Obligations.UnreadKeysDoNotMatter : Prop :=
  ∀ (c : Crypto) (s : State) (pdu : Octets) (k0 k1 k2 k3 : Key128),
    (cfgCiphEn s.cfg = 1#1 → cfgCiphAlg s.cfg ≠ 0#2 → (s.withKeys k0 k1 k2 k3).cipherKey = s.cipherKey) →
    (cfgBearerType s.cfg = 0#1 ∨ cfgIntEn s.cfg = 1#1 → cfgIntAlg s.cfg ≠ 0#2 →
      (s.withKeys k0 k1 k2 k3).integrityKey = s.integrityKey) →
    (s.withKeys k0 k1 k2 k3).receive c pdu = (s.receive c pdu).withKeys k0 k1 k2 k3

/-- R159: the annex functions the machine runs with (log 1) meet the assumptions: the length asked for, and prefixes of
one keystream. -/
def Obligations.AnnexKeystreamsAreLawful : Prop := machineCrypto.Lawful

/-! ### The Reception Buffer (44_reception_buffer) -/

/-- R191, R192: an insert of a key that is not there adds exactly that entry and keeps the canonical form. -/
def Obligations.BufferInsertAddsOneEntry : Prop :=
  ∀ (b : Buffer) (k : Word) (p : Octets), Buffer.wf b → Buffer.holds b k = false →
    Buffer.wf (Buffer.insert b k p) ∧ (Buffer.insert b k p).length = b.length + 1 ∧
    Buffer.find (Buffer.insert b k p) k = some p ∧
    ∀ x, x ≠ k → Buffer.find (Buffer.insert b k p) x = Buffer.find b x

/-- R40: the canonical form is unique: two buffers in it with the same contents are equal. -/
def Obligations.CanonicalBuffersAreEqual : Prop :=
  ∀ a b : Buffer, Buffer.wf a → Buffer.wf b → (∀ k, Buffer.find a k = Buffer.find b k) → a = b

/-- R193: `consecutive_drain()` is the loop of the rule, and ends. -/
def Obligations.ConsecutiveDrainIsTheLoop : Prop :=
  ∀ s t : State, t = s.consecutiveDrain ↔ DrainLoop s t

/-- R194: `drain_below(t)` pushes the entries below `t` in ascending order, removes them, and does nothing else. -/
def Obligations.DrainBelowDeliversAscending : Prop :=
  ∀ (s : State) (t : Word), Buffer.wf s.buf →
    ∃ low : Buffer, low.Pairwise (fun x y => x.1 < y.1) ∧ (∀ e, e ∈ low ↔ e ∈ s.buf ∧ e.1 < t) ∧
      ∃ high : Buffer, Buffer.wf high ∧ (∀ e, e ∈ high ↔ e ∈ s.buf ∧ t ≤ e.1) ∧
        s.drainBelow t = { s with
          ulData := s.ulData ++ low.map Prod.snd
          trace := s.trace ++ low.map fun e => .data e.2
          buf := high }

/-- R196: in a state that meets the invariants, a key inside the window that is not in `BUF` finds room. -/
def Obligations.BufferIsNeverFullAtAnInsert : Prop :=
  ∀ (s : State) (w : SnWidth) (k : Word), s.Sound → s.Ordered → s.width = some w → s.rxDeliv ≤ k →
    k.toNat < s.rxDeliv.toNat + window w → (∀ e ∈ s.buf, e.1 ≠ k) → s.buf.length < window w

/-! ### Timer and expiry (40 R118, 41_timer_expiry) -/

/-- R118: timer management is steps 7a and 7b of the rule. -/
def Obligations.TimerManagementFollowsTheRule : Prop :=
  ∀ s : State, TimerRun s s.timerManagement.1 s.timerManagement.2

/-- R141: the expiry body is steps a to e of the rule. -/
def Obligations.ExpiryBodyFollowsTheRule : Prop :=
  ∀ s : State, ExpiryRun s s.expiryBody.1 s.expiryBody.2

/-- R140: `T_EXPIRE`: discarded without an ACTIVE entity or a running timer; else the bit is cleared and the body runs. -/
def Obligations.TimerExpiryRunsTheBody : Prop :=
  ∀ s : State,
    (s.lc ≠ .active ∨ s.timerRunning = false → exec .tExpire s = .next (s.answered .ignored none)) ∧
    (s.lc = .active ∧ s.timerRunning = true →
      ∃ t r, ExpiryRun { s with timerRunning := false } t r ∧ exec .tExpire s = .next (t.answered r none))

/-- R23 (b), R121 (P3): an instruction whose last request is a `START` leaves `RX_REORD = RX_NEXT`, the timer running,
something outstanding, and the duration is `T_REORD`. -/
def Obligations.StartSetsReordToNext : Prop :=
  ∀ (i : Instr) (s t : State) (requests : List TimerRequest) (d : Word), exec i s = .next t →
    t.timerCmd = s.timerCmd ++ requests ++ [.start d] →
    t.rxReord = t.rxNext ∧ t.timerRunning = true ∧ t.rxDeliv < t.rxNext ∧ d = s.tReord ∧
      d ≠ 0x00000000#32

/-- R124 (h), R118: with an infinite duration a stopped timer stays stopped while the entity lives. -/
def Obligations.InfiniteDurationStartsNoTimer : Prop :=
  ∀ (i : Instr) (s t : State), s.lc = .active → s.tReord = 0xFFFFFFFF#32 → s.timerRunning = false →
    exec i s = .next t → t.timerRunning = false ∧ t.timerCmd = s.timerCmd

/-- R142, R124 (g): with a zero duration an accepted PDU ends with nothing outstanding, an empty buffer and no timer
request. -/
def Obligations.ZeroDurationSettlesAtOnce : Prop :=
  ∀ (c : Crypto) (s : State) (pdu : Octets), s.Sound → s.Ordered → s.NoWrap pdu → s.tReord = 0x00000000#32 →
    (∃ w sn, s.Parses pdu w sn ∧ s.Admits c pdu w (rcvdCountOf w sn s.rxDeliv)) →
    (s.receive c pdu).result = .ok ∧ (s.receive c pdu).rxDeliv = (s.receive c pdu).rxNext ∧
      (s.receive c pdu).buf = [] ∧ (s.receive c pdu).timerRunning = false ∧
      (s.receive c pdu).timerCmd = s.timerCmd

/-- R303 (iv): the Timer service is never asked to start a running timer or to stop a stopped one; a `T_EXPIRE` that an
ACTIVE entity accepts is the expiry of its timer. -/
def Obligations.TimerServiceIsAskedConsistently : Prop :=
  ∀ s t : State, s.Sound → step s = .next t →
    ∃ requests, t.timerCmd = s.timerCmd ++ requests ∧
      ((∃ rest, decode s.port = .command .tExpire rest) ∧ s.lc = .active →
        serveTimer false requests = some t.timerRunning) ∧
      (¬ ((∃ rest, decode s.port = .command .tExpire rest) ∧ s.lc = .active) →
        serveTimer s.timerRunning requests = some t.timerRunning)

/-! ### Whole-machine rules -/

/-- R46, R320: the values after hardware reset, from any state, which are also the initial ones; and those after the
`CREATE` of an IDLE block. -/
def Obligations.ResetAndCreationValues : Prop :=
  (∀ t : State, (t = State.reset ∨ ∃ s : State, t = s.environment .hardwareReset) →
    t.rxNext = 0 ∧ t.rxDeliv = 0 ∧ t.rxReord = 0 ∧ t.lc = .idle ∧ t.timerRunning = false ∧ t.cfgWarn = false ∧
    t.cfg = 0 ∧ t.tReord = 0 ∧ t.kCpInt = 0 ∧ t.kCpEnc = 0 ∧ t.kUpInt = 0 ∧ t.kUpEnc = 0 ∧ t.result.code = 0 ∧
    t.buf = [] ∧ t.ulData = [] ∧ t.ulCtrl = [] ∧ t.timerCmd = []) ∧
  (∀ s : State, s.lc = .idle → ∃ t, exec .create s = .next t ∧
    t.rxNext = 0 ∧ t.rxDeliv = 0 ∧ t.rxReord = 0 ∧ t.lc = .active ∧ t.timerRunning = false ∧
    (t.cfgWarn = true ↔ s.tReord = 0xFFFFFFFF#32 ∧ s.cfg.extractLsb' 6 1 = s.params.rlcInorderMode) ∧
    t.cfg = s.cfg ∧ t.tReord = s.tReord ∧ t.kCpInt = s.kCpInt ∧ t.kCpEnc = s.kCpEnc ∧ t.kUpInt = s.kUpInt ∧
    t.kUpEnc = s.kUpEnc ∧ t.result = (if t.cfgWarn then .okCfgWarn else .ok) ∧ t.buf = [] ∧
    t.ulData = s.ulData ∧ t.ulCtrl = s.ulCtrl ∧ t.timerCmd = s.timerCmd)

/-- R74, R36: only a `CSRW` while IDLE changes `CFG`, `T_REORD` or a key; nothing changes the open parameters. -/
def Obligations.ConfigurationIsFixedWhileAnEntityExists : Prop :=
  ∀ (i : Instr) (s t : State), exec i s = .next t →
    t.params = s.params ∧
    ((∃ n v, i = .csrw n v ∧ s.lc = .idle) ∨
      (t.cfg = s.cfg ∧ t.tReord = s.tReord ∧ t.kCpInt = s.kCpInt ∧ t.kCpEnc = s.kCpEnc ∧ t.kUpInt = s.kUpInt ∧
        t.kUpEnc = s.kUpEnc))

/-- R21: no command but `CREATE`, `RELEASE`, `T_EXPIRE` and the PDU-receiving ones writes a COUNT register, and `CREATE`
and `RELEASE` write zeros only. -/
def Obligations.CountRegistersAreWrittenOnlyByReception : Prop :=
  ∀ (i : Instr) (s t : State), exec i s = .next t →
    (t.rxNext = s.rxNext ∧ t.rxDeliv = s.rxDeliv ∧ t.rxReord = s.rxReord) ∨
    ((i = .create ∨ i = .release) ∧ t.rxNext = 0 ∧ t.rxDeliv = 0 ∧ t.rxReord = 0) ∨
    (s.lc = .active ∧ (i = .tExpire ∧ t.rxNext = s.rxNext ∨ ∃ pdu, i.pdu? = some pdu))

/-- R42, R332, R71: no instruction removes anything from an output queue; `UL_CTRL` gains at most one element; the global
trace gains every push, in one order, and each queue gains its own pushes in that order. -/
def Obligations.OutputQueuesOnlyGrow : Prop :=
  ∀ (i : Instr) (s t : State), exec i s = .next t →
    s.ulData <+: t.ulData ∧ s.timerCmd <+: t.timerCmd ∧
      (t.ulCtrl = s.ulCtrl ∨
        (t.result = .integFail ∧ t.ulCtrl = s.ulCtrl ++ [.integrityFailure])) ∧
      ∃ pushed : List Push, Pushes s t pushed

/-- R27: the lifecycle changes only as its transitions say. -/
def Obligations.LifecycleTransitions : Prop :=
  ∀ (i : Instr) (s t : State), exec i s = .next t →
    t.lc = s.lc ∨ (i = .create ∧ s.lc = .idle ∧ t.lc = .active) ∨
    (i = .release ∧ s.lc ≠ .idle ∧ t.lc = .idle) ∨
    (s.lc = .active ∧ t.lc = .faulted ∧ t.result = .internalFault ∧ (i = .tExpire ∨ ∃ pdu, i.pdu? = some pdu))

/-- R291, R280: an instruction that ends MALFORMED, DROPPED_STALE, DROPPED_DUP, IGNORED or ILLEGAL_CMD leaves every
register, the buffer and the queues as they were, and one that ends INTEG_FAIL adds one notification to that. -/
def Obligations.RejectionsArePrecise : Prop :=
  ∀ (i : Instr) (s t : State), exec i s = .next t →
    (t.result = .malformed ∨ t.result = .droppedStale ∨ t.result = .droppedDup ∨ t.result = .ignored ∨
        t.result = .illegalCmd →
      ∃ k n d, t = (s.scratched k n).answered t.result d) ∧
    (t.result = .integFail →
      ∃ k n, t = State.answered .integFail none { s.scratched k n with
        ulCtrl := s.ulCtrl ++ [.integrityFailure]
        trace := s.trace ++ [.ctrl .integrityFailure] })

/-! ### Invariants (10_state R23, R40; 70_reset R336) -/

/-- `Sound` and `Ordered` hold after reset. -/
def Obligations.InvariantsHoldAtReset : Prop := State.reset.Sound ∧ State.reset.Ordered

/-- Every step from every sound state leads to a sound state: the buffer canonical and within its capacity, the
reserved bits of CFG zero, nothing left of an entity while IDLE, the timer running only with a finite duration, each queue
the latest of its pushes in the global trace. -/
def Obligations.EveryStepKeepsSound : Prop :=
  ∀ s t : State, s.Sound → step s = .next t → t.Sound

/-- R23, R196, R336: as long as the next PDU wraps no COUNT (93 U3), every step keeps the source's invariants. -/
def Obligations.EveryStepKeepsOrdered : Prop :=
  ∀ s t : State, s.Sound → s.Ordered → s.NextFits → step s = .next t → t.Ordered

/-- R12, R159: `KS` and `MAC` are parameters of the step relation: `exec` and `step` are its instance at the machine's own
(log 1), and over every `KS` and `MAC` each step leads on, keeps `Sound`, and, while no COUNT wraps, keeps `Ordered`. -/
def Obligations.StepRelationTakesKsAndMac : Prop :=
  (∀ (i : Instr) (s : State), exec i s = execOver machineCrypto i s) ∧
  (∀ s : State, step s = stepOver machineCrypto s) ∧
  (∀ (c : Crypto) (s : State), s.Sound → ∃ t, stepOver c s = .next t ∧ t.Sound ∧
    (s.Ordered → s.NextFits → t.Ordered))

/-- What the environment does between two steps (arrivals, pops, reset) keeps both invariants. -/
def Obligations.EnvironmentKeepsInvariants : Prop :=
  ∀ (e : EnvEvent) (s : State), s.Sound → s.Ordered → (s.environment e).Sound ∧ (s.environment e).Ordered

/-- R142, R285: as long as no COUNT wraps, no step raises an InternalFault. -/
def Obligations.NoInternalFaultWithoutWrap : Prop :=
  ∀ s t : State, s.Sound → s.Ordered → s.NextFits → step s = .next t → s.lc = .active →
    t.lc ≠ .faulted ∧ (decode s.port ≠ .incomplete → t.result ≠ .internalFault)

/-- R336: when a step that wraps no COUNT ends a trace completely, with the entity ACTIVE and a finite duration, everything
received was delivered. -/
def Obligations.CompleteTraceHasDeliveredAll : Prop :=
  ∀ s t : State, s.Sound → s.Ordered → s.NextFits → step s = .next t → t.lc = .active →
    t.tReord ≠ 0xFFFFFFFF#32 → t.Complete → t.rxDeliv = t.rxNext ∧ t.buf = []

/-- R121 (P1), R71: over every `KS` and `MAC`, a PDU and an expiry deliver in strictly ascending COUNT order, from
`RX_DELIV` on, each entry once; nothing waiting is lost, and an accepted PDU enters once, under its COUNT. -/
def Obligations.DeliveryIsInOrderAndExactlyOnce : Prop :=
  (∀ (c : Crypto) (s : State) (pdu : Octets), s.Sound → s.Ordered → s.NoWrap pdu → s.lc = .active →
    (∃ w sn, s.Parses pdu w sn ∧ s.Admits c pdu w (rcvdCountOf w sn s.rxDeliv) ∧
      (s.receive c pdu).result = .ok ∧
      ∃ out, DeliversInOrder s (s.receive c pdu)
        [(rcvdCountOf w sn s.rxDeliv, rxPayload c w s pdu (rcvdCountOf w sn s.rxDeliv))] out) ∨
    ((s.receive c pdu).result ≠ .ok ∧ DeliversInOrder s (s.receive c pdu) [] [])) ∧
  (∀ s t : State, s.Sound → s.Ordered → exec .tExpire s = .next t → s.lc = .active →
    ∃ out, DeliversInOrder s t [] out)

/-- R121 (P2): over every `KS` and `MAC`, the same PDU submitted again after it was accepted is dropped as stale or as a
duplicate: nothing is delivered a second time, and the buffer stays as it is. -/
def Obligations.ResubmissionIsNeverDelivered : Prop :=
  ∀ (c : Crypto) (s t u : State) (pdu : Octets), s.Sound → s.Ordered → s.NoWrap pdu → t = s.receive c pdu →
    t.result = .ok → u = t.receive c pdu →
    (u.result = .droppedStale ∨ u.result = .droppedDup) ∧ u.ulData = t.ulData ∧ u.buf = t.buf ∧
      u.rxDeliv = t.rxDeliv ∧ u.rxNext = t.rxNext ∧ u.timerCmd = t.timerCmd
end

