-- ==== Sys2Proof/Laws/State.lean ====
section
/-! SUPPORT. One lemma per field per update of State: what each named operation leaves in each field. -/

namespace Sys2Proof.Machine

/-! ### `completeWith` -/

@[simp] theorem State.completeWith_rxNext (s : State) (r : ResultCode) (d : Option Word) : (s.completeWith r d).rxNext = s.rxNext := rfl

@[simp] theorem State.completeWith_rxDeliv (s : State) (r : ResultCode) (d : Option Word) : (s.completeWith r d).rxDeliv = s.rxDeliv := rfl

@[simp] theorem State.completeWith_rxReord (s : State) (r : ResultCode) (d : Option Word) : (s.completeWith r d).rxReord = s.rxReord := rfl

@[simp] theorem State.completeWith_lc (s : State) (r : ResultCode) (d : Option Word) : (s.completeWith r d).lc = s.lc := rfl

@[simp] theorem State.completeWith_timerRunning (s : State) (r : ResultCode) (d : Option Word) : (s.completeWith r d).timerRunning = s.timerRunning := rfl

@[simp] theorem State.completeWith_cfgWarn (s : State) (r : ResultCode) (d : Option Word) : (s.completeWith r d).cfgWarn = s.cfgWarn := rfl

@[simp] theorem State.completeWith_cfg (s : State) (r : ResultCode) (d : Option Word) : (s.completeWith r d).cfg = s.cfg := rfl

@[simp] theorem State.completeWith_tReord (s : State) (r : ResultCode) (d : Option Word) : (s.completeWith r d).tReord = s.tReord := rfl

@[simp] theorem State.completeWith_kCpInt (s : State) (r : ResultCode) (d : Option Word) : (s.completeWith r d).kCpInt = s.kCpInt := rfl

@[simp] theorem State.completeWith_kCpEnc (s : State) (r : ResultCode) (d : Option Word) : (s.completeWith r d).kCpEnc = s.kCpEnc := rfl

@[simp] theorem State.completeWith_kUpInt (s : State) (r : ResultCode) (d : Option Word) : (s.completeWith r d).kUpInt = s.kUpInt := rfl

@[simp] theorem State.completeWith_kUpEnc (s : State) (r : ResultCode) (d : Option Word) : (s.completeWith r d).kUpEnc = s.kUpEnc := rfl

@[simp] theorem State.completeWith_result (s : State) (r : ResultCode) (d : Option Word) : (s.completeWith r d).result = r := rfl

@[simp] theorem State.completeWith_buf (s : State) (r : ResultCode) (d : Option Word) : (s.completeWith r d).buf = s.buf := rfl

@[simp] theorem State.completeWith_work (s : State) (r : ResultCode) (d : Option Word) : (s.completeWith r d).work = s.work := rfl

@[simp] theorem State.completeWith_ulData (s : State) (r : ResultCode) (d : Option Word) : (s.completeWith r d).ulData = s.ulData := rfl

@[simp] theorem State.completeWith_ulCtrl (s : State) (r : ResultCode) (d : Option Word) : (s.completeWith r d).ulCtrl = s.ulCtrl := rfl

@[simp] theorem State.completeWith_timerCmd (s : State) (r : ResultCode) (d : Option Word) : (s.completeWith r d).timerCmd = s.timerCmd := rfl

@[simp] theorem State.completeWith_trace (s : State) (r : ResultCode) (d : Option Word) : (s.completeWith r d).trace = s.trace := rfl

@[simp] theorem State.completeWith_completions (s : State) (r : ResultCode) (d : Option Word) : (s.completeWith r d).completions = s.completions ++ [⟨r, d⟩] := rfl

@[simp] theorem State.completeWith_port (s : State) (r : ResultCode) (d : Option Word) : (s.completeWith r d).port = s.port := rfl

@[simp] theorem State.completeWith_params (s : State) (r : ResultCode) (d : Option Word) : (s.completeWith r d).params = s.params := rfl

@[simp] theorem State.completeWith_staleIndex (s : State) (r : ResultCode) (d : Option Word) : (s.completeWith r d).staleIndex = s.staleIndex := rfl

/-! ### `complete` -/

@[simp] theorem State.complete_rxNext (s : State) (r : ResultCode) : (s.complete r).rxNext = s.rxNext := rfl

@[simp] theorem State.complete_rxDeliv (s : State) (r : ResultCode) : (s.complete r).rxDeliv = s.rxDeliv := rfl

@[simp] theorem State.complete_rxReord (s : State) (r : ResultCode) : (s.complete r).rxReord = s.rxReord := rfl

@[simp] theorem State.complete_lc (s : State) (r : ResultCode) : (s.complete r).lc = s.lc := rfl

@[simp] theorem State.complete_timerRunning (s : State) (r : ResultCode) : (s.complete r).timerRunning = s.timerRunning := rfl

@[simp] theorem State.complete_cfgWarn (s : State) (r : ResultCode) : (s.complete r).cfgWarn = s.cfgWarn := rfl

@[simp] theorem State.complete_cfg (s : State) (r : ResultCode) : (s.complete r).cfg = s.cfg := rfl

@[simp] theorem State.complete_tReord (s : State) (r : ResultCode) : (s.complete r).tReord = s.tReord := rfl

@[simp] theorem State.complete_kCpInt (s : State) (r : ResultCode) : (s.complete r).kCpInt = s.kCpInt := rfl

@[simp] theorem State.complete_kCpEnc (s : State) (r : ResultCode) : (s.complete r).kCpEnc = s.kCpEnc := rfl

@[simp] theorem State.complete_kUpInt (s : State) (r : ResultCode) : (s.complete r).kUpInt = s.kUpInt := rfl

@[simp] theorem State.complete_kUpEnc (s : State) (r : ResultCode) : (s.complete r).kUpEnc = s.kUpEnc := rfl

@[simp] theorem State.complete_result (s : State) (r : ResultCode) : (s.complete r).result = r := rfl

@[simp] theorem State.complete_buf (s : State) (r : ResultCode) : (s.complete r).buf = s.buf := rfl

@[simp] theorem State.complete_work (s : State) (r : ResultCode) : (s.complete r).work = s.work := rfl

@[simp] theorem State.complete_ulData (s : State) (r : ResultCode) : (s.complete r).ulData = s.ulData := rfl

@[simp] theorem State.complete_ulCtrl (s : State) (r : ResultCode) : (s.complete r).ulCtrl = s.ulCtrl := rfl

@[simp] theorem State.complete_timerCmd (s : State) (r : ResultCode) : (s.complete r).timerCmd = s.timerCmd := rfl

@[simp] theorem State.complete_trace (s : State) (r : ResultCode) : (s.complete r).trace = s.trace := rfl

@[simp] theorem State.complete_completions (s : State) (r : ResultCode) : (s.complete r).completions = s.completions ++ [⟨r, none⟩] := rfl

@[simp] theorem State.complete_port (s : State) (r : ResultCode) : (s.complete r).port = s.port := rfl

@[simp] theorem State.complete_params (s : State) (r : ResultCode) : (s.complete r).params = s.params := rfl

@[simp] theorem State.complete_staleIndex (s : State) (r : ResultCode) : (s.complete r).staleIndex = s.staleIndex := rfl

/-! ### `errorEffect` -/

@[simp] theorem State.errorEffect_rxNext (s : State) (e : ErrorClass) : (s.errorEffect e).rxNext = s.rxNext := by cases e <;> rfl

@[simp] theorem State.errorEffect_rxDeliv (s : State) (e : ErrorClass) : (s.errorEffect e).rxDeliv = s.rxDeliv := by cases e <;> rfl

@[simp] theorem State.errorEffect_rxReord (s : State) (e : ErrorClass) : (s.errorEffect e).rxReord = s.rxReord := by cases e <;> rfl

@[simp] theorem State.errorEffect_timerRunning (s : State) (e : ErrorClass) : (s.errorEffect e).timerRunning = s.timerRunning := by cases e <;> rfl

@[simp] theorem State.errorEffect_cfgWarn (s : State) (e : ErrorClass) : (s.errorEffect e).cfgWarn = s.cfgWarn := by cases e <;> rfl

@[simp] theorem State.errorEffect_cfg (s : State) (e : ErrorClass) : (s.errorEffect e).cfg = s.cfg := by cases e <;> rfl

@[simp] theorem State.errorEffect_tReord (s : State) (e : ErrorClass) : (s.errorEffect e).tReord = s.tReord := by cases e <;> rfl

@[simp] theorem State.errorEffect_kCpInt (s : State) (e : ErrorClass) : (s.errorEffect e).kCpInt = s.kCpInt := by cases e <;> rfl

@[simp] theorem State.errorEffect_kCpEnc (s : State) (e : ErrorClass) : (s.errorEffect e).kCpEnc = s.kCpEnc := by cases e <;> rfl

@[simp] theorem State.errorEffect_kUpInt (s : State) (e : ErrorClass) : (s.errorEffect e).kUpInt = s.kUpInt := by cases e <;> rfl

@[simp] theorem State.errorEffect_kUpEnc (s : State) (e : ErrorClass) : (s.errorEffect e).kUpEnc = s.kUpEnc := by cases e <;> rfl

@[simp] theorem State.errorEffect_result (s : State) (e : ErrorClass) : (s.errorEffect e).result = s.result := by cases e <;> rfl

@[simp] theorem State.errorEffect_buf (s : State) (e : ErrorClass) : (s.errorEffect e).buf = s.buf := by cases e <;> rfl

@[simp] theorem State.errorEffect_work (s : State) (e : ErrorClass) : (s.errorEffect e).work = s.work := by cases e <;> rfl

@[simp] theorem State.errorEffect_ulData (s : State) (e : ErrorClass) : (s.errorEffect e).ulData = s.ulData := by cases e <;> rfl

@[simp] theorem State.errorEffect_timerCmd (s : State) (e : ErrorClass) : (s.errorEffect e).timerCmd = s.timerCmd := by cases e <;> rfl

@[simp] theorem State.errorEffect_completions (s : State) (e : ErrorClass) : (s.errorEffect e).completions = s.completions := by cases e <;> rfl

@[simp] theorem State.errorEffect_port (s : State) (e : ErrorClass) : (s.errorEffect e).port = s.port := by cases e <;> rfl

@[simp] theorem State.errorEffect_params (s : State) (e : ErrorClass) : (s.errorEffect e).params = s.params := by cases e <;> rfl

@[simp] theorem State.errorEffect_staleIndex (s : State) (e : ErrorClass) : (s.errorEffect e).staleIndex = s.staleIndex := by cases e <;> rfl

/-! ### `raise` -/

@[simp] theorem State.raise_rxNext (s : State) (e : ErrorClass) : (s.raise e).rxNext = s.rxNext := by cases e <;> rfl

@[simp] theorem State.raise_rxDeliv (s : State) (e : ErrorClass) : (s.raise e).rxDeliv = s.rxDeliv := by cases e <;> rfl

@[simp] theorem State.raise_rxReord (s : State) (e : ErrorClass) : (s.raise e).rxReord = s.rxReord := by cases e <;> rfl

@[simp] theorem State.raise_lc (s : State) (e : ErrorClass) : (s.raise e).lc = (s.errorEffect e).lc := by cases e <;> rfl

@[simp] theorem State.raise_timerRunning (s : State) (e : ErrorClass) : (s.raise e).timerRunning = s.timerRunning := by cases e <;> rfl

@[simp] theorem State.raise_cfgWarn (s : State) (e : ErrorClass) : (s.raise e).cfgWarn = s.cfgWarn := by cases e <;> rfl

@[simp] theorem State.raise_cfg (s : State) (e : ErrorClass) : (s.raise e).cfg = s.cfg := by cases e <;> rfl

@[simp] theorem State.raise_tReord (s : State) (e : ErrorClass) : (s.raise e).tReord = s.tReord := by cases e <;> rfl

@[simp] theorem State.raise_kCpInt (s : State) (e : ErrorClass) : (s.raise e).kCpInt = s.kCpInt := by cases e <;> rfl

@[simp] theorem State.raise_kCpEnc (s : State) (e : ErrorClass) : (s.raise e).kCpEnc = s.kCpEnc := by cases e <;> rfl

@[simp] theorem State.raise_kUpInt (s : State) (e : ErrorClass) : (s.raise e).kUpInt = s.kUpInt := by cases e <;> rfl

@[simp] theorem State.raise_kUpEnc (s : State) (e : ErrorClass) : (s.raise e).kUpEnc = s.kUpEnc := by cases e <;> rfl

@[simp] theorem State.raise_result (s : State) (e : ErrorClass) : (s.raise e).result = e.result := by cases e <;> rfl

@[simp] theorem State.raise_buf (s : State) (e : ErrorClass) : (s.raise e).buf = s.buf := by cases e <;> rfl

@[simp] theorem State.raise_work (s : State) (e : ErrorClass) : (s.raise e).work = s.work := by cases e <;> rfl

@[simp] theorem State.raise_ulData (s : State) (e : ErrorClass) : (s.raise e).ulData = s.ulData := by cases e <;> rfl

@[simp] theorem State.raise_ulCtrl (s : State) (e : ErrorClass) : (s.raise e).ulCtrl = (s.errorEffect e).ulCtrl := by cases e <;> rfl

@[simp] theorem State.raise_timerCmd (s : State) (e : ErrorClass) : (s.raise e).timerCmd = s.timerCmd := by cases e <;> rfl

@[simp] theorem State.raise_trace (s : State) (e : ErrorClass) : (s.raise e).trace = (s.errorEffect e).trace := by cases e <;> rfl

@[simp] theorem State.raise_completions (s : State) (e : ErrorClass) : (s.raise e).completions = s.completions ++ [⟨e.result, none⟩] := by cases e <;> rfl

@[simp] theorem State.raise_port (s : State) (e : ErrorClass) : (s.raise e).port = s.port := by cases e <;> rfl

@[simp] theorem State.raise_params (s : State) (e : ErrorClass) : (s.raise e).params = s.params := by cases e <;> rfl

@[simp] theorem State.raise_staleIndex (s : State) (e : ErrorClass) : (s.raise e).staleIndex = s.staleIndex := by cases e <;> rfl

/-! ### `withWork` -/

@[simp] theorem State.withWork_rxNext (s : State) (k : Work) : (s.withWork k).rxNext = s.rxNext := rfl

@[simp] theorem State.withWork_rxDeliv (s : State) (k : Work) : (s.withWork k).rxDeliv = s.rxDeliv := rfl

@[simp] theorem State.withWork_rxReord (s : State) (k : Work) : (s.withWork k).rxReord = s.rxReord := rfl

@[simp] theorem State.withWork_lc (s : State) (k : Work) : (s.withWork k).lc = s.lc := rfl

@[simp] theorem State.withWork_timerRunning (s : State) (k : Work) : (s.withWork k).timerRunning = s.timerRunning := rfl

@[simp] theorem State.withWork_cfgWarn (s : State) (k : Work) : (s.withWork k).cfgWarn = s.cfgWarn := rfl

@[simp] theorem State.withWork_cfg (s : State) (k : Work) : (s.withWork k).cfg = s.cfg := rfl

@[simp] theorem State.withWork_tReord (s : State) (k : Work) : (s.withWork k).tReord = s.tReord := rfl

@[simp] theorem State.withWork_kCpInt (s : State) (k : Work) : (s.withWork k).kCpInt = s.kCpInt := rfl

@[simp] theorem State.withWork_kCpEnc (s : State) (k : Work) : (s.withWork k).kCpEnc = s.kCpEnc := rfl

@[simp] theorem State.withWork_kUpInt (s : State) (k : Work) : (s.withWork k).kUpInt = s.kUpInt := rfl

@[simp] theorem State.withWork_kUpEnc (s : State) (k : Work) : (s.withWork k).kUpEnc = s.kUpEnc := rfl

@[simp] theorem State.withWork_result (s : State) (k : Work) : (s.withWork k).result = s.result := rfl

@[simp] theorem State.withWork_buf (s : State) (k : Work) : (s.withWork k).buf = s.buf := rfl

@[simp] theorem State.withWork_work (s : State) (k : Work) : (s.withWork k).work = k := rfl

@[simp] theorem State.withWork_ulData (s : State) (k : Work) : (s.withWork k).ulData = s.ulData := rfl

@[simp] theorem State.withWork_ulCtrl (s : State) (k : Work) : (s.withWork k).ulCtrl = s.ulCtrl := rfl

@[simp] theorem State.withWork_timerCmd (s : State) (k : Work) : (s.withWork k).timerCmd = s.timerCmd := rfl

@[simp] theorem State.withWork_trace (s : State) (k : Work) : (s.withWork k).trace = s.trace := rfl

@[simp] theorem State.withWork_completions (s : State) (k : Work) : (s.withWork k).completions = s.completions := rfl

@[simp] theorem State.withWork_port (s : State) (k : Work) : (s.withWork k).port = s.port := rfl

@[simp] theorem State.withWork_params (s : State) (k : Work) : (s.withWork k).params = s.params := rfl

@[simp] theorem State.withWork_staleIndex (s : State) (k : Work) : (s.withWork k).staleIndex = s.staleIndex := rfl

/-! ### `push` -/

@[simp] theorem State.push_rxNext (s : State) (e : Push) : (s.push e).rxNext = s.rxNext := by cases e <;> rfl

@[simp] theorem State.push_rxDeliv (s : State) (e : Push) : (s.push e).rxDeliv = s.rxDeliv := by cases e <;> rfl

@[simp] theorem State.push_rxReord (s : State) (e : Push) : (s.push e).rxReord = s.rxReord := by cases e <;> rfl

@[simp] theorem State.push_lc (s : State) (e : Push) : (s.push e).lc = s.lc := by cases e <;> rfl

@[simp] theorem State.push_timerRunning (s : State) (e : Push) : (s.push e).timerRunning = s.timerRunning := by cases e <;> rfl

@[simp] theorem State.push_cfgWarn (s : State) (e : Push) : (s.push e).cfgWarn = s.cfgWarn := by cases e <;> rfl

@[simp] theorem State.push_cfg (s : State) (e : Push) : (s.push e).cfg = s.cfg := by cases e <;> rfl

@[simp] theorem State.push_tReord (s : State) (e : Push) : (s.push e).tReord = s.tReord := by cases e <;> rfl

@[simp] theorem State.push_kCpInt (s : State) (e : Push) : (s.push e).kCpInt = s.kCpInt := by cases e <;> rfl

@[simp] theorem State.push_kCpEnc (s : State) (e : Push) : (s.push e).kCpEnc = s.kCpEnc := by cases e <;> rfl

@[simp] theorem State.push_kUpInt (s : State) (e : Push) : (s.push e).kUpInt = s.kUpInt := by cases e <;> rfl

@[simp] theorem State.push_kUpEnc (s : State) (e : Push) : (s.push e).kUpEnc = s.kUpEnc := by cases e <;> rfl

@[simp] theorem State.push_result (s : State) (e : Push) : (s.push e).result = s.result := by cases e <;> rfl

@[simp] theorem State.push_buf (s : State) (e : Push) : (s.push e).buf = s.buf := by cases e <;> rfl

@[simp] theorem State.push_work (s : State) (e : Push) : (s.push e).work = s.work := by cases e <;> rfl

@[simp] theorem State.push_trace (s : State) (e : Push) : (s.push e).trace = s.trace ++ [e] := by cases e <;> rfl

@[simp] theorem State.push_completions (s : State) (e : Push) : (s.push e).completions = s.completions := by cases e <;> rfl

@[simp] theorem State.push_port (s : State) (e : Push) : (s.push e).port = s.port := by cases e <;> rfl

@[simp] theorem State.push_params (s : State) (e : Push) : (s.push e).params = s.params := by cases e <;> rfl

@[simp] theorem State.push_staleIndex (s : State) (e : Push) : (s.push e).staleIndex = s.staleIndex := by cases e <;> rfl

/-! ### `pushData` -/

@[simp] theorem State.pushData_rxNext (s : State) (p : Octets) : (s.pushData p).rxNext = s.rxNext := rfl

@[simp] theorem State.pushData_rxDeliv (s : State) (p : Octets) : (s.pushData p).rxDeliv = s.rxDeliv := rfl

@[simp] theorem State.pushData_rxReord (s : State) (p : Octets) : (s.pushData p).rxReord = s.rxReord := rfl

@[simp] theorem State.pushData_lc (s : State) (p : Octets) : (s.pushData p).lc = s.lc := rfl

@[simp] theorem State.pushData_timerRunning (s : State) (p : Octets) : (s.pushData p).timerRunning = s.timerRunning := rfl

@[simp] theorem State.pushData_cfgWarn (s : State) (p : Octets) : (s.pushData p).cfgWarn = s.cfgWarn := rfl

@[simp] theorem State.pushData_cfg (s : State) (p : Octets) : (s.pushData p).cfg = s.cfg := rfl

@[simp] theorem State.pushData_tReord (s : State) (p : Octets) : (s.pushData p).tReord = s.tReord := rfl

@[simp] theorem State.pushData_kCpInt (s : State) (p : Octets) : (s.pushData p).kCpInt = s.kCpInt := rfl

@[simp] theorem State.pushData_kCpEnc (s : State) (p : Octets) : (s.pushData p).kCpEnc = s.kCpEnc := rfl

@[simp] theorem State.pushData_kUpInt (s : State) (p : Octets) : (s.pushData p).kUpInt = s.kUpInt := rfl

@[simp] theorem State.pushData_kUpEnc (s : State) (p : Octets) : (s.pushData p).kUpEnc = s.kUpEnc := rfl

@[simp] theorem State.pushData_result (s : State) (p : Octets) : (s.pushData p).result = s.result := rfl

@[simp] theorem State.pushData_buf (s : State) (p : Octets) : (s.pushData p).buf = s.buf := rfl

@[simp] theorem State.pushData_work (s : State) (p : Octets) : (s.pushData p).work = s.work := rfl

@[simp] theorem State.pushData_ulData (s : State) (p : Octets) : (s.pushData p).ulData = s.ulData ++ [p] := rfl

@[simp] theorem State.pushData_ulCtrl (s : State) (p : Octets) : (s.pushData p).ulCtrl = s.ulCtrl := rfl

@[simp] theorem State.pushData_timerCmd (s : State) (p : Octets) : (s.pushData p).timerCmd = s.timerCmd := rfl

@[simp] theorem State.pushData_trace (s : State) (p : Octets) : (s.pushData p).trace = s.trace ++ [.data p] := rfl

@[simp] theorem State.pushData_completions (s : State) (p : Octets) : (s.pushData p).completions = s.completions := rfl

@[simp] theorem State.pushData_port (s : State) (p : Octets) : (s.pushData p).port = s.port := rfl

@[simp] theorem State.pushData_params (s : State) (p : Octets) : (s.pushData p).params = s.params := rfl

@[simp] theorem State.pushData_staleIndex (s : State) (p : Octets) : (s.pushData p).staleIndex = s.staleIndex := rfl

/-! ### `startTimer` -/

@[simp] theorem State.startTimer_rxNext (s : State) : s.startTimer.rxNext = s.rxNext := rfl

@[simp] theorem State.startTimer_rxDeliv (s : State) : s.startTimer.rxDeliv = s.rxDeliv := rfl

@[simp] theorem State.startTimer_rxReord (s : State) : s.startTimer.rxReord = s.rxNext := rfl

@[simp] theorem State.startTimer_lc (s : State) : s.startTimer.lc = s.lc := rfl

@[simp] theorem State.startTimer_timerRunning (s : State) : s.startTimer.timerRunning = true := rfl

@[simp] theorem State.startTimer_cfgWarn (s : State) : s.startTimer.cfgWarn = s.cfgWarn := rfl

@[simp] theorem State.startTimer_cfg (s : State) : s.startTimer.cfg = s.cfg := rfl

@[simp] theorem State.startTimer_tReord (s : State) : s.startTimer.tReord = s.tReord := rfl

@[simp] theorem State.startTimer_kCpInt (s : State) : s.startTimer.kCpInt = s.kCpInt := rfl

@[simp] theorem State.startTimer_kCpEnc (s : State) : s.startTimer.kCpEnc = s.kCpEnc := rfl

@[simp] theorem State.startTimer_kUpInt (s : State) : s.startTimer.kUpInt = s.kUpInt := rfl

@[simp] theorem State.startTimer_kUpEnc (s : State) : s.startTimer.kUpEnc = s.kUpEnc := rfl

@[simp] theorem State.startTimer_result (s : State) : s.startTimer.result = s.result := rfl

@[simp] theorem State.startTimer_buf (s : State) : s.startTimer.buf = s.buf := rfl

@[simp] theorem State.startTimer_work (s : State) : s.startTimer.work = s.work := rfl

@[simp] theorem State.startTimer_ulData (s : State) : s.startTimer.ulData = s.ulData := rfl

@[simp] theorem State.startTimer_ulCtrl (s : State) : s.startTimer.ulCtrl = s.ulCtrl := rfl

@[simp] theorem State.startTimer_timerCmd (s : State) : s.startTimer.timerCmd = s.timerCmd ++ [.start s.tReord] := rfl

@[simp] theorem State.startTimer_trace (s : State) : s.startTimer.trace = s.trace ++ [.timer (.start s.tReord)] := rfl

@[simp] theorem State.startTimer_completions (s : State) : s.startTimer.completions = s.completions := rfl

@[simp] theorem State.startTimer_port (s : State) : s.startTimer.port = s.port := rfl

@[simp] theorem State.startTimer_params (s : State) : s.startTimer.params = s.params := rfl

@[simp] theorem State.startTimer_staleIndex (s : State) : s.startTimer.staleIndex = s.staleIndex := rfl

/-! ### `stopTimer` -/

@[simp] theorem State.stopTimer_rxNext (s : State) : s.stopTimer.rxNext = s.rxNext := rfl

@[simp] theorem State.stopTimer_rxDeliv (s : State) : s.stopTimer.rxDeliv = s.rxDeliv := rfl

@[simp] theorem State.stopTimer_rxReord (s : State) : s.stopTimer.rxReord = s.rxReord := rfl

@[simp] theorem State.stopTimer_lc (s : State) : s.stopTimer.lc = s.lc := rfl

@[simp] theorem State.stopTimer_timerRunning (s : State) : s.stopTimer.timerRunning = false := rfl

@[simp] theorem State.stopTimer_cfgWarn (s : State) : s.stopTimer.cfgWarn = s.cfgWarn := rfl

@[simp] theorem State.stopTimer_cfg (s : State) : s.stopTimer.cfg = s.cfg := rfl

@[simp] theorem State.stopTimer_tReord (s : State) : s.stopTimer.tReord = s.tReord := rfl

@[simp] theorem State.stopTimer_kCpInt (s : State) : s.stopTimer.kCpInt = s.kCpInt := rfl

@[simp] theorem State.stopTimer_kCpEnc (s : State) : s.stopTimer.kCpEnc = s.kCpEnc := rfl

@[simp] theorem State.stopTimer_kUpInt (s : State) : s.stopTimer.kUpInt = s.kUpInt := rfl

@[simp] theorem State.stopTimer_kUpEnc (s : State) : s.stopTimer.kUpEnc = s.kUpEnc := rfl

@[simp] theorem State.stopTimer_result (s : State) : s.stopTimer.result = s.result := rfl

@[simp] theorem State.stopTimer_buf (s : State) : s.stopTimer.buf = s.buf := rfl

@[simp] theorem State.stopTimer_work (s : State) : s.stopTimer.work = s.work := rfl

@[simp] theorem State.stopTimer_ulData (s : State) : s.stopTimer.ulData = s.ulData := rfl

@[simp] theorem State.stopTimer_ulCtrl (s : State) : s.stopTimer.ulCtrl = s.ulCtrl := rfl

@[simp] theorem State.stopTimer_timerCmd (s : State) : s.stopTimer.timerCmd = s.timerCmd ++ [.stop] := rfl

@[simp] theorem State.stopTimer_trace (s : State) : s.stopTimer.trace = s.trace ++ [.timer .stop] := rfl

@[simp] theorem State.stopTimer_completions (s : State) : s.stopTimer.completions = s.completions := rfl

@[simp] theorem State.stopTimer_port (s : State) : s.stopTimer.port = s.port := rfl

@[simp] theorem State.stopTimer_params (s : State) : s.stopTimer.params = s.params := rfl

@[simp] theorem State.stopTimer_staleIndex (s : State) : s.stopTimer.staleIndex = s.staleIndex := rfl

/-! ### `drainBelow` -/

@[simp] theorem State.drainBelow_rxNext (s : State) (t : Word) : (s.drainBelow t).rxNext = s.rxNext := rfl

@[simp] theorem State.drainBelow_rxDeliv (s : State) (t : Word) : (s.drainBelow t).rxDeliv = s.rxDeliv := rfl

@[simp] theorem State.drainBelow_rxReord (s : State) (t : Word) : (s.drainBelow t).rxReord = s.rxReord := rfl

@[simp] theorem State.drainBelow_lc (s : State) (t : Word) : (s.drainBelow t).lc = s.lc := rfl

@[simp] theorem State.drainBelow_timerRunning (s : State) (t : Word) : (s.drainBelow t).timerRunning = s.timerRunning := rfl

@[simp] theorem State.drainBelow_cfgWarn (s : State) (t : Word) : (s.drainBelow t).cfgWarn = s.cfgWarn := rfl

@[simp] theorem State.drainBelow_cfg (s : State) (t : Word) : (s.drainBelow t).cfg = s.cfg := rfl

@[simp] theorem State.drainBelow_tReord (s : State) (t : Word) : (s.drainBelow t).tReord = s.tReord := rfl

@[simp] theorem State.drainBelow_kCpInt (s : State) (t : Word) : (s.drainBelow t).kCpInt = s.kCpInt := rfl

@[simp] theorem State.drainBelow_kCpEnc (s : State) (t : Word) : (s.drainBelow t).kCpEnc = s.kCpEnc := rfl

@[simp] theorem State.drainBelow_kUpInt (s : State) (t : Word) : (s.drainBelow t).kUpInt = s.kUpInt := rfl

@[simp] theorem State.drainBelow_kUpEnc (s : State) (t : Word) : (s.drainBelow t).kUpEnc = s.kUpEnc := rfl

@[simp] theorem State.drainBelow_result (s : State) (t : Word) : (s.drainBelow t).result = s.result := rfl

@[simp] theorem State.drainBelow_buf (s : State) (t : Word) : (s.drainBelow t).buf = Buffer.above s.buf t := rfl

@[simp] theorem State.drainBelow_work (s : State) (t : Word) : (s.drainBelow t).work = s.work := rfl

@[simp] theorem State.drainBelow_ulData (s : State) (t : Word) : (s.drainBelow t).ulData = s.ulData ++ (Buffer.below s.buf t).map Prod.snd := rfl

@[simp] theorem State.drainBelow_ulCtrl (s : State) (t : Word) : (s.drainBelow t).ulCtrl = s.ulCtrl := rfl

@[simp] theorem State.drainBelow_timerCmd (s : State) (t : Word) : (s.drainBelow t).timerCmd = s.timerCmd := rfl

@[simp] theorem State.drainBelow_trace (s : State) (t : Word) : (s.drainBelow t).trace = s.trace ++ (Buffer.below s.buf t).map fun e => .data e.2 := rfl

@[simp] theorem State.drainBelow_completions (s : State) (t : Word) : (s.drainBelow t).completions = s.completions := rfl

@[simp] theorem State.drainBelow_port (s : State) (t : Word) : (s.drainBelow t).port = s.port := rfl

@[simp] theorem State.drainBelow_params (s : State) (t : Word) : (s.drainBelow t).params = s.params := rfl

@[simp] theorem State.drainBelow_staleIndex (s : State) (t : Word) : (s.drainBelow t).staleIndex = s.staleIndex := rfl

/-! ### `deliverNext` -/

@[simp] theorem State.deliverNext_rxNext (s : State) (p : Octets) : (s.deliverNext p).rxNext = s.rxNext := rfl

@[simp] theorem State.deliverNext_rxDeliv (s : State) (p : Octets) : (s.deliverNext p).rxDeliv = s.rxDeliv + 1 := rfl

@[simp] theorem State.deliverNext_rxReord (s : State) (p : Octets) : (s.deliverNext p).rxReord = s.rxReord := rfl

@[simp] theorem State.deliverNext_lc (s : State) (p : Octets) : (s.deliverNext p).lc = s.lc := rfl

@[simp] theorem State.deliverNext_timerRunning (s : State) (p : Octets) : (s.deliverNext p).timerRunning = s.timerRunning := rfl

@[simp] theorem State.deliverNext_cfgWarn (s : State) (p : Octets) : (s.deliverNext p).cfgWarn = s.cfgWarn := rfl

@[simp] theorem State.deliverNext_cfg (s : State) (p : Octets) : (s.deliverNext p).cfg = s.cfg := rfl

@[simp] theorem State.deliverNext_tReord (s : State) (p : Octets) : (s.deliverNext p).tReord = s.tReord := rfl

@[simp] theorem State.deliverNext_kCpInt (s : State) (p : Octets) : (s.deliverNext p).kCpInt = s.kCpInt := rfl

@[simp] theorem State.deliverNext_kCpEnc (s : State) (p : Octets) : (s.deliverNext p).kCpEnc = s.kCpEnc := rfl

@[simp] theorem State.deliverNext_kUpInt (s : State) (p : Octets) : (s.deliverNext p).kUpInt = s.kUpInt := rfl

@[simp] theorem State.deliverNext_kUpEnc (s : State) (p : Octets) : (s.deliverNext p).kUpEnc = s.kUpEnc := rfl

@[simp] theorem State.deliverNext_result (s : State) (p : Octets) : (s.deliverNext p).result = s.result := rfl

@[simp] theorem State.deliverNext_buf (s : State) (p : Octets) : (s.deliverNext p).buf = Buffer.remove s.buf s.rxDeliv := rfl

@[simp] theorem State.deliverNext_work (s : State) (p : Octets) : (s.deliverNext p).work = s.work := rfl

@[simp] theorem State.deliverNext_ulData (s : State) (p : Octets) : (s.deliverNext p).ulData = s.ulData ++ [p] := rfl

@[simp] theorem State.deliverNext_ulCtrl (s : State) (p : Octets) : (s.deliverNext p).ulCtrl = s.ulCtrl := rfl

@[simp] theorem State.deliverNext_timerCmd (s : State) (p : Octets) : (s.deliverNext p).timerCmd = s.timerCmd := rfl

@[simp] theorem State.deliverNext_trace (s : State) (p : Octets) : (s.deliverNext p).trace = s.trace ++ [.data p] := rfl

@[simp] theorem State.deliverNext_completions (s : State) (p : Octets) : (s.deliverNext p).completions = s.completions := rfl

@[simp] theorem State.deliverNext_port (s : State) (p : Octets) : (s.deliverNext p).port = s.port := rfl

@[simp] theorem State.deliverNext_params (s : State) (p : Octets) : (s.deliverNext p).params = s.params := rfl

@[simp] theorem State.deliverNext_staleIndex (s : State) (p : Octets) : (s.deliverNext p).staleIndex = s.staleIndex := rfl

/-! ### `clearBuffer` -/

@[simp] theorem State.clearBuffer_rxNext (s : State) : s.clearBuffer.rxNext = s.rxNext := rfl

@[simp] theorem State.clearBuffer_rxDeliv (s : State) : s.clearBuffer.rxDeliv = s.rxDeliv := rfl

@[simp] theorem State.clearBuffer_rxReord (s : State) : s.clearBuffer.rxReord = s.rxReord := rfl

@[simp] theorem State.clearBuffer_lc (s : State) : s.clearBuffer.lc = s.lc := rfl

@[simp] theorem State.clearBuffer_timerRunning (s : State) : s.clearBuffer.timerRunning = s.timerRunning := rfl

@[simp] theorem State.clearBuffer_cfgWarn (s : State) : s.clearBuffer.cfgWarn = s.cfgWarn := rfl

@[simp] theorem State.clearBuffer_cfg (s : State) : s.clearBuffer.cfg = s.cfg := rfl

@[simp] theorem State.clearBuffer_tReord (s : State) : s.clearBuffer.tReord = s.tReord := rfl

@[simp] theorem State.clearBuffer_kCpInt (s : State) : s.clearBuffer.kCpInt = s.kCpInt := rfl

@[simp] theorem State.clearBuffer_kCpEnc (s : State) : s.clearBuffer.kCpEnc = s.kCpEnc := rfl

@[simp] theorem State.clearBuffer_kUpInt (s : State) : s.clearBuffer.kUpInt = s.kUpInt := rfl

@[simp] theorem State.clearBuffer_kUpEnc (s : State) : s.clearBuffer.kUpEnc = s.kUpEnc := rfl

@[simp] theorem State.clearBuffer_result (s : State) : s.clearBuffer.result = s.result := rfl

@[simp] theorem State.clearBuffer_buf (s : State) : s.clearBuffer.buf = [] := rfl

@[simp] theorem State.clearBuffer_work (s : State) : s.clearBuffer.work = s.work := rfl

@[simp] theorem State.clearBuffer_ulData (s : State) : s.clearBuffer.ulData = s.ulData := rfl

@[simp] theorem State.clearBuffer_ulCtrl (s : State) : s.clearBuffer.ulCtrl = s.ulCtrl := rfl

@[simp] theorem State.clearBuffer_timerCmd (s : State) : s.clearBuffer.timerCmd = s.timerCmd := rfl

@[simp] theorem State.clearBuffer_trace (s : State) : s.clearBuffer.trace = s.trace := rfl

@[simp] theorem State.clearBuffer_completions (s : State) : s.clearBuffer.completions = s.completions := rfl

@[simp] theorem State.clearBuffer_port (s : State) : s.clearBuffer.port = s.port := rfl

@[simp] theorem State.clearBuffer_params (s : State) : s.clearBuffer.params = s.params := rfl

@[simp] theorem State.clearBuffer_staleIndex (s : State) : s.clearBuffer.staleIndex = s.staleIndex := rfl

/-! ### `zeroCounters` -/

@[simp] theorem State.zeroCounters_rxNext (s : State) : s.zeroCounters.rxNext = 0 := rfl

@[simp] theorem State.zeroCounters_rxDeliv (s : State) : s.zeroCounters.rxDeliv = 0 := rfl

@[simp] theorem State.zeroCounters_rxReord (s : State) : s.zeroCounters.rxReord = 0 := rfl

@[simp] theorem State.zeroCounters_lc (s : State) : s.zeroCounters.lc = s.lc := rfl

@[simp] theorem State.zeroCounters_timerRunning (s : State) : s.zeroCounters.timerRunning = s.timerRunning := rfl

@[simp] theorem State.zeroCounters_cfgWarn (s : State) : s.zeroCounters.cfgWarn = s.cfgWarn := rfl

@[simp] theorem State.zeroCounters_cfg (s : State) : s.zeroCounters.cfg = s.cfg := rfl

@[simp] theorem State.zeroCounters_tReord (s : State) : s.zeroCounters.tReord = s.tReord := rfl

@[simp] theorem State.zeroCounters_kCpInt (s : State) : s.zeroCounters.kCpInt = s.kCpInt := rfl

@[simp] theorem State.zeroCounters_kCpEnc (s : State) : s.zeroCounters.kCpEnc = s.kCpEnc := rfl

@[simp] theorem State.zeroCounters_kUpInt (s : State) : s.zeroCounters.kUpInt = s.kUpInt := rfl

@[simp] theorem State.zeroCounters_kUpEnc (s : State) : s.zeroCounters.kUpEnc = s.kUpEnc := rfl

@[simp] theorem State.zeroCounters_result (s : State) : s.zeroCounters.result = s.result := rfl

@[simp] theorem State.zeroCounters_buf (s : State) : s.zeroCounters.buf = s.buf := rfl

@[simp] theorem State.zeroCounters_work (s : State) : s.zeroCounters.work = s.work := rfl

@[simp] theorem State.zeroCounters_ulData (s : State) : s.zeroCounters.ulData = s.ulData := rfl

@[simp] theorem State.zeroCounters_ulCtrl (s : State) : s.zeroCounters.ulCtrl = s.ulCtrl := rfl

@[simp] theorem State.zeroCounters_timerCmd (s : State) : s.zeroCounters.timerCmd = s.timerCmd := rfl

@[simp] theorem State.zeroCounters_trace (s : State) : s.zeroCounters.trace = s.trace := rfl

@[simp] theorem State.zeroCounters_completions (s : State) : s.zeroCounters.completions = s.completions := rfl

@[simp] theorem State.zeroCounters_port (s : State) : s.zeroCounters.port = s.port := rfl

@[simp] theorem State.zeroCounters_params (s : State) : s.zeroCounters.params = s.params := rfl

@[simp] theorem State.zeroCounters_staleIndex (s : State) : s.zeroCounters.staleIndex = s.staleIndex := rfl

/-! ### `accept` -/

@[simp] theorem State.accept_rxNext (s : State) (rest : Octets) : (s.accept rest).rxNext = s.rxNext := rfl

@[simp] theorem State.accept_rxDeliv (s : State) (rest : Octets) : (s.accept rest).rxDeliv = s.rxDeliv := rfl

@[simp] theorem State.accept_rxReord (s : State) (rest : Octets) : (s.accept rest).rxReord = s.rxReord := rfl

@[simp] theorem State.accept_lc (s : State) (rest : Octets) : (s.accept rest).lc = s.lc := rfl

@[simp] theorem State.accept_timerRunning (s : State) (rest : Octets) : (s.accept rest).timerRunning = s.timerRunning := rfl

@[simp] theorem State.accept_cfgWarn (s : State) (rest : Octets) : (s.accept rest).cfgWarn = s.cfgWarn := rfl

@[simp] theorem State.accept_cfg (s : State) (rest : Octets) : (s.accept rest).cfg = s.cfg := rfl

@[simp] theorem State.accept_tReord (s : State) (rest : Octets) : (s.accept rest).tReord = s.tReord := rfl

@[simp] theorem State.accept_kCpInt (s : State) (rest : Octets) : (s.accept rest).kCpInt = s.kCpInt := rfl

@[simp] theorem State.accept_kCpEnc (s : State) (rest : Octets) : (s.accept rest).kCpEnc = s.kCpEnc := rfl

@[simp] theorem State.accept_kUpInt (s : State) (rest : Octets) : (s.accept rest).kUpInt = s.kUpInt := rfl

@[simp] theorem State.accept_kUpEnc (s : State) (rest : Octets) : (s.accept rest).kUpEnc = s.kUpEnc := rfl

@[simp] theorem State.accept_result (s : State) (rest : Octets) : (s.accept rest).result = s.result := rfl

@[simp] theorem State.accept_buf (s : State) (rest : Octets) : (s.accept rest).buf = s.buf := rfl

@[simp] theorem State.accept_work (s : State) (rest : Octets) : (s.accept rest).work = s.work := rfl

@[simp] theorem State.accept_ulData (s : State) (rest : Octets) : (s.accept rest).ulData = s.ulData := rfl

@[simp] theorem State.accept_ulCtrl (s : State) (rest : Octets) : (s.accept rest).ulCtrl = s.ulCtrl := rfl

@[simp] theorem State.accept_timerCmd (s : State) (rest : Octets) : (s.accept rest).timerCmd = s.timerCmd := rfl

@[simp] theorem State.accept_trace (s : State) (rest : Octets) : (s.accept rest).trace = s.trace := rfl

@[simp] theorem State.accept_completions (s : State) (rest : Octets) : (s.accept rest).completions = s.completions := rfl

@[simp] theorem State.accept_port (s : State) (rest : Octets) : (s.accept rest).port = rest := rfl

@[simp] theorem State.accept_params (s : State) (rest : Octets) : (s.accept rest).params = s.params := rfl

@[simp] theorem State.accept_staleIndex (s : State) (rest : Octets) : (s.accept rest).staleIndex = s.staleIndex := rfl

/-! ### `openStore` -/

@[simp] theorem State.openStore_rxNext (s : State) (pdu : Octets) : (s.openStore pdu).rxNext = s.rxNext := rfl

@[simp] theorem State.openStore_rxDeliv (s : State) (pdu : Octets) : (s.openStore pdu).rxDeliv = s.rxDeliv := rfl

@[simp] theorem State.openStore_rxReord (s : State) (pdu : Octets) : (s.openStore pdu).rxReord = s.rxReord := rfl

@[simp] theorem State.openStore_lc (s : State) (pdu : Octets) : (s.openStore pdu).lc = s.lc := rfl

@[simp] theorem State.openStore_timerRunning (s : State) (pdu : Octets) : (s.openStore pdu).timerRunning = s.timerRunning := rfl

@[simp] theorem State.openStore_cfgWarn (s : State) (pdu : Octets) : (s.openStore pdu).cfgWarn = s.cfgWarn := rfl

@[simp] theorem State.openStore_cfg (s : State) (pdu : Octets) : (s.openStore pdu).cfg = s.cfg := rfl

@[simp] theorem State.openStore_tReord (s : State) (pdu : Octets) : (s.openStore pdu).tReord = s.tReord := rfl

@[simp] theorem State.openStore_kCpInt (s : State) (pdu : Octets) : (s.openStore pdu).kCpInt = s.kCpInt := rfl

@[simp] theorem State.openStore_kCpEnc (s : State) (pdu : Octets) : (s.openStore pdu).kCpEnc = s.kCpEnc := rfl

@[simp] theorem State.openStore_kUpInt (s : State) (pdu : Octets) : (s.openStore pdu).kUpInt = s.kUpInt := rfl

@[simp] theorem State.openStore_kUpEnc (s : State) (pdu : Octets) : (s.openStore pdu).kUpEnc = s.kUpEnc := rfl

@[simp] theorem State.openStore_result (s : State) (pdu : Octets) : (s.openStore pdu).result = s.result := rfl

@[simp] theorem State.openStore_buf (s : State) (pdu : Octets) : (s.openStore pdu).buf = s.buf := rfl

@[simp] theorem State.openStore_work (s : State) (pdu : Octets) : (s.openStore pdu).work = { s.work with pdu := pdu, pduLen := BitVec.ofNat 16 pdu.length } := rfl

@[simp] theorem State.openStore_ulData (s : State) (pdu : Octets) : (s.openStore pdu).ulData = s.ulData := rfl

@[simp] theorem State.openStore_ulCtrl (s : State) (pdu : Octets) : (s.openStore pdu).ulCtrl = s.ulCtrl := rfl

@[simp] theorem State.openStore_timerCmd (s : State) (pdu : Octets) : (s.openStore pdu).timerCmd = s.timerCmd := rfl

@[simp] theorem State.openStore_trace (s : State) (pdu : Octets) : (s.openStore pdu).trace = s.trace := rfl

@[simp] theorem State.openStore_completions (s : State) (pdu : Octets) : (s.openStore pdu).completions = s.completions := rfl

@[simp] theorem State.openStore_port (s : State) (pdu : Octets) : (s.openStore pdu).port = s.port := rfl

@[simp] theorem State.openStore_params (s : State) (pdu : Octets) : (s.openStore pdu).params = s.params := rfl

@[simp] theorem State.openStore_staleIndex (s : State) (pdu : Octets) : (s.openStore pdu).staleIndex = s.staleIndex := rfl

/-! ### `closeStore` -/

@[simp] theorem State.closeStore_rxNext (s : State) : s.closeStore.rxNext = s.rxNext := rfl

@[simp] theorem State.closeStore_rxDeliv (s : State) : s.closeStore.rxDeliv = s.rxDeliv := rfl

@[simp] theorem State.closeStore_rxReord (s : State) : s.closeStore.rxReord = s.rxReord := rfl

@[simp] theorem State.closeStore_lc (s : State) : s.closeStore.lc = s.lc := rfl

@[simp] theorem State.closeStore_timerRunning (s : State) : s.closeStore.timerRunning = s.timerRunning := rfl

@[simp] theorem State.closeStore_cfgWarn (s : State) : s.closeStore.cfgWarn = s.cfgWarn := rfl

@[simp] theorem State.closeStore_cfg (s : State) : s.closeStore.cfg = s.cfg := rfl

@[simp] theorem State.closeStore_tReord (s : State) : s.closeStore.tReord = s.tReord := rfl

@[simp] theorem State.closeStore_kCpInt (s : State) : s.closeStore.kCpInt = s.kCpInt := rfl

@[simp] theorem State.closeStore_kCpEnc (s : State) : s.closeStore.kCpEnc = s.kCpEnc := rfl

@[simp] theorem State.closeStore_kUpInt (s : State) : s.closeStore.kUpInt = s.kUpInt := rfl

@[simp] theorem State.closeStore_kUpEnc (s : State) : s.closeStore.kUpEnc = s.kUpEnc := rfl

@[simp] theorem State.closeStore_result (s : State) : s.closeStore.result = s.result := rfl

@[simp] theorem State.closeStore_buf (s : State) : s.closeStore.buf = s.buf := rfl

@[simp] theorem State.closeStore_work (s : State) : s.closeStore.work = ⟨Config.stalePdu s.staleIndex, Config.stalePduLen s.staleIndex, Config.staleSn s.staleIndex,
      Config.staleHfn s.staleIndex, Config.staleCount s.staleIndex⟩ := rfl

@[simp] theorem State.closeStore_ulData (s : State) : s.closeStore.ulData = s.ulData := rfl

@[simp] theorem State.closeStore_ulCtrl (s : State) : s.closeStore.ulCtrl = s.ulCtrl := rfl

@[simp] theorem State.closeStore_timerCmd (s : State) : s.closeStore.timerCmd = s.timerCmd := rfl

@[simp] theorem State.closeStore_trace (s : State) : s.closeStore.trace = s.trace := rfl

@[simp] theorem State.closeStore_completions (s : State) : s.closeStore.completions = s.completions := rfl

@[simp] theorem State.closeStore_port (s : State) : s.closeStore.port = s.port := rfl

@[simp] theorem State.closeStore_params (s : State) : s.closeStore.params = s.params := rfl

@[simp] theorem State.closeStore_staleIndex (s : State) : s.closeStore.staleIndex = s.staleIndex + 1 := rfl

/-! ### `formCount` -/

@[simp] theorem State.formCount_rxNext (s : State) (w : SnWidth) (sn : Word) : (s.formCount w sn).rxNext = s.rxNext := rfl

@[simp] theorem State.formCount_rxDeliv (s : State) (w : SnWidth) (sn : Word) : (s.formCount w sn).rxDeliv = s.rxDeliv := rfl

@[simp] theorem State.formCount_rxReord (s : State) (w : SnWidth) (sn : Word) : (s.formCount w sn).rxReord = s.rxReord := rfl

@[simp] theorem State.formCount_lc (s : State) (w : SnWidth) (sn : Word) : (s.formCount w sn).lc = s.lc := rfl

@[simp] theorem State.formCount_timerRunning (s : State) (w : SnWidth) (sn : Word) : (s.formCount w sn).timerRunning = s.timerRunning := rfl

@[simp] theorem State.formCount_cfgWarn (s : State) (w : SnWidth) (sn : Word) : (s.formCount w sn).cfgWarn = s.cfgWarn := rfl

@[simp] theorem State.formCount_cfg (s : State) (w : SnWidth) (sn : Word) : (s.formCount w sn).cfg = s.cfg := rfl

@[simp] theorem State.formCount_tReord (s : State) (w : SnWidth) (sn : Word) : (s.formCount w sn).tReord = s.tReord := rfl

@[simp] theorem State.formCount_kCpInt (s : State) (w : SnWidth) (sn : Word) : (s.formCount w sn).kCpInt = s.kCpInt := rfl

@[simp] theorem State.formCount_kCpEnc (s : State) (w : SnWidth) (sn : Word) : (s.formCount w sn).kCpEnc = s.kCpEnc := rfl

@[simp] theorem State.formCount_kUpInt (s : State) (w : SnWidth) (sn : Word) : (s.formCount w sn).kUpInt = s.kUpInt := rfl

@[simp] theorem State.formCount_kUpEnc (s : State) (w : SnWidth) (sn : Word) : (s.formCount w sn).kUpEnc = s.kUpEnc := rfl

@[simp] theorem State.formCount_result (s : State) (w : SnWidth) (sn : Word) : (s.formCount w sn).result = s.result := rfl

@[simp] theorem State.formCount_buf (s : State) (w : SnWidth) (sn : Word) : (s.formCount w sn).buf = s.buf := rfl

@[simp] theorem State.formCount_work (s : State) (w : SnWidth) (sn : Word) : (s.formCount w sn).work = { s.work with
      rcvdSn := sn, rcvdHfn := windowRule w sn s.rxDeliv, rcvdCount := rcvdCountOf w sn s.rxDeliv } := rfl

@[simp] theorem State.formCount_ulData (s : State) (w : SnWidth) (sn : Word) : (s.formCount w sn).ulData = s.ulData := rfl

@[simp] theorem State.formCount_ulCtrl (s : State) (w : SnWidth) (sn : Word) : (s.formCount w sn).ulCtrl = s.ulCtrl := rfl

@[simp] theorem State.formCount_timerCmd (s : State) (w : SnWidth) (sn : Word) : (s.formCount w sn).timerCmd = s.timerCmd := rfl

@[simp] theorem State.formCount_trace (s : State) (w : SnWidth) (sn : Word) : (s.formCount w sn).trace = s.trace := rfl

@[simp] theorem State.formCount_completions (s : State) (w : SnWidth) (sn : Word) : (s.formCount w sn).completions = s.completions := rfl

@[simp] theorem State.formCount_port (s : State) (w : SnWidth) (sn : Word) : (s.formCount w sn).port = s.port := rfl

@[simp] theorem State.formCount_params (s : State) (w : SnWidth) (sn : Word) : (s.formCount w sn).params = s.params := rfl

@[simp] theorem State.formCount_staleIndex (s : State) (w : SnWidth) (sn : Word) : (s.formCount w sn).staleIndex = s.staleIndex := rfl

/-! ### `insertPdu` -/

@[simp] theorem State.insertPdu_rxNext (s : State) (p : Octets) : (s.insertPdu p).rxNext = maxCount s.rxNext (s.work.rcvdCount + 1) := rfl

@[simp] theorem State.insertPdu_rxDeliv (s : State) (p : Octets) : (s.insertPdu p).rxDeliv = s.rxDeliv := rfl

@[simp] theorem State.insertPdu_rxReord (s : State) (p : Octets) : (s.insertPdu p).rxReord = s.rxReord := rfl

@[simp] theorem State.insertPdu_lc (s : State) (p : Octets) : (s.insertPdu p).lc = s.lc := rfl

@[simp] theorem State.insertPdu_timerRunning (s : State) (p : Octets) : (s.insertPdu p).timerRunning = s.timerRunning := rfl

@[simp] theorem State.insertPdu_cfgWarn (s : State) (p : Octets) : (s.insertPdu p).cfgWarn = s.cfgWarn := rfl

@[simp] theorem State.insertPdu_cfg (s : State) (p : Octets) : (s.insertPdu p).cfg = s.cfg := rfl

@[simp] theorem State.insertPdu_tReord (s : State) (p : Octets) : (s.insertPdu p).tReord = s.tReord := rfl

@[simp] theorem State.insertPdu_kCpInt (s : State) (p : Octets) : (s.insertPdu p).kCpInt = s.kCpInt := rfl

@[simp] theorem State.insertPdu_kCpEnc (s : State) (p : Octets) : (s.insertPdu p).kCpEnc = s.kCpEnc := rfl

@[simp] theorem State.insertPdu_kUpInt (s : State) (p : Octets) : (s.insertPdu p).kUpInt = s.kUpInt := rfl

@[simp] theorem State.insertPdu_kUpEnc (s : State) (p : Octets) : (s.insertPdu p).kUpEnc = s.kUpEnc := rfl

@[simp] theorem State.insertPdu_result (s : State) (p : Octets) : (s.insertPdu p).result = s.result := rfl

@[simp] theorem State.insertPdu_buf (s : State) (p : Octets) : (s.insertPdu p).buf = Buffer.insert s.buf s.work.rcvdCount p := rfl

@[simp] theorem State.insertPdu_work (s : State) (p : Octets) : (s.insertPdu p).work = s.work := rfl

@[simp] theorem State.insertPdu_ulData (s : State) (p : Octets) : (s.insertPdu p).ulData = s.ulData := rfl

@[simp] theorem State.insertPdu_ulCtrl (s : State) (p : Octets) : (s.insertPdu p).ulCtrl = s.ulCtrl := rfl

@[simp] theorem State.insertPdu_timerCmd (s : State) (p : Octets) : (s.insertPdu p).timerCmd = s.timerCmd := rfl

@[simp] theorem State.insertPdu_trace (s : State) (p : Octets) : (s.insertPdu p).trace = s.trace := rfl

@[simp] theorem State.insertPdu_completions (s : State) (p : Octets) : (s.insertPdu p).completions = s.completions := rfl

@[simp] theorem State.insertPdu_port (s : State) (p : Octets) : (s.insertPdu p).port = s.port := rfl

@[simp] theorem State.insertPdu_params (s : State) (p : Octets) : (s.insertPdu p).params = s.params := rfl

@[simp] theorem State.insertPdu_staleIndex (s : State) (p : Octets) : (s.insertPdu p).staleIndex = s.staleIndex := rfl

/-! ### `createEntity` -/

@[simp] theorem State.createEntity_rxNext (s : State) : s.createEntity.rxNext = 0 := rfl

@[simp] theorem State.createEntity_rxDeliv (s : State) : s.createEntity.rxDeliv = 0 := rfl

@[simp] theorem State.createEntity_rxReord (s : State) : s.createEntity.rxReord = 0 := rfl

@[simp] theorem State.createEntity_lc (s : State) : s.createEntity.lc = .active := rfl

@[simp] theorem State.createEntity_timerRunning (s : State) : s.createEntity.timerRunning = false := rfl

@[simp] theorem State.createEntity_cfgWarn (s : State) : s.createEntity.cfgWarn = s.configMismatch := rfl

@[simp] theorem State.createEntity_cfg (s : State) : s.createEntity.cfg = s.cfg := rfl

@[simp] theorem State.createEntity_tReord (s : State) : s.createEntity.tReord = s.tReord := rfl

@[simp] theorem State.createEntity_kCpInt (s : State) : s.createEntity.kCpInt = s.kCpInt := rfl

@[simp] theorem State.createEntity_kCpEnc (s : State) : s.createEntity.kCpEnc = s.kCpEnc := rfl

@[simp] theorem State.createEntity_kUpInt (s : State) : s.createEntity.kUpInt = s.kUpInt := rfl

@[simp] theorem State.createEntity_kUpEnc (s : State) : s.createEntity.kUpEnc = s.kUpEnc := rfl

@[simp] theorem State.createEntity_result (s : State) : s.createEntity.result = s.result := rfl

@[simp] theorem State.createEntity_buf (s : State) : s.createEntity.buf = [] := rfl

@[simp] theorem State.createEntity_work (s : State) : s.createEntity.work = s.work := rfl

@[simp] theorem State.createEntity_ulData (s : State) : s.createEntity.ulData = s.ulData := rfl

@[simp] theorem State.createEntity_ulCtrl (s : State) : s.createEntity.ulCtrl = s.ulCtrl := rfl

@[simp] theorem State.createEntity_timerCmd (s : State) : s.createEntity.timerCmd = s.timerCmd := rfl

@[simp] theorem State.createEntity_trace (s : State) : s.createEntity.trace = s.trace := rfl

@[simp] theorem State.createEntity_completions (s : State) : s.createEntity.completions = s.completions := rfl

@[simp] theorem State.createEntity_port (s : State) : s.createEntity.port = s.port := rfl

@[simp] theorem State.createEntity_params (s : State) : s.createEntity.params = s.params := rfl

@[simp] theorem State.createEntity_staleIndex (s : State) : s.createEntity.staleIndex = s.staleIndex := rfl

/-! ### `stopIfRunning` -/

@[simp] theorem State.stopIfRunning_rxNext (s : State) : s.stopIfRunning.rxNext = s.rxNext := by
  unfold State.stopIfRunning; split <;> simp_all

@[simp] theorem State.stopIfRunning_rxDeliv (s : State) : s.stopIfRunning.rxDeliv = s.rxDeliv := by
  unfold State.stopIfRunning; split <;> simp_all

@[simp] theorem State.stopIfRunning_rxReord (s : State) : s.stopIfRunning.rxReord = s.rxReord := by
  unfold State.stopIfRunning; split <;> simp_all

@[simp] theorem State.stopIfRunning_lc (s : State) : s.stopIfRunning.lc = s.lc := by
  unfold State.stopIfRunning; split <;> simp_all

@[simp] theorem State.stopIfRunning_timerRunning (s : State) : s.stopIfRunning.timerRunning = false := by
  unfold State.stopIfRunning; split <;> simp_all

@[simp] theorem State.stopIfRunning_cfgWarn (s : State) : s.stopIfRunning.cfgWarn = s.cfgWarn := by
  unfold State.stopIfRunning; split <;> simp_all

@[simp] theorem State.stopIfRunning_cfg (s : State) : s.stopIfRunning.cfg = s.cfg := by
  unfold State.stopIfRunning; split <;> simp_all

@[simp] theorem State.stopIfRunning_tReord (s : State) : s.stopIfRunning.tReord = s.tReord := by
  unfold State.stopIfRunning; split <;> simp_all

@[simp] theorem State.stopIfRunning_kCpInt (s : State) : s.stopIfRunning.kCpInt = s.kCpInt := by
  unfold State.stopIfRunning; split <;> simp_all

@[simp] theorem State.stopIfRunning_kCpEnc (s : State) : s.stopIfRunning.kCpEnc = s.kCpEnc := by
  unfold State.stopIfRunning; split <;> simp_all

@[simp] theorem State.stopIfRunning_kUpInt (s : State) : s.stopIfRunning.kUpInt = s.kUpInt := by
  unfold State.stopIfRunning; split <;> simp_all

@[simp] theorem State.stopIfRunning_kUpEnc (s : State) : s.stopIfRunning.kUpEnc = s.kUpEnc := by
  unfold State.stopIfRunning; split <;> simp_all

@[simp] theorem State.stopIfRunning_result (s : State) : s.stopIfRunning.result = s.result := by
  unfold State.stopIfRunning; split <;> simp_all

@[simp] theorem State.stopIfRunning_buf (s : State) : s.stopIfRunning.buf = s.buf := by
  unfold State.stopIfRunning; split <;> simp_all

@[simp] theorem State.stopIfRunning_work (s : State) : s.stopIfRunning.work = s.work := by
  unfold State.stopIfRunning; split <;> simp_all

@[simp] theorem State.stopIfRunning_ulData (s : State) : s.stopIfRunning.ulData = s.ulData := by
  unfold State.stopIfRunning; split <;> simp_all

@[simp] theorem State.stopIfRunning_ulCtrl (s : State) : s.stopIfRunning.ulCtrl = s.ulCtrl := by
  unfold State.stopIfRunning; split <;> simp_all

@[simp] theorem State.stopIfRunning_timerCmd (s : State) : s.stopIfRunning.timerCmd = if s.timerRunning then s.timerCmd ++ [.stop] else s.timerCmd := by
  unfold State.stopIfRunning; split <;> simp_all

@[simp] theorem State.stopIfRunning_trace (s : State) : s.stopIfRunning.trace = if s.timerRunning then s.trace ++ [.timer .stop] else s.trace := by
  unfold State.stopIfRunning; split <;> simp_all

@[simp] theorem State.stopIfRunning_completions (s : State) : s.stopIfRunning.completions = s.completions := by
  unfold State.stopIfRunning; split <;> simp_all

@[simp] theorem State.stopIfRunning_port (s : State) : s.stopIfRunning.port = s.port := by
  unfold State.stopIfRunning; split <;> simp_all

@[simp] theorem State.stopIfRunning_params (s : State) : s.stopIfRunning.params = s.params := by
  unfold State.stopIfRunning; split <;> simp_all

@[simp] theorem State.stopIfRunning_staleIndex (s : State) : s.stopIfRunning.staleIndex = s.staleIndex := by
  unfold State.stopIfRunning; split <;> simp_all

/-! ### `releaseEntity` -/

@[simp] theorem State.releaseEntity_rxNext (s : State) : s.releaseEntity.rxNext = 0 := by
  simp [State.releaseEntity]

@[simp] theorem State.releaseEntity_rxDeliv (s : State) : s.releaseEntity.rxDeliv = 0 := by
  simp [State.releaseEntity]

@[simp] theorem State.releaseEntity_rxReord (s : State) : s.releaseEntity.rxReord = 0 := by
  simp [State.releaseEntity]

@[simp] theorem State.releaseEntity_lc (s : State) : s.releaseEntity.lc = .idle := by
  simp [State.releaseEntity]

@[simp] theorem State.releaseEntity_timerRunning (s : State) : s.releaseEntity.timerRunning = false := by
  simp [State.releaseEntity]

@[simp] theorem State.releaseEntity_cfgWarn (s : State) : s.releaseEntity.cfgWarn = false := by
  simp [State.releaseEntity]

@[simp] theorem State.releaseEntity_cfg (s : State) : s.releaseEntity.cfg = s.cfg := by
  simp [State.releaseEntity]

@[simp] theorem State.releaseEntity_tReord (s : State) : s.releaseEntity.tReord = s.tReord := by
  simp [State.releaseEntity]

@[simp] theorem State.releaseEntity_kCpInt (s : State) : s.releaseEntity.kCpInt = s.kCpInt := by
  simp [State.releaseEntity]

@[simp] theorem State.releaseEntity_kCpEnc (s : State) : s.releaseEntity.kCpEnc = s.kCpEnc := by
  simp [State.releaseEntity]

@[simp] theorem State.releaseEntity_kUpInt (s : State) : s.releaseEntity.kUpInt = s.kUpInt := by
  simp [State.releaseEntity]

@[simp] theorem State.releaseEntity_kUpEnc (s : State) : s.releaseEntity.kUpEnc = s.kUpEnc := by
  simp [State.releaseEntity]

@[simp] theorem State.releaseEntity_result (s : State) : s.releaseEntity.result = s.result := by
  simp [State.releaseEntity]

@[simp] theorem State.releaseEntity_buf (s : State) : s.releaseEntity.buf = [] := by
  simp [State.releaseEntity]

@[simp] theorem State.releaseEntity_work (s : State) : s.releaseEntity.work = s.work := by
  simp [State.releaseEntity]

@[simp] theorem State.releaseEntity_ulData (s : State) : s.releaseEntity.ulData = s.ulData := by
  simp [State.releaseEntity]

@[simp] theorem State.releaseEntity_ulCtrl (s : State) : s.releaseEntity.ulCtrl = s.ulCtrl := by
  simp [State.releaseEntity]

@[simp] theorem State.releaseEntity_timerCmd (s : State) : s.releaseEntity.timerCmd = if s.timerRunning then s.timerCmd ++ [.stop] else s.timerCmd := by
  simp [State.releaseEntity]

@[simp] theorem State.releaseEntity_trace (s : State) : s.releaseEntity.trace = if s.timerRunning then s.trace ++ [.timer .stop] else s.trace := by
  simp [State.releaseEntity]

@[simp] theorem State.releaseEntity_completions (s : State) : s.releaseEntity.completions = s.completions := by
  simp [State.releaseEntity]

@[simp] theorem State.releaseEntity_port (s : State) : s.releaseEntity.port = s.port := by
  simp [State.releaseEntity]

@[simp] theorem State.releaseEntity_params (s : State) : s.releaseEntity.params = s.params := by
  simp [State.releaseEntity]

@[simp] theorem State.releaseEntity_staleIndex (s : State) : s.releaseEntity.staleIndex = s.staleIndex := by
  simp [State.releaseEntity]

/-! ### `writeKey` -/

@[simp] theorem State.writeKey_rxNext (s : State) (i j : Nat) (v : Word) : (s.writeKey i j v).rxNext = s.rxNext := by
  unfold State.writeKey; split <;> rfl

@[simp] theorem State.writeKey_rxDeliv (s : State) (i j : Nat) (v : Word) : (s.writeKey i j v).rxDeliv = s.rxDeliv := by
  unfold State.writeKey; split <;> rfl

@[simp] theorem State.writeKey_rxReord (s : State) (i j : Nat) (v : Word) : (s.writeKey i j v).rxReord = s.rxReord := by
  unfold State.writeKey; split <;> rfl

@[simp] theorem State.writeKey_lc (s : State) (i j : Nat) (v : Word) : (s.writeKey i j v).lc = s.lc := by
  unfold State.writeKey; split <;> rfl

@[simp] theorem State.writeKey_timerRunning (s : State) (i j : Nat) (v : Word) : (s.writeKey i j v).timerRunning = s.timerRunning := by
  unfold State.writeKey; split <;> rfl

@[simp] theorem State.writeKey_cfgWarn (s : State) (i j : Nat) (v : Word) : (s.writeKey i j v).cfgWarn = s.cfgWarn := by
  unfold State.writeKey; split <;> rfl

@[simp] theorem State.writeKey_cfg (s : State) (i j : Nat) (v : Word) : (s.writeKey i j v).cfg = s.cfg := by
  unfold State.writeKey; split <;> rfl

@[simp] theorem State.writeKey_tReord (s : State) (i j : Nat) (v : Word) : (s.writeKey i j v).tReord = s.tReord := by
  unfold State.writeKey; split <;> rfl

@[simp] theorem State.writeKey_result (s : State) (i j : Nat) (v : Word) : (s.writeKey i j v).result = s.result := by
  unfold State.writeKey; split <;> rfl

@[simp] theorem State.writeKey_buf (s : State) (i j : Nat) (v : Word) : (s.writeKey i j v).buf = s.buf := by
  unfold State.writeKey; split <;> rfl

@[simp] theorem State.writeKey_work (s : State) (i j : Nat) (v : Word) : (s.writeKey i j v).work = s.work := by
  unfold State.writeKey; split <;> rfl

@[simp] theorem State.writeKey_ulData (s : State) (i j : Nat) (v : Word) : (s.writeKey i j v).ulData = s.ulData := by
  unfold State.writeKey; split <;> rfl

@[simp] theorem State.writeKey_ulCtrl (s : State) (i j : Nat) (v : Word) : (s.writeKey i j v).ulCtrl = s.ulCtrl := by
  unfold State.writeKey; split <;> rfl

@[simp] theorem State.writeKey_timerCmd (s : State) (i j : Nat) (v : Word) : (s.writeKey i j v).timerCmd = s.timerCmd := by
  unfold State.writeKey; split <;> rfl

@[simp] theorem State.writeKey_trace (s : State) (i j : Nat) (v : Word) : (s.writeKey i j v).trace = s.trace := by
  unfold State.writeKey; split <;> rfl

@[simp] theorem State.writeKey_completions (s : State) (i j : Nat) (v : Word) : (s.writeKey i j v).completions = s.completions := by
  unfold State.writeKey; split <;> rfl

@[simp] theorem State.writeKey_port (s : State) (i j : Nat) (v : Word) : (s.writeKey i j v).port = s.port := by
  unfold State.writeKey; split <;> rfl

@[simp] theorem State.writeKey_params (s : State) (i j : Nat) (v : Word) : (s.writeKey i j v).params = s.params := by
  unfold State.writeKey; split <;> rfl

@[simp] theorem State.writeKey_staleIndex (s : State) (i j : Nat) (v : Word) : (s.writeKey i j v).staleIndex = s.staleIndex := by
  unfold State.writeKey; split <;> rfl

/-! ### `writeCsr` -/

@[simp] theorem State.writeCsr_rxNext (s : State) (n : Nat) (v : Word) : (s.writeCsr n v).rxNext = s.rxNext := by
  unfold State.writeCsr; split_ifs <;> simp

@[simp] theorem State.writeCsr_rxDeliv (s : State) (n : Nat) (v : Word) : (s.writeCsr n v).rxDeliv = s.rxDeliv := by
  unfold State.writeCsr; split_ifs <;> simp

@[simp] theorem State.writeCsr_rxReord (s : State) (n : Nat) (v : Word) : (s.writeCsr n v).rxReord = s.rxReord := by
  unfold State.writeCsr; split_ifs <;> simp

@[simp] theorem State.writeCsr_lc (s : State) (n : Nat) (v : Word) : (s.writeCsr n v).lc = s.lc := by
  unfold State.writeCsr; split_ifs <;> simp

@[simp] theorem State.writeCsr_timerRunning (s : State) (n : Nat) (v : Word) : (s.writeCsr n v).timerRunning = s.timerRunning := by
  unfold State.writeCsr; split_ifs <;> simp

@[simp] theorem State.writeCsr_cfgWarn (s : State) (n : Nat) (v : Word) : (s.writeCsr n v).cfgWarn = s.cfgWarn := by
  unfold State.writeCsr; split_ifs <;> simp

@[simp] theorem State.writeCsr_result (s : State) (n : Nat) (v : Word) : (s.writeCsr n v).result = s.result := by
  unfold State.writeCsr; split_ifs <;> simp

@[simp] theorem State.writeCsr_buf (s : State) (n : Nat) (v : Word) : (s.writeCsr n v).buf = s.buf := by
  unfold State.writeCsr; split_ifs <;> simp

@[simp] theorem State.writeCsr_work (s : State) (n : Nat) (v : Word) : (s.writeCsr n v).work = s.work := by
  unfold State.writeCsr; split_ifs <;> simp

@[simp] theorem State.writeCsr_ulData (s : State) (n : Nat) (v : Word) : (s.writeCsr n v).ulData = s.ulData := by
  unfold State.writeCsr; split_ifs <;> simp

@[simp] theorem State.writeCsr_ulCtrl (s : State) (n : Nat) (v : Word) : (s.writeCsr n v).ulCtrl = s.ulCtrl := by
  unfold State.writeCsr; split_ifs <;> simp

@[simp] theorem State.writeCsr_timerCmd (s : State) (n : Nat) (v : Word) : (s.writeCsr n v).timerCmd = s.timerCmd := by
  unfold State.writeCsr; split_ifs <;> simp

@[simp] theorem State.writeCsr_trace (s : State) (n : Nat) (v : Word) : (s.writeCsr n v).trace = s.trace := by
  unfold State.writeCsr; split_ifs <;> simp

@[simp] theorem State.writeCsr_completions (s : State) (n : Nat) (v : Word) : (s.writeCsr n v).completions = s.completions := by
  unfold State.writeCsr; split_ifs <;> simp

@[simp] theorem State.writeCsr_port (s : State) (n : Nat) (v : Word) : (s.writeCsr n v).port = s.port := by
  unfold State.writeCsr; split_ifs <;> simp

@[simp] theorem State.writeCsr_params (s : State) (n : Nat) (v : Word) : (s.writeCsr n v).params = s.params := by
  unfold State.writeCsr; split_ifs <;> simp

@[simp] theorem State.writeCsr_staleIndex (s : State) (n : Nat) (v : Word) : (s.writeCsr n v).staleIndex = s.staleIndex := by
  unfold State.writeCsr; split_ifs <;> simp

/-! ### `hardwareReset` -/

@[simp] theorem State.hardwareReset_rxNext (s : State) : s.hardwareReset.rxNext = State.reset.rxNext := rfl

@[simp] theorem State.hardwareReset_rxDeliv (s : State) : s.hardwareReset.rxDeliv = State.reset.rxDeliv := rfl

@[simp] theorem State.hardwareReset_rxReord (s : State) : s.hardwareReset.rxReord = State.reset.rxReord := rfl

@[simp] theorem State.hardwareReset_lc (s : State) : s.hardwareReset.lc = State.reset.lc := rfl

@[simp] theorem State.hardwareReset_timerRunning (s : State) : s.hardwareReset.timerRunning = State.reset.timerRunning := rfl

@[simp] theorem State.hardwareReset_cfgWarn (s : State) : s.hardwareReset.cfgWarn = State.reset.cfgWarn := rfl

@[simp] theorem State.hardwareReset_cfg (s : State) : s.hardwareReset.cfg = State.reset.cfg := rfl

@[simp] theorem State.hardwareReset_tReord (s : State) : s.hardwareReset.tReord = State.reset.tReord := rfl

@[simp] theorem State.hardwareReset_kCpInt (s : State) : s.hardwareReset.kCpInt = State.reset.kCpInt := rfl

@[simp] theorem State.hardwareReset_kCpEnc (s : State) : s.hardwareReset.kCpEnc = State.reset.kCpEnc := rfl

@[simp] theorem State.hardwareReset_kUpInt (s : State) : s.hardwareReset.kUpInt = State.reset.kUpInt := rfl

@[simp] theorem State.hardwareReset_kUpEnc (s : State) : s.hardwareReset.kUpEnc = State.reset.kUpEnc := rfl

@[simp] theorem State.hardwareReset_result (s : State) : s.hardwareReset.result = State.reset.result := rfl

@[simp] theorem State.hardwareReset_buf (s : State) : s.hardwareReset.buf = State.reset.buf := rfl

@[simp] theorem State.hardwareReset_work (s : State) : s.hardwareReset.work = State.reset.work := rfl

@[simp] theorem State.hardwareReset_ulData (s : State) : s.hardwareReset.ulData = State.reset.ulData := rfl

@[simp] theorem State.hardwareReset_ulCtrl (s : State) : s.hardwareReset.ulCtrl = State.reset.ulCtrl := rfl

@[simp] theorem State.hardwareReset_timerCmd (s : State) : s.hardwareReset.timerCmd = State.reset.timerCmd := rfl

@[simp] theorem State.hardwareReset_trace (s : State) : s.hardwareReset.trace = s.trace := rfl

@[simp] theorem State.hardwareReset_completions (s : State) : s.hardwareReset.completions = State.reset.completions := rfl

@[simp] theorem State.hardwareReset_port (s : State) : s.hardwareReset.port = s.port := rfl

@[simp] theorem State.hardwareReset_params (s : State) : s.hardwareReset.params = s.params := rfl

@[simp] theorem State.hardwareReset_staleIndex (s : State) : s.hardwareReset.staleIndex = s.staleIndex := rfl

end Sys2Proof.Machine
end

