-- ==== Sys2Proof/Laws/Buffer.lean ====
section
/-! SUPPORT. The laws of the Reception Buffer: look-up after an update, and the canonical form every operation keeps. -/

namespace Sys2Proof.Machine

theorem Buffer.find_eq_some_of_mem {b : Buffer} (h : Buffer.wf b) {k : Word} {p : Octets} (hm : (k, p) ∈ b) :
    Buffer.find b k = some p := by
  induction b with
  | nil => cases hm
  | cons e b ih =>
    obtain ⟨j, q⟩ := e
    rw [Buffer.wf, List.pairwise_cons] at h
    rcases List.mem_cons.1 hm with heq | hb
    · cases heq; simp [Buffer.find]
    · have hne : j ≠ k := by
        have := h.1 _ hb
        intro e; subst e; exact absurd this (BitVec.lt_irrefl _)
      simpa [Buffer.find, hne] using ih h.2 hb

theorem Buffer.mem_of_find {b : Buffer} {k : Word} {p : Octets} (h : Buffer.find b k = some p) : (k, p) ∈ b := by
  induction b with
  | nil => cases h
  | cons e b ih =>
    obtain ⟨j, q⟩ := e
    by_cases hj : j = k
    · subst hj; simp [Buffer.find] at h; subst h; exact List.mem_cons_self
    · simp only [Buffer.find, hj, if_false] at h
      exact List.mem_cons_of_mem _ (ih h)

theorem Buffer.find_none_iff {b : Buffer} {k : Word} : Buffer.find b k = none ↔ ∀ e ∈ b, e.1 ≠ k := by
  induction b with
  | nil => simp [Buffer.find]
  | cons e b ih =>
    obtain ⟨j, q⟩ := e
    by_cases hj : j = k
    · simp [Buffer.find, hj]
    · simp [Buffer.find, hj, ih]

theorem Buffer.holds_iff {b : Buffer} {k : Word} : Buffer.holds b k = true ↔ ∃ e ∈ b, e.1 = k := by
  cases h : Buffer.find b k with
  | none =>
    have := Buffer.find_none_iff.1 h
    simp only [Buffer.holds, h, Option.isSome_none, Bool.false_eq_true, false_iff, not_exists, not_and]
    exact this
  | some p =>
    simp only [Buffer.holds, h, Option.isSome_some, true_iff]
    exact ⟨_, Buffer.mem_of_find h, rfl⟩

theorem Buffer.not_holds_iff {b : Buffer} {k : Word} : Buffer.holds b k = false ↔ ∀ e ∈ b, e.1 ≠ k := by
  rw [← Bool.not_eq_true, Buffer.holds_iff]; simp only [not_exists, not_and, ne_eq]

theorem Buffer.mem_insert {b : Buffer} {k : Word} {p : Octets} {e : Word × Octets} :
    e ∈ Buffer.insert b k p ↔ e = (k, p) ∨ e ∈ b := by
  induction b with
  | nil => simp [Buffer.insert]
  | cons f b ih =>
    obtain ⟨j, q⟩ := f
    by_cases hj : j < k
    · simp only [Buffer.insert, hj, if_true, List.mem_cons, ih]; tauto
    · simp only [Buffer.insert, hj, if_false, List.mem_cons]

theorem Buffer.length_insert (b : Buffer) (k : Word) (p : Octets) :
    (Buffer.insert b k p).length = b.length + 1 := by
  induction b with
  | nil => rfl
  | cons f b ih =>
    obtain ⟨j, q⟩ := f
    by_cases hj : j < k <;> simp [Buffer.insert, hj, ih]

theorem Buffer.mem_remove {b : Buffer} {k : Word} {e : Word × Octets} :
    e ∈ Buffer.remove b k ↔ e ∈ b ∧ e.1 ≠ k := by
  simp [Buffer.remove]

theorem Buffer.mem_below {b : Buffer} {t : Word} {e : Word × Octets} :
    e ∈ Buffer.below b t ↔ e ∈ b ∧ e.1 < t := by
  simp [Buffer.below]

theorem Buffer.mem_above {b : Buffer} {t : Word} {e : Word × Octets} :
    e ∈ Buffer.above b t ↔ e ∈ b ∧ ¬ e.1 < t := by
  simp [Buffer.above]

theorem Buffer.wf_nil : Buffer.wf [] := List.Pairwise.nil

theorem Buffer.wf_insert {b : Buffer} (h : Buffer.wf b) {k : Word} {p : Octets} (hk : Buffer.holds b k = false) :
    Buffer.wf (Buffer.insert b k p) := by
  have hne := Buffer.not_holds_iff.1 hk
  clear hk
  induction b with
  | nil => simp [Buffer.insert, Buffer.wf]
  | cons f b ih =>
    obtain ⟨j, q⟩ := f
    have hall := (List.pairwise_cons.1 h).1
    have hrest := (List.pairwise_cons.1 h).2
    have hjk : j ≠ k := hne _ List.mem_cons_self
    by_cases hj : j < k
    · simp only [Buffer.insert, hj, if_true]
      refine List.pairwise_cons.2 ⟨fun e he => ?_, ih hrest fun e he => hne e (List.mem_cons_of_mem _ he)⟩
      rcases Buffer.mem_insert.1 he with rfl | he
      · exact hj
      · exact hall e he
    · simp only [Buffer.insert, hj, if_false]
      refine List.pairwise_cons.2 ⟨fun e he => ?_, h⟩
      have hkj : k < j := by bv_omega
      rcases List.mem_cons.1 he with rfl | he
      · exact hkj
      · exact BitVec.lt_trans hkj (hall e he)

theorem Buffer.wf_remove {b : Buffer} (h : Buffer.wf b) (k : Word) : Buffer.wf (Buffer.remove b k) :=
  h.filter _

theorem Buffer.wf_below {b : Buffer} (h : Buffer.wf b) (t : Word) : Buffer.wf (Buffer.below b t) :=
  h.filter _

theorem Buffer.wf_above {b : Buffer} (h : Buffer.wf b) (t : Word) : Buffer.wf (Buffer.above b t) :=
  h.filter _

theorem Buffer.find_insert_self {b : Buffer} {k : Word} {p : Octets} (hk : Buffer.holds b k = false) :
    Buffer.find (Buffer.insert b k p) k = some p := by
  have hne := Buffer.not_holds_iff.1 hk
  clear hk
  induction b with
  | nil => simp [Buffer.insert, Buffer.find]
  | cons f b ih =>
    obtain ⟨j, q⟩ := f
    have hjk : j ≠ k := hne _ List.mem_cons_self
    by_cases hj : j < k
    · simpa [Buffer.insert, hj, Buffer.find, hjk] using ih fun e he => hne e (List.mem_cons_of_mem _ he)
    · simp [Buffer.insert, hj, Buffer.find]

theorem Buffer.find_insert_other {b : Buffer} {k x : Word} {p : Octets} (hx : x ≠ k) :
    Buffer.find (Buffer.insert b k p) x = Buffer.find b x := by
  induction b with
  | nil => simp [Buffer.insert, Buffer.find, hx.symm]
  | cons f b ih =>
    obtain ⟨j, q⟩ := f
    by_cases hj : j < k
    · simp only [Buffer.insert, hj, if_true, Buffer.find, ih]
    · simp [Buffer.insert, hj, Buffer.find, hx.symm]

theorem Buffer.find_remove_self (b : Buffer) (k : Word) : Buffer.find (Buffer.remove b k) k = none :=
  Buffer.find_none_iff.2 fun _ he => (Buffer.mem_remove.1 he).2

theorem Buffer.find_remove_other {b : Buffer} {k x : Word} (hx : x ≠ k) :
    Buffer.find (Buffer.remove b k) x = Buffer.find b x := by
  induction b with
  | nil => rfl
  | cons f b ih =>
    obtain ⟨j, q⟩ := f
    rw [Buffer.remove] at ih ⊢
    by_cases hj : j = k
    · subst hj; simpa [Buffer.find, hx.symm] using ih
    · by_cases hjx : j = x <;> simp_all [Buffer.find]

theorem Buffer.length_remove_lt {b : Buffer} {k : Word} {p : Octets} (h : Buffer.find b k = some p) :
    (Buffer.remove b k).length < b.length :=
  List.length_filter_lt_length_iff_exists.2 ⟨_, Buffer.mem_of_find h, by simp⟩

theorem Buffer.length_above_le (b : Buffer) (t : Word) : (Buffer.above b t).length ≤ b.length :=
  List.length_filter_le _ _

theorem Buffer.length_remove_le (b : Buffer) (k : Word) : (Buffer.remove b k).length ≤ b.length :=
  List.length_filter_le _ _

/-- A canonical buffer is its part below `t` followed by its part from `t` on. -/
theorem Buffer.below_append_above {b : Buffer} (h : Buffer.wf b) (t : Word) :
    Buffer.below b t ++ Buffer.above b t = b := by
  induction b with
  | nil => rfl
  | cons e b ih =>
    have hall := (List.pairwise_cons.1 h).1
    have ih := ih (List.pairwise_cons.1 h).2
    by_cases he : e.1 < t
    · simpa [Buffer.below, Buffer.above, he] using ih
    · have hnone : Buffer.below b t = [] := by
        refine List.filter_eq_nil_iff.2 fun f hf => ?_
        have := hall f hf
        simp only [decide_eq_true_eq]
        bv_omega
      rw [hnone, List.nil_append] at ih
      simp only [Buffer.below, Buffer.above] at ih hnone ⊢
      rw [List.filter_cons_of_neg (by simpa using he), List.filter_cons_of_pos (by simpa using he), hnone, ih]
      rfl

end Sys2Proof.Machine
end

