-- ==== Sys2Proof/Laws/Drain.lean ====
section
/-! SUPPORT. What the two drains and the expiry body can do (44 R193, R194; 41 R141), said once. -/

namespace Sys2Proof.Machine

/-! ### The consecutive drain -/

/-- The drain writes `RX_DELIV`, `BUF`, `UL_DATA` with its trace, and nothing else (R193). -/
theorem drainRounds_frame (n : Nat) (s : State) :
    drainRounds n s = { s with
      rxDeliv := (drainRounds n s).rxDeliv, buf := (drainRounds n s).buf, ulData := (drainRounds n s).ulData,
      trace := (drainRounds n s).trace } := by
  induction n generalizing s with
  | zero => rfl
  | succ n ih =>
    rw [drainRounds]
    cases Buffer.find s.buf s.rxDeliv with
    | none => rfl
    | some p => exact ih _

theorem consecutiveDrain_frame (s : State) :
    s.consecutiveDrain = { s with
      rxDeliv := s.consecutiveDrain.rxDeliv, buf := s.consecutiveDrain.buf, ulData := s.consecutiveDrain.ulData,
      trace := s.consecutiveDrain.trace } :=
  drainRounds_frame _ s

/-- Rounds beyond `|BUF|` change nothing: the loop of R193 has ended by then. -/
theorem drainRounds_enough {n m : Nat} {s : State} (hn : s.buf.length ≤ n) (hm : s.buf.length ≤ m) :
    drainRounds n s = drainRounds m s := by
  induction n generalizing s m with
  | zero =>
    have hb : s.buf = [] := List.eq_nil_of_length_eq_zero (by omega)
    cases m with
    | zero => rfl
    | succ m => simp [drainRounds, hb, Buffer.find]
  | succ n ih =>
    cases hf : Buffer.find s.buf s.rxDeliv with
    | none => cases m <;> simp [drainRounds, hf]
    | some p =>
      have hlt := Buffer.length_remove_lt hf
      cases m with
      | zero => omega
      | succ m =>
        simp only [drainRounds, hf]
        exact ih (by simp; omega) (by simp; omega)

/-- The loop's exit (R193). -/
theorem consecutiveDrain_stop {s : State} (h : Buffer.find s.buf s.rxDeliv = none) : s.consecutiveDrain = s := by
  unfold State.consecutiveDrain
  cases s.buf.length <;> simp [drainRounds, h]

/-- One turn of the loop (R193). -/
theorem consecutiveDrain_round {s : State} {p : Octets} (h : Buffer.find s.buf s.rxDeliv = some p) :
    s.consecutiveDrain = (s.deliverNext p).consecutiveDrain := by
  have hlt := Buffer.length_remove_lt h
  unfold State.consecutiveDrain
  obtain ⟨n, hn⟩ : ∃ n, s.buf.length = n + 1 := ⟨s.buf.length - 1, by omega⟩
  rw [hn]
  simp only [drainRounds, h]
  exact drainRounds_enough (by simp; omega) (by simp)

/-- Induction along the loop of R193. -/
theorem consecutiveDrain_induction {P : State → State → Prop}
    (stop : ∀ s, Buffer.find s.buf s.rxDeliv = none → P s s)
    (turn : ∀ s p, Buffer.find s.buf s.rxDeliv = some p →
      P (s.deliverNext p) (s.deliverNext p).consecutiveDrain → P s (s.deliverNext p).consecutiveDrain)
    (s : State) : P s s.consecutiveDrain := by
  induction hn : s.buf.length using Nat.strong_induction_on generalizing s with
  | _ n ih =>
    cases hf : Buffer.find s.buf s.rxDeliv with
    | none => rw [consecutiveDrain_stop hf]; exact stop s hf
    | some p =>
      rw [consecutiveDrain_round hf]
      refine turn s p hf (ih _ ?_ _ rfl)
      have := Buffer.length_remove_lt hf
      simp; omega

/-- The drain stops only at a missing key (R193). -/
theorem consecutiveDrain_gap (s : State) :
    Buffer.find s.consecutiveDrain.buf s.consecutiveDrain.rxDeliv = none :=
  consecutiveDrain_induction (P := fun _ t => Buffer.find t.buf t.rxDeliv = none) (fun _ h => h)
    (fun _ _ _ h => h) s

theorem consecutiveDrain_length_le (s : State) : s.consecutiveDrain.buf.length ≤ s.buf.length :=
  consecutiveDrain_induction (P := fun s t => t.buf.length ≤ s.buf.length) (fun _ _ => Nat.le_refl _)
    (fun s _ _ h => h.trans (by simpa using Buffer.length_remove_le s.buf s.rxDeliv)) s

/-- What is left was there before. -/
theorem consecutiveDrain_sub (s : State) : ∀ e ∈ s.consecutiveDrain.buf, e ∈ s.buf :=
  consecutiveDrain_induction (P := fun s t => ∀ e ∈ t.buf, e ∈ s.buf) (fun _ _ _ h => h)
    (fun _ _ _ h e he => (Buffer.mem_remove.1 (by simpa using h e he)).1) s

theorem consecutiveDrain_wf {s : State} (h : Buffer.wf s.buf) : Buffer.wf s.consecutiveDrain.buf :=
  consecutiveDrain_induction (P := fun s t => Buffer.wf s.buf → Buffer.wf t.buf) (fun _ _ h => h)
    (fun s _ _ ih h => ih (by simpa using Buffer.wf_remove h s.rxDeliv)) s h

/-- The drain only appends to `UL_DATA`. -/
theorem consecutiveDrain_ulData (s : State) : ∃ ps, s.consecutiveDrain.ulData = s.ulData ++ ps :=
  consecutiveDrain_induction (P := fun s t => ∃ ps, t.ulData = s.ulData ++ ps) (fun _ _ => ⟨[], by simp⟩)
    (fun _ p _ ⟨ps, h⟩ => ⟨p :: ps, by simpa using h⟩) s

@[simp] theorem State.consecutiveDrain_rxNext (s : State) : s.consecutiveDrain.rxNext = s.rxNext := by
  rw [consecutiveDrain_frame]

@[simp] theorem State.consecutiveDrain_rxReord (s : State) : s.consecutiveDrain.rxReord = s.rxReord := by
  rw [consecutiveDrain_frame]

@[simp] theorem State.consecutiveDrain_lc (s : State) : s.consecutiveDrain.lc = s.lc := by
  rw [consecutiveDrain_frame]

@[simp] theorem State.consecutiveDrain_timerRunning (s : State) : s.consecutiveDrain.timerRunning = s.timerRunning := by
  rw [consecutiveDrain_frame]

@[simp] theorem State.consecutiveDrain_cfgWarn (s : State) : s.consecutiveDrain.cfgWarn = s.cfgWarn := by
  rw [consecutiveDrain_frame]

@[simp] theorem State.consecutiveDrain_cfg (s : State) : s.consecutiveDrain.cfg = s.cfg := by
  rw [consecutiveDrain_frame]

@[simp] theorem State.consecutiveDrain_tReord (s : State) : s.consecutiveDrain.tReord = s.tReord := by
  rw [consecutiveDrain_frame]

@[simp] theorem State.consecutiveDrain_kCpInt (s : State) : s.consecutiveDrain.kCpInt = s.kCpInt := by
  rw [consecutiveDrain_frame]

@[simp] theorem State.consecutiveDrain_kCpEnc (s : State) : s.consecutiveDrain.kCpEnc = s.kCpEnc := by
  rw [consecutiveDrain_frame]

@[simp] theorem State.consecutiveDrain_kUpInt (s : State) : s.consecutiveDrain.kUpInt = s.kUpInt := by
  rw [consecutiveDrain_frame]

@[simp] theorem State.consecutiveDrain_kUpEnc (s : State) : s.consecutiveDrain.kUpEnc = s.kUpEnc := by
  rw [consecutiveDrain_frame]

@[simp] theorem State.consecutiveDrain_result (s : State) : s.consecutiveDrain.result = s.result := by
  rw [consecutiveDrain_frame]

@[simp] theorem State.consecutiveDrain_work (s : State) : s.consecutiveDrain.work = s.work := by
  rw [consecutiveDrain_frame]

@[simp] theorem State.consecutiveDrain_ulCtrl (s : State) : s.consecutiveDrain.ulCtrl = s.ulCtrl := by
  rw [consecutiveDrain_frame]

@[simp] theorem State.consecutiveDrain_timerCmd (s : State) : s.consecutiveDrain.timerCmd = s.timerCmd := by
  rw [consecutiveDrain_frame]

@[simp] theorem State.consecutiveDrain_completions (s : State) : s.consecutiveDrain.completions = s.completions := by
  rw [consecutiveDrain_frame]

@[simp] theorem State.consecutiveDrain_port (s : State) : s.consecutiveDrain.port = s.port := by
  rw [consecutiveDrain_frame]

@[simp] theorem State.consecutiveDrain_params (s : State) : s.consecutiveDrain.params = s.params := by
  rw [consecutiveDrain_frame]

@[simp] theorem State.consecutiveDrain_staleIndex (s : State) : s.consecutiveDrain.staleIndex = s.staleIndex := by
  rw [consecutiveDrain_frame]

/-! ### The expiry body -/

@[simp] theorem State.expiryDrain_rxNext (s : State) : s.expiryDrain.rxNext = s.rxNext := by
  simp [State.expiryDrain]

@[simp] theorem State.expiryDrain_rxReord (s : State) : s.expiryDrain.rxReord = s.rxReord := by
  simp [State.expiryDrain]

@[simp] theorem State.expiryDrain_lc (s : State) : s.expiryDrain.lc = s.lc := by
  simp [State.expiryDrain]

@[simp] theorem State.expiryDrain_timerRunning (s : State) : s.expiryDrain.timerRunning = s.timerRunning := by
  simp [State.expiryDrain]

@[simp] theorem State.expiryDrain_cfgWarn (s : State) : s.expiryDrain.cfgWarn = s.cfgWarn := by
  simp [State.expiryDrain]

@[simp] theorem State.expiryDrain_cfg (s : State) : s.expiryDrain.cfg = s.cfg := by
  simp [State.expiryDrain]

@[simp] theorem State.expiryDrain_tReord (s : State) : s.expiryDrain.tReord = s.tReord := by
  simp [State.expiryDrain]

@[simp] theorem State.expiryDrain_kCpInt (s : State) : s.expiryDrain.kCpInt = s.kCpInt := by
  simp [State.expiryDrain]

@[simp] theorem State.expiryDrain_kCpEnc (s : State) : s.expiryDrain.kCpEnc = s.kCpEnc := by
  simp [State.expiryDrain]

@[simp] theorem State.expiryDrain_kUpInt (s : State) : s.expiryDrain.kUpInt = s.kUpInt := by
  simp [State.expiryDrain]

@[simp] theorem State.expiryDrain_kUpEnc (s : State) : s.expiryDrain.kUpEnc = s.kUpEnc := by
  simp [State.expiryDrain]

@[simp] theorem State.expiryDrain_result (s : State) : s.expiryDrain.result = s.result := by
  simp [State.expiryDrain]

@[simp] theorem State.expiryDrain_work (s : State) : s.expiryDrain.work = s.work := by
  simp [State.expiryDrain]

@[simp] theorem State.expiryDrain_ulCtrl (s : State) : s.expiryDrain.ulCtrl = s.ulCtrl := by
  simp [State.expiryDrain]

@[simp] theorem State.expiryDrain_timerCmd (s : State) : s.expiryDrain.timerCmd = s.timerCmd := by
  simp [State.expiryDrain]

@[simp] theorem State.expiryDrain_completions (s : State) : s.expiryDrain.completions = s.completions := by
  simp [State.expiryDrain]

@[simp] theorem State.expiryDrain_port (s : State) : s.expiryDrain.port = s.port := by
  simp [State.expiryDrain]

@[simp] theorem State.expiryDrain_params (s : State) : s.expiryDrain.params = s.params := by
  simp [State.expiryDrain]

@[simp] theorem State.expiryDrain_staleIndex (s : State) : s.expiryDrain.staleIndex = s.staleIndex := by
  simp [State.expiryDrain]

/-- What step d of the expiry body can do (R141). -/
theorem expiryRestart_cases (s : State) :
    (¬ s.rxDeliv < s.rxNext ∧ s.expiryRestart = (s, .ok)) ∨
    (s.rxDeliv < s.rxNext ∧ s.tReord = Config.timerZero ∧
      s.expiryRestart = (s.errorEffect .internalFault, .internalFault)) ∨
    (s.rxDeliv < s.rxNext ∧ s.tReord ≠ Config.timerZero ∧ s.expiryRestart = (s.startTimer, .ok)) := by
  unfold State.expiryRestart State.outstanding
  by_cases h : s.rxDeliv < s.rxNext
  · by_cases hz : s.tReord = Config.timerZero
    · exact .inr (.inl ⟨h, hz, by simp [h, hz]⟩)
    · exact .inr (.inr ⟨h, hz, by simp [h, hz]⟩)
  · exact .inl ⟨h, by simp [h]⟩

/-- What the expiry body can do (R141). -/
theorem expiryBody_cases (s : State) :
    (¬ s.expiryDrain.rxDeliv < s.rxNext ∧ s.expiryBody = (s.expiryDrain, .ok)) ∨
    (s.expiryDrain.rxDeliv < s.rxNext ∧ s.tReord = Config.timerZero ∧
      s.expiryBody = (s.expiryDrain.errorEffect .internalFault, .internalFault)) ∨
    (s.expiryDrain.rxDeliv < s.rxNext ∧ s.tReord ≠ Config.timerZero ∧
      s.expiryBody = (s.expiryDrain.startTimer, .ok)) := by
  simpa [State.expiryBody] using expiryRestart_cases s.expiryDrain

theorem expiryDrain_ulData (s : State) : ∃ ps, s.expiryDrain.ulData = s.ulData ++ ps := by
  obtain ⟨ps, h⟩ := consecutiveDrain_ulData { s.drainBelow s.rxReord with rxDeliv := s.rxReord }
  exact ⟨(Buffer.below s.buf s.rxReord).map Prod.snd ++ ps, by simpa [State.expiryDrain] using h⟩

theorem expiryDrain_wf {s : State} (h : Buffer.wf s.buf) : Buffer.wf s.expiryDrain.buf :=
  consecutiveDrain_wf (Buffer.wf_above h _)

theorem expiryDrain_length_le (s : State) : s.expiryDrain.buf.length ≤ s.buf.length :=
  (consecutiveDrain_length_le _).trans (Buffer.length_above_le _ _)

end Sys2Proof.Machine
end

