-- ==== Sys2Proof/Laws/Window.lean ====
section
/-! SUPPORT. The COUNT arithmetic as natural numbers (40 R112, R113; 10_state R22), and what parse_header returns. -/

namespace Sys2Proof.Machine

theorem snBits_add_hfnBits (w : SnWidth) : snBits w + hfnBits w = 32 := by cases w <;> rfl

/-- `HFN ‖ SN` is `HFN · 2^W + SN` (10_state R22). -/
theorem countOf_toNat {w : SnWidth} {hfn sn : Word} (hh : hfn.toNat < 2 ^ hfnBits w) (hs : sn.toNat < 2 ^ snBits w) :
    (countOf w hfn sn).toNat = hfn.toNat * 2 ^ snBits w + sn.toNat := by
  have hlt : hfn.toNat <<< snBits w < 2 ^ 32 := by
    have hp : 2 ^ 32 = 2 ^ hfnBits w * 2 ^ snBits w := by cases w <;> rfl
    rw [Nat.shiftLeft_eq, hp]
    exact (Nat.mul_lt_mul_right (Nat.two_pow_pos _)).2 hh
  rw [countOf, BitVec.toNat_or, BitVec.toNat_shiftLeft, Nat.mod_eq_of_lt hlt,
    ← Nat.shiftLeft_add_eq_or_of_lt hs, Nat.shiftLeft_eq]

theorem countSn_lt (w : SnWidth) (c : Word) : countSn w c < 2 ^ snBits w := Nat.mod_lt _ (Nat.two_pow_pos _)

theorem countHfn_lt (w : SnWidth) (c : Word) : countHfn w c < 2 ^ hfnBits w := by
  rw [countHfn, Nat.div_lt_iff_lt_mul (Nat.two_pow_pos _), ← Nat.pow_add, Nat.add_comm, snBits_add_hfnBits]
  exact c.isLt

/-- `c = HFN(c) · 2^W + SN(c)` (10_state R22). -/
theorem countHfn_mul_add_countSn (w : SnWidth) (c : Word) :
    countHfn w c * 2 ^ snBits w + countSn w c = c.toNat := by
  rw [countHfn, countSn, Nat.mul_comm]; exact Nat.div_add_mod _ _

theorem two_mul_window (w : SnWidth) : 2 * window w = 2 ^ snBits w := by cases w <;> rfl

/-- The three branches of the window rule (R112) as numbers. -/
theorem windowRule_cases (w : SnWidth) (sn deliv : Word) :
    (sn.toNat + window w < countSn w deliv ∧
      (windowRule w sn deliv).toNat = (countHfn w deliv + 1) % 2 ^ hfnBits w) ∨
    (countSn w deliv + window w ≤ sn.toNat ∧
      (windowRule w sn deliv).toNat = (countHfn w deliv + (2 ^ hfnBits w - 1)) % 2 ^ hfnBits w) ∨
    (countSn w deliv ≤ sn.toNat + window w ∧ sn.toNat < countSn w deliv + window w ∧
      (windowRule w sn deliv).toNat = countHfn w deliv) := by
  have hp : 2 ^ hfnBits w ≤ 2 ^ 32 := Nat.pow_le_pow_right (by decide) (by have := snBits_add_hfnBits w; omega)
  have hm : ∀ x, (BitVec.ofNat 32 (x % 2 ^ hfnBits w)).toNat = x % 2 ^ hfnBits w := fun x => by
    rw [BitVec.toNat_ofNat]; exact Nat.mod_eq_of_lt (lt_of_lt_of_le (Nat.mod_lt _ (Nat.two_pow_pos _)) hp)
  have hh := countHfn_lt w deliv
  unfold windowRule
  by_cases h1 : (sn.toNat : Int) < (countSn w deliv : Int) - window w
  · exact .inl ⟨by omega, by simp only [h1, if_true, hm]⟩
  · by_cases h2 : (sn.toNat : Int) ≥ (countSn w deliv : Int) + window w
    · exact .inr (.inl ⟨by omega, by simp only [h1, h2, if_true, if_false, hm]⟩)
    · refine .inr (.inr ⟨by omega, by omega, ?_⟩)
      simp only [h1, h2, if_false, BitVec.toNat_ofNat]
      exact Nat.mod_eq_of_lt (lt_of_lt_of_le hh hp)

theorem windowRule_lt (w : SnWidth) (sn deliv : Word) : (windowRule w sn deliv).toNat < 2 ^ hfnBits w := by
  rcases windowRule_cases w sn deliv with ⟨_, h⟩ | ⟨_, h⟩ | ⟨_, _, h⟩ <;> rw [h]
  · exact Nat.mod_lt _ (Nat.two_pow_pos _)
  · exact Nat.mod_lt _ (Nat.two_pow_pos _)
  · exact countHfn_lt w deliv

theorem snWidthOf_cases {f : BitVec 6} {w : SnWidth} (h : snWidthOf f = some w) :
    (f = 12#6 ∧ w = .w12) ∨ (f = 18#6 ∧ w = .w18) := by
  unfold snWidthOf at h
  split at h
  · cases h; exact .inl ⟨‹_›, rfl⟩
  · split at h
    · cases h; exact .inr ⟨‹_›, rfl⟩
    · cases h

theorem sn12_lt (pdu : Octets) : (sn12 pdu).toNat < 2 ^ 12 := by
  have h : sn12 pdu < 0x1000#32 := by
    unfold sn12
    generalize octetAt pdu 0 = a
    generalize octetAt pdu 1 = b
    have ha : (a &&& 0x0F#8).toNat < 2 ^ 4 := by
      rw [BitVec.toNat_and]; exact Nat.and_lt_two_pow _ (by decide)
    rw [BitVec.lt_def, BitVec.toNat_or, BitVec.toNat_shiftLeft, BitVec.toNat_setWidth, BitVec.toNat_setWidth,
      Nat.shiftLeft_eq]
    refine Nat.or_lt_two_pow (n := 12) ?_ ?_
    · omega
    · have := b.isLt; omega
  exact h

theorem sn18_lt (pdu : Octets) : (sn18 pdu).toNat < 2 ^ 18 := by
  have h : sn18 pdu < 0x40000#32 := by
    unfold sn18
    generalize octetAt pdu 0 = a
    generalize octetAt pdu 1 = b
    generalize octetAt pdu 2 = c
    have ha : (a &&& 0x03#8).toNat < 2 ^ 2 := by
      rw [BitVec.toNat_and]; exact Nat.and_lt_two_pow _ (by decide)
    rw [BitVec.lt_def, BitVec.toNat_or, BitVec.toNat_or, BitVec.toNat_shiftLeft, BitVec.toNat_shiftLeft,
      BitVec.toNat_setWidth, BitVec.toNat_setWidth, BitVec.toNat_setWidth, Nat.shiftLeft_eq, Nat.shiftLeft_eq]
    refine Nat.or_lt_two_pow (n := 18) (Nat.or_lt_two_pow ?_ ?_) ?_
    · omega
    · have := b.isLt; omega
    · have := c.isLt; omega
  exact h

/-- `RCVD_SN` has W bits (43 R180). -/
theorem parseHeader_lt {f : BitVec 6} {pdu : Octets} {w : SnWidth} {sn : Word}
    (hw : snWidthOf f = some w) (h : parseHeader f pdu = some sn) : sn.toNat < 2 ^ snBits w := by
  rcases snWidthOf_cases hw with ⟨rfl, rfl⟩ | ⟨rfl, rfl⟩ <;> simp [parseHeader] at h <;> rw [← h.2]
  · exact sn12_lt pdu
  · exact sn18_lt pdu

/-- `parse_header` fails only as R181 (i), (ii) say. -/
theorem parseHeader_isSome {f : BitVec 6} {pdu : Octets} {w : SnWidth} (hw : snWidthOf f = some w) :
    (parseHeader f pdu).isSome = decide (hdrLen w < pdu.length) := by
  rcases snWidthOf_cases hw with ⟨rfl, rfl⟩ | ⟨rfl, rfl⟩
  · by_cases h : pdu.length ≤ 2
    · have : ¬ 2 < pdu.length := by omega
      simp [parseHeader, hdrLen, h, this]
    · have : 2 < pdu.length := by omega
      simp [parseHeader, hdrLen, h, this]
  · by_cases h : pdu.length ≤ 3
    · have : ¬ 3 < pdu.length := by omega
      simp [parseHeader, hdrLen, h, this]
    · have : 3 < pdu.length := by omega
      simp [parseHeader, hdrLen, h, this]

/-- `RCVD_COUNT = RCVD_HFN · 2^W + RCVD_SN` (30_encoding R91). -/
theorem rcvdCountOf_toNat {w : SnWidth} {sn deliv : Word} (hs : sn.toNat < 2 ^ snBits w) :
    (rcvdCountOf w sn deliv).toNat = (windowRule w sn deliv).toNat * 2 ^ snBits w + sn.toNat :=
  countOf_toNat (windowRule_lt w sn deliv) hs

end Sys2Proof.Machine
end

