-- ==== Sys2Proof/Laws/Reception.lean ====
section
/-! SUPPORT. What timer management, `RX_PDU` and every other command can do, each said once (40, 41, 45). -/

namespace Sys2Proof.Machine

/-! ### Timer management (40 R118) -/

theorem stopIfDue_cases (s : State) :
    (s.timerRunning = true ∧ s.rxReord ≤ s.rxDeliv ∧ s.stopIfDue = s.stopTimer) ∨
    (¬ (s.timerRunning = true ∧ s.rxReord ≤ s.rxDeliv) ∧ s.stopIfDue = s) := by
  unfold State.stopIfDue State.timerDue
  by_cases hr : s.timerRunning = true <;> by_cases hd : s.rxReord ≤ s.rxDeliv <;> simp [hr, hd]

/-- What step 7b can do (R118). -/
theorem startIfNeeded_cases (s : State) :
    (s.tReord = Config.timerInfinite ∧ s.startIfNeeded = (s, .ok)) ∨
    (s.tReord = Config.timerZero ∧ s.startIfNeeded = ({ s with rxReord := s.rxNext }).expiryBody) ∨
    (s.tReord ≠ Config.timerInfinite ∧ s.tReord ≠ Config.timerZero ∧ s.timerRunning = false ∧
      s.rxDeliv < s.rxNext ∧ s.startIfNeeded = (s.startTimer, .ok)) ∨
    (s.tReord ≠ Config.timerInfinite ∧ s.tReord ≠ Config.timerZero ∧
      ¬ (s.timerRunning = false ∧ s.rxDeliv < s.rxNext) ∧ s.startIfNeeded = (s, .ok)) := by
  unfold State.startIfNeeded State.outstanding
  by_cases hi : s.tReord = Config.timerInfinite
  · exact .inl ⟨hi, by simp [hi]⟩
  · by_cases hz : s.tReord = Config.timerZero
    · exact .inr (.inl ⟨hz, by rw [if_neg hi, if_pos hz]⟩)
    · by_cases hr : s.timerRunning = false ∧ s.rxDeliv < s.rxNext
      · exact .inr (.inr (.inl ⟨hi, hz, hr.1, hr.2, by simp [hi, hz, hr.1, hr.2]⟩))
      · refine .inr (.inr (.inr ⟨hi, hz, hr, ?_⟩))
        have : (!s.timerRunning && decide (s.rxDeliv < s.rxNext)) = false := by
          cases h : s.timerRunning <;> simp_all
        simp [hi, hz, this]

/-! ### `RX_PDU` (40 R110) -/

/-- The reasons for which steps 1 to 4 reject a PDU, and the full buffer (R280; log 10). -/
def ErrorClass.rejectsPdu : ErrorClass → Bool
  | .malformedPdu => true
  | .stale => true
  | .duplicate => true
  | .integrityFailure => true
  | .internalFault => true
  | .ignored => false
  | .illegalCommand => false

/-- The conditions under which a PDU is accepted into `BUF` (R110 steps 0 to 4), `payload` what step 3 returns. -/
structure Accepts (c : Crypto) (s : State) (pdu : Octets) (w : SnWidth) (sn : Word) (payload : Octets) : Prop where
  fits : pdu.length ≤ s.params.maxPduLen.toNat
  active : s.lc = .active
  wellformed : checkWellformed s.cfg pdu.length = some w
  header : parseHeader (cfgSnWidth s.cfg) pdu = some sn
  security : securityRx c w s pdu (rcvdCountOf w sn s.rxDeliv) = (true, payload)
  notStale : ¬ rcvdCountOf w sn s.rxDeliv < s.rxDeliv
  notDuplicate : Buffer.holds s.buf (rcvdCountOf w sn s.rxDeliv) = false
  notFull : Buffer.full w s.buf = false

/-- The working values inside the command. -/
def workOf (pdu : Octets) (w : SnWidth) (sn deliv : Word) : Work :=
  ⟨pdu, BitVec.ofNat 16 pdu.length, sn, windowRule w sn deliv, rcvdCountOf w sn deliv⟩

theorem checkWellformed_width {cfg : Word} {n : Nat} {w : SnWidth} (h : checkWellformed cfg n = some w) :
    snWidthOf (cfgSnWidth cfg) = some w := by
  unfold checkWellformed at h
  cases hw : snWidthOf (cfgSnWidth cfg) with
  | none => simp [hw] at h
  | some v =>
    simp only [hw] at h
    split at h
    · cases h
    · split at h <;> simp_all

/-- The security step reads `CFG` and the keys alone (42 R150). -/
@[simp] theorem securityRx_withWork (c : Crypto) (w : SnWidth) (s : State) (k : Work) (pdu : Octets) (count : Word) :
    securityRx c w (s.withWork k) pdu count = securityRx c w s pdu count := rfl

theorem pduLen_toNat {s : State} {pdu : Octets} (h : pdu.length ≤ s.params.maxPduLen.toNat) :
    (BitVec.ofNat 16 pdu.length).toNat = pdu.length := by
  rw [BitVec.toNat_ofNat]; exact Nat.mod_eq_of_lt (by have := s.params.maxPduLen.isLt; omega)

/-- What `RX_PDU` can do (R110): end at once, end in an error with only the store touched, or accept. -/
theorem receive_cases (c : Crypto) (pdu : Octets) (s : State) :
    (s.params.maxPduLen.toNat < pdu.length ∧ s.receive c pdu = s.raise .illegalCommand) ∨
    (pdu.length ≤ s.params.maxPduLen.toNat ∧ s.lc ≠ .active ∧ s.receive c pdu = s.raise .ignored) ∨
    (∃ e k, ErrorClass.rejectsPdu e = true ∧ s.lc = .active ∧
      (e = .internalFault → ∃ w, s.width = some w ∧ Buffer.full w s.buf = true) ∧
      s.receive c pdu = ((s.withWork k).raise e).closeStore) ∨
    (∃ w sn payload, Accepts c s pdu w sn payload ∧
      s.receive c pdu = ((s.withWork (workOf pdu w sn s.rxDeliv)).acceptPdu payload).closeStore) := by
  by_cases hlen : s.params.maxPduLen.toNat < pdu.length
  · exact .inl ⟨hlen, by simp [State.receive, hlen]⟩
  refine .inr ?_
  have hle : pdu.length ≤ s.params.maxPduLen.toNat := Nat.not_lt.1 hlen
  by_cases hlc : s.lc ≠ .active
  · exact .inl ⟨hle, hlc, by simp [State.receive, hlen, hlc]⟩
  refine .inr ?_
  have hact : s.lc = .active := not_not.1 hlc
  have hrec : s.receive c pdu = ((s.openStore pdu).handlePdu c).closeStore := by
    simp [State.receive, hlen, hact]
  rw [hrec]
  unfold State.handlePdu
  simp only [State.openStore_cfg, State.openStore_work, pduLen_toNat hle]
  cases hwf : checkWellformed s.cfg pdu.length with
  | none => exact .inl ⟨.malformedPdu, _, rfl, hact, by simp, rfl⟩
  | some w =>
    cases hsn : parseHeader (cfgSnWidth s.cfg) pdu with
    | none => exact .inl ⟨.malformedPdu, _, rfl, hact, by simp, rfl⟩
    | some sn =>
      have hst : (s.openStore pdu).formCount w sn = s.withWork (workOf pdu w sn s.rxDeliv) := rfl
      have hcount : (workOf pdu w sn s.rxDeliv).rcvdCount = rcvdCountOf w sn s.rxDeliv := rfl
      have hpdu : (workOf pdu w sn s.rxDeliv).pdu = pdu := rfl
      simp only [hst, State.verifyAndAccept, securityRx_withWork, State.withWork_work, hcount, hpdu]
      rcases hsec : securityRx c w s pdu (rcvdCountOf w sn s.rxDeliv) with ⟨ok, payload⟩
      cases ok with
      | false => exact .inl ⟨.integrityFailure, _, rfl, hact, by simp, by simp; rfl⟩
      | true =>
        simp only [if_true, State.discardOrAccept, State.withWork_work, State.withWork_rxDeliv, State.withWork_buf, hcount]
        by_cases h1 : rcvdCountOf w sn s.rxDeliv < s.rxDeliv
        · exact .inl ⟨.stale, _, rfl, hact, by simp, by simp [h1]; rfl⟩
        by_cases h2 : Buffer.holds s.buf (rcvdCountOf w sn s.rxDeliv) = true
        · exact .inl ⟨.duplicate, _, rfl, hact, by simp, by simp [h1, h2]; rfl⟩
        by_cases h3 : Buffer.full w s.buf = true
        · exact .inl ⟨.internalFault, _, rfl, hact, fun _ => ⟨w, checkWellformed_width hwf, h3⟩,
            by simp [h1, h2, h3]; rfl⟩
        · exact .inr ⟨w, sn, payload,
            ⟨hle, hact, hwf, hsn, hsec, h1, Bool.eq_false_iff.2 h2, Bool.eq_false_iff.2 h3⟩, by simp [h1, h2, h3]⟩

/-! ### Every instruction answers a next state -/

/-- The state an instruction leads to. -/
def afterExec (i : Instr) (s : State) : State :=
  match exec i s with
  | .next t => t
  | .fault _ => s
  | .refused _ => s

/-- No meaning stops the machine (70_reset R329). -/
theorem exec_next (i : Instr) (s : State) : exec i s = .next (afterExec i s) := by
  have h : ∃ t, exec i s = .next t := by
    cases i <;> simp only [exec, execCreate, execRxPdu, execTExpire, execRelease, execCsrw, execCsrr, execPdu12,
      execPdu18, execRxPduOver, execPdu12Over, execPdu18Over] <;> (try split_ifs) <;> exact ⟨_, rfl⟩
  obtain ⟨t, ht⟩ := h
  simp [afterExec, ht]

/-- What one step can do: run a whole command, reject a reserved opcode, or hold the state. -/
theorem step_cases (s : State) :
    (∃ i rest, decode s.port = .command i rest ∧ step s = exec i (s.accept rest)) ∨
    (∃ opc rest, decode s.port = .reservedOpcode opc rest ∧
      step s = .next ((s.accept rest).raise .illegalCommand)) ∨
    (decode s.port = .incomplete ∧ step s = .next s) := by
  unfold step State.runNext
  cases h : decode s.port with
  | command i rest => exact .inl ⟨i, rest, rfl, rfl⟩
  | reservedOpcode opc rest => exact .inr (.inl ⟨opc, rest, rfl, rfl⟩)
  | incomplete => exact .inr (.inr ⟨rfl, rfl⟩)

end Sys2Proof.Machine
end

