-- ==== Sys2Proof/Laws/Delivery.lean ====
section
/-! SUPPORT. Delivery in order, said once for each operation: the drains, the expiry body, timer management and an
accepted `RX_PDU`, as long as no COUNT wraps (40 R121, 10_state R23); and the acceptance conditions in Safety's terms. -/

namespace Sys2Proof.Machine

theorem lt_of_lt_of_le_word {a b c : Word} (h : a < b) (h' : b ≤ c) : a < c := by bv_omega

/-! ### Delivering in order -/

/-- What the drains need and keep (10_state R23 (a), (c), (d); 44 R197). -/
structure InOrder (s : State) : Prop where
  canonical : Buffer.wf s.buf
  delivNext : s.rxDeliv ≤ s.rxNext
  keys : ∀ e ∈ s.buf, s.rxDeliv ≤ e.1 ∧ e.1 < s.rxNext

theorem deliversInOrder_refl {s : State} (m : InOrder s) : DeliversInOrder s s [] [] :=
  ⟨by simp, List.Pairwise.nil, by simp, fun e he => (m.keys e he).1, BitVec.le_refl _, by simp⟩

theorem deliversInOrder_trans {s m t : State} {f o1 o2 : Buffer} (h1 : DeliversInOrder s m f o1)
    (h2 : DeliversInOrder m t [] o2) : DeliversInOrder s t f (o1 ++ o2) := by
  refine ⟨by rw [h2.pushed, h1.pushed]; simp, ?_, ?_, h2.waiting, BitVec.le_trans h1.forward h2.forward, ?_⟩
  · rw [List.pairwise_append]
    exact ⟨h1.ascending, h2.ascending,
      fun x hx y hy => lt_of_lt_of_le_word (h1.inRange x hx).2 (h2.inRange y hy).1⟩
  · intro e he
    rcases List.mem_append.1 he with h | h
    · exact ⟨(h1.inRange e h).1, lt_of_lt_of_le_word (h1.inRange e h).2 h2.forward⟩
    · exact ⟨BitVec.le_trans h1.forward (h2.inRange e h).1, (h2.inRange e h).2⟩
  · intro e
    have a := h1.conserved e
    have b := h2.conserved e
    simp only [List.not_mem_nil, or_false] at b
    rw [List.mem_append, or_assoc, b, a]

/-- Only `UL_DATA`, `BUF` and `RX_DELIV` of the later state matter. -/
theorem deliversInOrder_congr {s t t' : State} {f out : Buffer} (h : DeliversInOrder s t f out)
    (h1 : t'.ulData = t.ulData) (h2 : t'.buf = t.buf) (h3 : t'.rxDeliv = t.rxDeliv) : DeliversInOrder s t' f out :=
  ⟨by rw [h1]; exact h.pushed, h.ascending, by rw [h3]; exact h.inRange, by rw [h2, h3]; exact h.waiting,
    by rw [h3]; exact h.forward, by rw [h2]; exact h.conserved⟩

/-- What the consecutive drain delivers (44 R193). -/
theorem consecutiveDrain_delivers (s : State) :
    InOrder s → InOrder s.consecutiveDrain ∧ ∃ out, DeliversInOrder s s.consecutiveDrain [] out := by
  refine consecutiveDrain_induction (P := fun s t => InOrder s → InOrder t ∧ ∃ out, DeliversInOrder s t [] out) ?_ ?_ s
  · intro s _ m
    exact ⟨m, [], deliversInOrder_refl m⟩
  · intro s p hf ih m
    have hm := Buffer.mem_of_find hf
    have hk := (m.keys _ hm).2
    have m' : InOrder (s.deliverNext p) := by
      refine ⟨by simpa using Buffer.wf_remove m.canonical _, ?_, ?_⟩
      · simp; bv_omega
      · simp only [State.deliverNext_buf, State.deliverNext_rxDeliv, State.deliverNext_rxNext]
        intro e he
        have hr := Buffer.mem_remove.1 he
        have k := m.keys e hr.1
        have hne := hr.2
        exact ⟨by bv_omega, k.2⟩
    obtain ⟨mt, out, hd⟩ := ih m'
    have one : DeliversInOrder s (s.deliverNext p) [] [(s.rxDeliv, p)] := by
      refine ⟨by simp, by simp, ?_, fun e he => (m'.keys e he).1, ?_, ?_⟩
      · simp; bv_omega
      · simp; bv_omega
      · intro e
        simp only [State.deliverNext_buf, Buffer.mem_remove, List.mem_singleton, List.not_mem_nil, or_false]
        constructor
        · rintro (rfl | h)
          · exact hm
          · exact h.1
        · intro h
          by_cases hk : e.1 = s.rxDeliv
          · left
            have := Buffer.find_eq_some_of_mem m.canonical (k := e.1) (p := e.2) h
            rw [hk, hf] at this
            cases e
            simp_all
          · exact .inr ⟨h, hk⟩
    exact ⟨mt, _, deliversInOrder_trans one hd⟩

/-- The state after steps a and b of the expiry body is in order (41 R141). -/
theorem expirySweep_inOrder {s : State} (m : InOrder s) (h2 : s.rxReord ≤ s.rxNext) :
    InOrder { s.drainBelow s.rxReord with rxDeliv := s.rxReord } := by
  refine ⟨Buffer.wf_above m.canonical _, h2, ?_⟩
  intro e he
  have ha := Buffer.mem_above.1 (show e ∈ Buffer.above s.buf s.rxReord from he)
  have hn := ha.2
  exact ⟨by show s.rxReord ≤ e.1; bv_omega, (m.keys e ha.1).2⟩

/-- What steps a to c of the expiry body deliver (41 R141). -/
theorem expiryDrain_delivers {s : State} (m : InOrder s) (h1 : s.rxDeliv ≤ s.rxReord) (h2 : s.rxReord ≤ s.rxNext) :
    InOrder s.expiryDrain ∧ s.rxReord ≤ s.expiryDrain.rxDeliv ∧ ∃ out, DeliversInOrder s s.expiryDrain [] out := by
  have m' := expirySweep_inOrder m h2
  obtain ⟨mt, out, hd⟩ := consecutiveDrain_delivers _ m'
  have sweep : DeliversInOrder s { s.drainBelow s.rxReord with rxDeliv := s.rxReord } []
      (Buffer.below s.buf s.rxReord) := by
    refine ⟨rfl, Buffer.wf_below m.canonical _, ?_, fun e he => (m'.keys e he).1, h1, ?_⟩
    · intro e he
      have hb := Buffer.mem_below.1 he
      exact ⟨(m.keys e hb.1).1, hb.2⟩
    · intro e
      show (e ∈ Buffer.below s.buf s.rxReord ∨ e ∈ Buffer.above s.buf s.rxReord) ↔ _
      rw [Buffer.mem_below, Buffer.mem_above]
      simp only [List.not_mem_nil, or_false]
      tauto
  exact ⟨mt, hd.forward, _, deliversInOrder_trans sweep hd⟩

/-- A COUNT that is not stale lies within one window of `RX_DELIV`, away from HFN 0 (40 R113). -/
theorem rcvdCountOf_lt_window {w : SnWidth} {sn deliv : Word} (hs : sn.toNat < 2 ^ snBits w)
    (h0 : countHfn w deliv = 0 → sn.toNat < countSn w deliv + window w) (hge : deliv ≤ rcvdCountOf w sn deliv) :
    (rcvdCountOf w sn deliv).toNat < deliv.toNat + window w := by
  have e := rcvdCountOf_toNat (deliv := deliv) hs
  have d := countHfn_mul_add_countSn w deliv
  have hl := countHfn_lt w deliv
  have sl := countSn_lt w deliv
  have tw := two_mul_window w
  have hge' : deliv.toNat ≤ (rcvdCountOf w sn deliv).toNat := hge
  rcases windowRule_cases w sn deliv with ⟨a, b⟩ | ⟨a, b⟩ | ⟨a, a', b⟩
  · rw [e, b]
    by_cases hx : countHfn w deliv + 1 < 2 ^ hfnBits w
    · rw [Nat.mod_eq_of_lt hx, Nat.add_mul]; omega
    · have : countHfn w deliv + 1 = 2 ^ hfnBits w := by omega
      rw [this, Nat.mod_self]; omega
  · have hne : countHfn w deliv ≠ 0 := fun h => by have := h0 h; omega
    have hmod : (countHfn w deliv + (2 ^ hfnBits w - 1)) % 2 ^ hfnBits w = countHfn w deliv - 1 := by
      have : countHfn w deliv + (2 ^ hfnBits w - 1) = countHfn w deliv - 1 + 2 ^ hfnBits w := by omega
      rw [this, Nat.add_mod_right, Nat.mod_eq_of_lt (by omega)]
    rw [e, b, hmod] at hge' ⊢
    have : countHfn w deliv * 2 ^ snBits w = (countHfn w deliv - 1) * 2 ^ snBits w + 2 ^ snBits w := by
      rw [← Nat.succ_mul]; congr 1; omega
    omega
  · rw [e, b]; omega

/-! ### Timer management and acceptance -/

/-- What timer management needs (40 R118). -/
structure Manageable (w : SnWidth) (s : State) : Prop where
  inOrder : InOrder s
  near : s.rxNext.toNat ≤ s.rxDeliv.toNat + window w
  reord : s.timerRunning = true → s.rxReord ≤ s.rxNext
  finite : s.timerRunning = true → s.tReord ≠ Config.timerZero ∧ s.tReord ≠ Config.timerInfinite

/-- What holds of the state `t` that timer management, the expiry body or an accepted PDU leads to from `s`. -/
structure Managed (w : SnWidth) (s t : State) (fresh : Buffer) : Prop where
  inOrder : InOrder t
  near : t.rxNext.toNat ≤ t.rxDeliv.toNat + window w
  timer : t.timerRunning = true → t.rxDeliv < t.rxReord ∧ t.rxReord ≤ t.rxNext
  settled : t.tReord ≠ Config.timerInfinite → t.timerRunning = false → t.rxDeliv = t.rxNext
  finite : t.timerRunning = true → t.tReord ≠ Config.timerZero ∧ t.tReord ≠ Config.timerInfinite
  delivers : ∃ out, DeliversInOrder s t fresh out
  zero : s.tReord = Config.timerZero → t.rxDeliv = t.rxNext ∧ t.timerCmd = s.timerCmd
  lc : t.lc = s.lc
  tReord : t.tReord = s.tReord
  cfg : t.cfg = s.cfg

/-- The expiry body with nothing wrapped never raises an InternalFault (41 R141, R142). -/
theorem expiryBody_managed {w : SnWidth} {s : State} (m : InOrder s)
    (near : s.rxNext.toNat ≤ s.rxDeliv.toNat + window w) (h1 : s.rxDeliv ≤ s.rxReord) (h2 : s.rxReord ≤ s.rxNext)
    (hr : s.timerRunning = false) (hz : s.tReord = Config.timerZero → s.rxReord = s.rxNext)
    (hi : s.tReord ≠ Config.timerInfinite) : Managed w s s.expiryBody.1 [] ∧ s.expiryBody.2 = .ok := by
  obtain ⟨mt, hge, out, hd⟩ := expiryDrain_delivers m h1 h2
  have dn := mt.delivNext
  have hf := hd.forward
  have nx : s.expiryDrain.rxNext = s.rxNext := by simp
  have near' : s.expiryDrain.rxNext.toNat ≤ s.expiryDrain.rxDeliv.toNat + window w := by rw [nx]; bv_omega
  by_cases ho : s.expiryDrain.rxDeliv < s.expiryDrain.rxNext
  · have hnz : s.tReord ≠ Config.timerZero := by
      intro hz'
      have e := hz hz'
      rw [nx] at ho
      bv_omega
    have : s.expiryBody = (s.expiryDrain.startTimer, .ok) := by
      simp only [State.expiryBody, State.expiryRestart, State.outstanding, ho, decide_true, if_true,
        State.expiryDrain_tReord, hnz, if_false]
    rw [this]
    exact ⟨⟨⟨mt.canonical, mt.delivNext, mt.keys⟩, near', fun _ => ⟨ho, BitVec.le_refl _⟩, fun _ h => (by cases h),
      fun _ => by simp [hnz, hi], ⟨out, deliversInOrder_congr hd rfl rfl rfl⟩, fun h => absurd h hnz, by simp, by simp,
      by simp⟩, rfl⟩
  · have : s.expiryBody = (s.expiryDrain, .ok) := by
      simp only [State.expiryBody, State.expiryRestart, State.outstanding, ho, decide_false, Bool.false_eq_true, if_false]
    have all : s.expiryDrain.rxDeliv = s.expiryDrain.rxNext := by bv_omega
    rw [this]
    exact ⟨⟨mt, near', fun h => by simp [hr] at h, fun _ _ => all, fun h => by simp [hr] at h, ⟨out, hd⟩,
      fun _ => ⟨all, by simp⟩, by simp, by simp, by simp⟩, rfl⟩

/-- Step 7b from a state `u` that step 7a left of `s` (40 R118). -/
theorem startIfNeeded_managed {w : SnWidth} {s u : State} (p : Manageable w s) (mu : InOrder u)
    (e1 : u.rxDeliv = s.rxDeliv) (e2 : u.rxNext = s.rxNext) (e3 : u.rxReord = s.rxReord) (e4 : u.buf = s.buf)
    (e5 : u.ulData = s.ulData) (e6 : u.tReord = s.tReord) (e7 : u.lc = s.lc) (e8 : u.cfg = s.cfg)
    (er : u.timerRunning = true → s.timerRunning = true ∧ u.rxDeliv < u.rxReord)
    (ez : s.tReord = Config.timerZero → u.timerCmd = s.timerCmd) :
    Managed w s u.startIfNeeded.1 [] ∧ u.startIfNeeded.2 = .ok := by
  have dnu := mu.delivNext
  have du : DeliversInOrder s u [] [] :=
    ⟨by simp [e5], List.Pairwise.nil, by simp, fun e he => (mu.keys e he).1, by rw [e1]; exact BitVec.le_refl _,
      by simp [e4]⟩
  have tm : u.timerRunning = true → u.rxDeliv < u.rxReord ∧ u.rxReord ≤ u.rxNext :=
    fun h => ⟨(er h).2, by rw [e3, e2]; exact p.reord (er h).1⟩
  have fi : u.timerRunning = true → u.tReord ≠ Config.timerZero ∧ u.tReord ≠ Config.timerInfinite :=
    fun h => by rw [e6]; exact p.finite (er h).1
  have nr : u.rxNext.toNat ≤ u.rxDeliv.toNat + window w := by rw [e1, e2]; exact p.near
  rcases startIfNeeded_cases u with ⟨h, e⟩ | ⟨h, e⟩ | ⟨h1, h2, h3, h4, e⟩ | ⟨h1, h2, h3, e⟩ <;> rw [e]
  · have hz : ¬ s.tReord = Config.timerZero := fun h' => (by rw [e6] at h; rw [h] at h'; cases h')
    exact ⟨⟨mu, nr, tm, fun h' => absurd h h', fi, ⟨[], du⟩, fun h' => absurd h' hz, e7, e6, e8⟩, rfl⟩
  · have hr : u.timerRunning = false := by
      cases hh : u.timerRunning with
      | false => rfl
      | true => exact absurd h (fi hh).1
    have mu' : InOrder { u with rxReord := u.rxNext } := ⟨mu.canonical, mu.delivNext, mu.keys⟩
    obtain ⟨q, r⟩ := expiryBody_managed (w := w) mu' nr mu.delivNext (BitVec.le_refl _) hr (fun _ => rfl)
      (by show u.tReord ≠ _; rw [h]; decide)
    obtain ⟨out, hd⟩ := q.delivers
    have du' : DeliversInOrder s { u with rxReord := u.rxNext } [] [] := deliversInOrder_congr du rfl rfl rfl
    exact ⟨⟨q.inOrder, q.near, q.timer, q.settled, q.finite, ⟨_, deliversInOrder_trans du' hd⟩,
      fun h' => ⟨(q.zero h).1, (q.zero h).2.trans (ez h')⟩, q.lc.trans e7, q.tReord.trans e6, q.cfg.trans e8⟩, r⟩
  · exact ⟨⟨⟨mu.canonical, mu.delivNext, mu.keys⟩, nr, fun _ => ⟨h4, BitVec.le_refl _⟩, fun _ h => (by cases h),
      fun _ => ⟨h2, h1⟩, ⟨[], deliversInOrder_congr du rfl rfl rfl⟩, fun h' => absurd (e6.trans h') h2, e7, e6, e8⟩, rfl⟩
  · refine ⟨⟨mu, nr, tm, fun _ hr => ?_, fi, ⟨[], du⟩, fun h' => absurd (e6.trans h') h2, e7, e6, e8⟩, rfl⟩
    have : ¬ u.rxDeliv < u.rxNext := fun h => h3 ⟨hr, h⟩
    bv_omega

/-- What timer management leads to (40 R118). -/
theorem timerManagement_managed {w : SnWidth} {s : State} (p : Manageable w s) :
    Managed w s s.timerManagement.1 [] ∧ s.timerManagement.2 = .ok := by
  unfold State.timerManagement
  rcases stopIfDue_cases s with ⟨h1, h2, e⟩ | ⟨h, e⟩ <;> rw [e]
  · exact startIfNeeded_managed p ⟨p.inOrder.canonical, p.inOrder.delivNext, p.inOrder.keys⟩ rfl rfl rfl rfl rfl rfl rfl
      rfl (fun h => by cases h) (fun h => absurd h (p.finite h1).1)
  · refine startIfNeeded_managed p p.inOrder rfl rfl rfl rfl rfl rfl rfl rfl (fun h' => ⟨h', ?_⟩) (fun _ => rfl)
    have : ¬ s.rxReord ≤ s.rxDeliv := fun hh => h ⟨h', hh⟩
    bv_omega

theorem managed_closeStore {w : SnWidth} {s x : State} {f : Buffer} (r : ResultCode) (q : Managed w s x f) :
    Managed w s (x.complete r).closeStore f := by
  obtain ⟨out, dd⟩ := q.delivers
  exact ⟨⟨q.inOrder.canonical, q.inOrder.delivNext, q.inOrder.keys⟩, q.near, q.timer, q.settled, q.finite,
    ⟨out, deliversInOrder_congr dd rfl rfl rfl⟩, q.zero, q.lc, q.tReord, q.cfg⟩

/-- What an accepted PDU leads to (40 R116 to R118). -/
theorem acceptPdu_managed {c : Crypto} {s : State} {pdu : Octets} {w : SnWidth} {sn : Word} {payload : Octets}
    (so : s.Sound) (o : s.Ordered) (nw : s.NoWrap pdu) (a : Accepts c s pdu w sn payload) :
    Managed w s (((s.withWork (workOf pdu w sn s.rxDeliv)).acceptPdu payload).closeStore)
      [(rcvdCountOf w sn s.rxDeliv, payload)] ∧
    (((s.withWork (workOf pdu w sn s.rxDeliv)).acceptPdu payload).closeStore).result = .ok := by
  have hw : s.width = some w := checkWellformed_width a.wellformed
  obtain ⟨n0, n1⟩ := nw w sn hw a.header
  have hge : s.rxDeliv ≤ rcvdCountOf w sn s.rxDeliv := by have := a.notStale; bv_omega
  have hlt := rcvdCountOf_lt_window (parseHeader_lt hw a.header) n0 hge
  set k := rcvdCountOf w sn s.rxDeliv with hk
  set s1 := (s.withWork (workOf pdu w sn s.rxDeliv)).insertPdu payload with hs1
  have b1 : s1.buf = Buffer.insert s.buf k payload := rfl
  have x1 : s1.rxNext = maxCount s.rxNext (k + 1) := rfl
  have k1 : (k + 1).toNat = k.toNat + 1 := by bv_omega
  have xle : s.rxNext ≤ s1.rxNext ∧ k < s1.rxNext ∧ (s1.rxNext = s.rxNext ∨ s1.rxNext = k + 1) := by
    rw [x1, maxCount]
    split <;> refine ⟨?_, ?_, ?_⟩ <;> first | bv_omega | simp
  have dn := o.delivNext
  have m1 : InOrder s1 := by
    refine ⟨by rw [b1]; exact Buffer.wf_insert so.canonical a.notDuplicate, ?_, ?_⟩
    · show s.rxDeliv ≤ s1.rxNext
      have := xle.1
      bv_omega
    · rw [b1]
      intro e he
      show s.rxDeliv ≤ e.1 ∧ e.1 < s1.rxNext
      rcases Buffer.mem_insert.1 he with rfl | h
      · exact ⟨hge, xle.2.1⟩
      · have h1 := o.keys e h
        have h2 := xle.1
        exact ⟨h1.1, by have := h1.2; bv_omega⟩
  have d1 : DeliversInOrder s s1 [(k, payload)] [] := by
    refine ⟨by simp [hs1], List.Pairwise.nil, by simp, fun e he => (m1.keys e he).1, BitVec.le_refl _, ?_⟩
    intro e
    rw [b1, Buffer.mem_insert]
    simp
    tauto
  have near1 : s1.rxNext.toNat ≤ s1.rxDeliv.toNat + window w := by
    show s1.rxNext.toNat ≤ s.rxDeliv.toNat + window w
    have := o.near w hw
    rcases xle.2.2 with h | h <;> rw [h] <;> omega
  have t1 : s1.timerRunning = true → s1.rxReord ≤ s1.rxNext := by
    intro h
    have h1 := (o.timer h).2
    show s.rxReord ≤ s1.rxNext
    have h2 := xle.1
    bv_omega
  have drained : Manageable w s1.drainIfNext ∧ (∃ out, DeliversInOrder s1 s1.drainIfNext [] out) ∧
      s1.drainIfNext.lc = s.lc ∧ s1.drainIfNext.tReord = s.tReord ∧ s1.drainIfNext.timerCmd = s.timerCmd ∧
      s1.drainIfNext.cfg = s.cfg := by
    unfold State.drainIfNext
    split
    · obtain ⟨mt, out, hd⟩ := consecutiveDrain_delivers s1 m1
      refine ⟨⟨mt, ?_, ?_, ?_⟩, ⟨out, hd⟩, ?_, ?_, ?_, ?_⟩
      · have := hd.forward
        simp only [State.consecutiveDrain_rxNext]
        bv_omega
      · simpa using t1
      · simp only [State.consecutiveDrain_timerRunning, State.consecutiveDrain_tReord]
        exact so.timerFinite
      all_goals simp
      all_goals rfl
    · exact ⟨⟨m1, near1, t1, so.timerFinite⟩, ⟨[], deliversInOrder_refl m1⟩, rfl, rfl, rfl, rfl⟩
  obtain ⟨p2, ⟨out2, d2⟩, l2, r2, c2, g2⟩ := drained
  obtain ⟨q, r⟩ := timerManagement_managed p2
  have q' : Managed w s s1.drainIfNext.timerManagement.1 [(k, payload)] := by
    obtain ⟨out3, d3⟩ := q.delivers
    exact ⟨q.inOrder, q.near, q.timer, q.settled, q.finite,
      ⟨_, deliversInOrder_trans (deliversInOrder_trans d1 d2) d3⟩,
      fun h => ⟨(q.zero (r2.trans h)).1, (q.zero (r2.trans h)).2.trans c2⟩, q.lc.trans l2, q.tReord.trans r2,
      q.cfg.trans g2⟩
  have e : ((s.withWork (workOf pdu w sn s.rxDeliv)).acceptPdu payload).closeStore =
      (s1.drainIfNext.timerManagement.1.complete s1.drainIfNext.timerManagement.2).closeStore := rfl
  rw [e]
  exact ⟨managed_closeStore _ q', r⟩

/-! ### The acceptance conditions in the statements' terms -/

theorem tagPresent_iff (cfg : Word) : tagPresent cfg = true ↔ (cfgBearerType cfg = 0#1 ∨ cfgIntEn cfg = 1#1) := by
  simp [tagPresent]

theorem malformed_iff {s : State} {pdu : Octets} : s.Malformed pdu ↔ checkWellformed s.cfg pdu.length = none := by
  unfold State.Malformed checkWellformed
  simp only [← tagPresent_iff]
  by_cases h12 : cfgSnWidth s.cfg = 12#6
  · by_cases ht : tagPresent s.cfg = true <;> simp [snWidthOf, h12, hdrLen, ht]
    refine ⟨fun h h2 => decide_eq_true ?_, fun h => ?_⟩
    · omega
    · by_contra hh
      have := of_decide_eq_true (h (by omega))
      omega
  · by_cases h18 : cfgSnWidth s.cfg = 18#6
    · by_cases ht : tagPresent s.cfg = true <;> simp [snWidthOf, h18, hdrLen, ht]
      refine ⟨fun h h2 => decide_eq_true ?_, fun h => ?_⟩
      · omega
      · by_contra hh
        have := of_decide_eq_true (h (by omega))
        omega
    · simp [snWidthOf, h12, h18]

theorem parses_iff {s : State} {pdu : Octets} {w : SnWidth} {sn : Word} :
    s.Parses pdu w sn ↔ pdu.length ≤ s.params.maxPduLen.toNat ∧ s.lc = .active ∧
      checkWellformed s.cfg pdu.length = some w ∧ parseHeader (cfgSnWidth s.cfg) pdu = some sn := by
  constructor
  · intro h
    refine ⟨h.fits, h.active, ?_, h.number⟩
    have hm := mt malformed_iff.2 h.wellformed
    cases e : checkWellformed s.cfg pdu.length with
    | none => exact absurd e hm
    | some v =>
      have hv := checkWellformed_width e
      have hw := h.width
      rw [State.width, hv] at hw
      exact hw
  · rintro ⟨a, b, c, d⟩
    exact ⟨a, b, checkWellformed_width c, fun h => (by rw [malformed_iff.1 h] at c; cases c), d⟩

theorem accepts_iff {c : Crypto} {s : State} {pdu : Octets} {w : SnWidth} {sn : Word} {payload : Octets} :
    (s.Parses pdu w sn ∧ s.Admits c pdu w (rcvdCountOf w sn s.rxDeliv) ∧
      payload = rxPayload c w s pdu (rcvdCountOf w sn s.rxDeliv)) ↔ Accepts c s pdu w sn payload := by
  constructor
  · rintro ⟨p, a, rfl⟩
    obtain ⟨p1, p2, p3, p4⟩ := parses_iff.1 p
    exact ⟨p1, p2, p3, p4, by simp [securityRx, a.authentic], by have := a.fresh; bv_omega,
      Buffer.not_holds_iff.2 a.unbuffered, by simpa [Buffer.full] using a.room⟩
  · intro h
    have hs := h.security
    simp only [securityRx, Prod.mk.injEq] at hs
    exact ⟨parses_iff.2 ⟨h.fits, h.active, h.wellformed, h.header⟩,
      ⟨hs.1, by have := h.notStale; bv_omega, Buffer.not_holds_iff.1 h.notDuplicate, by simpa [Buffer.full] using h.notFull⟩,
      hs.2.symm⟩

end Sys2Proof.Machine
end

