-- ==== Sys2Proof/Laws/PerInstr.lean ====
section
/-! SUPPORT. Per-instruction families: the length of an encoding (30_encoding R81, R84, R87, R88, R95). -/

namespace Sys2Proof.Laws

/-- How many octets an instruction's encoding has: a command word and its operand data, or a header and the rest. -/
def encodedLength : Instr → Nat
  | .create => 4
  | .rxPdu pdu => 4 + pdu.length
  | .tExpire => 4
  | .release => 4
  | .csrw _ _ => 8
  | .csrr _ => 4
  | .pdu12 _ _ body => 2 + body.length
  | .pdu18 _ _ body => 3 + body.length

/-- The encoder writes as many octets as the format says. -/
def EncodeLength.Statement (i : Instr) : Prop := (encode i).length = encodedLength i

theorem EncodeLength.create : EncodeLength.Statement .create := rfl

theorem EncodeLength.rxPdu (pdu : Octets) : EncodeLength.Statement (.rxPdu pdu) := by
  simp [EncodeLength.Statement, encode, encodedLength, wordOctets]; omega

theorem EncodeLength.tExpire : EncodeLength.Statement .tExpire := rfl

theorem EncodeLength.release : EncodeLength.Statement .release := rfl

theorem EncodeLength.csrw (n : BitVec 8) (v : Word) : EncodeLength.Statement (.csrw n v) := rfl

theorem EncodeLength.csrr (n : BitVec 8) : EncodeLength.Statement (.csrr n) := rfl

theorem EncodeLength.pdu12 (r : BitVec 4) (sn : BitVec 12) (body : Octets) :
    EncodeLength.Statement (.pdu12 r sn body) := by
  simp [EncodeLength.Statement, encode, encodedLength, header12]; omega

theorem EncodeLength.pdu18 (r : BitVec 6) (sn : BitVec 18) (body : Octets) :
    EncodeLength.Statement (.pdu18 r sn body) := by
  simp [EncodeLength.Statement, encode, encodedLength, header18]; omega

end Sys2Proof.Laws
end

