-- ==== Sys2Proof/Laws/Pushes.lean ====
section
/-! SUPPORT. What each operation pushes, in the order of the global trace (20_memory R71), said once for each. -/

namespace Sys2Proof.Machine

theorem pushes_refl (s : State) : Pushes s s [] := ⟨by simp, by simp, by simp, by simp⟩

theorem pushes_trans {s t u : State} {p q : List Push} (h : Pushes s t p) (k : Pushes t u q) : Pushes s u (p ++ q) :=
  ⟨by rw [k.trace, h.trace, List.append_assoc], by rw [k.data, h.data, List.filterMap_append, List.append_assoc],
    by rw [k.ctrl, h.ctrl, List.filterMap_append, List.append_assoc],
    by rw [k.timer, h.timer, List.filterMap_append, List.append_assoc]⟩

/-- The queues and the trace are all that the relation reads. -/
theorem pushes_congr {s t s' t' : State} {p : List Push} (h : Pushes s t p)
    (hs : s'.ulData = s.ulData ∧ s'.ulCtrl = s.ulCtrl ∧ s'.timerCmd = s.timerCmd ∧ s'.trace = s.trace)
    (ht : t'.ulData = t.ulData ∧ t'.ulCtrl = t.ulCtrl ∧ t'.timerCmd = t.timerCmd ∧ t'.trace = t.trace) :
    Pushes s' t' p :=
  ⟨by rw [ht.2.2.2, hs.2.2.2, h.trace], by rw [ht.1, hs.1, h.data], by rw [ht.2.1, hs.2.1, h.ctrl],
    by rw [ht.2.2.1, hs.2.2.1, h.timer]⟩

/-- Pushing keeps each queue the latest of its pushes. -/
theorem traced_of_pushes {s t : State} {p : List Push} (h : Pushes s t p) (hs : s.Traced) : t.Traced := by
  have extend {α : Type} {q d : List α} (e : List α) (k : q <:+ d) : q ++ e <:+ d ++ e := by
    obtain ⟨x, rfl⟩ := k
    exact ⟨x, by simp⟩
  refine ⟨?_, ?_, ?_⟩ <;> rw [h.trace, List.filterMap_append]
  · rw [h.data]; exact extend _ hs.data
  · rw [h.ctrl]; exact extend _ hs.ctrl
  · rw [h.timer]; exact extend _ hs.timer

theorem push_pushes (s : State) (e : Push) : Pushes s (s.push e) [e] := by
  cases e <;> exact ⟨rfl, by simp [State.push, Push.data?], by simp [State.push, Push.ctrl?],
    by simp [State.push, Push.timer?]⟩

theorem startTimer_pushes (s : State) : Pushes s s.startTimer [.timer (.start s.tReord)] :=
  pushes_congr (push_pushes s _) ⟨rfl, rfl, rfl, rfl⟩ ⟨rfl, rfl, rfl, rfl⟩

theorem stopTimer_pushes (s : State) : Pushes s s.stopTimer [.timer .stop] :=
  pushes_congr (push_pushes s _) ⟨rfl, rfl, rfl, rfl⟩ ⟨rfl, rfl, rfl, rfl⟩

theorem raise_pushes (e : ErrorClass) (s : State) :
    Pushes s (s.raise e) (if e = .integrityFailure then [.ctrl .integrityFailure] else []) := by
  cases e
  case integrityFailure => exact pushes_congr (push_pushes s _) ⟨rfl, rfl, rfl, rfl⟩ ⟨rfl, rfl, rfl, rfl⟩
  all_goals exact pushes_congr (pushes_refl s) ⟨rfl, rfl, rfl, rfl⟩ ⟨rfl, rfl, rfl, rfl⟩

theorem drainBelow_pushes (t : Word) (s : State) :
    Pushes s (s.drainBelow t) ((Buffer.below s.buf t).map fun e => .data e.2) := by
  have none_of {α : Type} (f : Push → Option α) (hf : ∀ p, f (.data p) = none) (b : Buffer) :
      (b.map fun e => Push.data e.2).filterMap f = [] := by
    rw [List.filterMap_map, List.filterMap_eq_nil_iff]; exact fun e _ => hf e.2
  refine ⟨rfl, ?_, by rw [none_of _ fun _ => rfl]; simp, by rw [none_of _ fun _ => rfl]; simp⟩
  rw [List.filterMap_map]
  show s.ulData ++ (Buffer.below s.buf t).map Prod.snd = s.ulData ++ (Buffer.below s.buf t).filterMap (some ∘ Prod.snd)
  rw [List.filterMap_eq_map]

theorem deliverNext_pushes (p : Octets) (s : State) : Pushes s (s.deliverNext p) [.data p] :=
  pushes_congr (push_pushes s _) ⟨rfl, rfl, rfl, rfl⟩ ⟨rfl, rfl, rfl, rfl⟩

theorem consecutiveDrain_pushes (s : State) : ∃ pushed, Pushes s s.consecutiveDrain pushed :=
  consecutiveDrain_induction (P := fun s t => ∃ pushed, Pushes s t pushed) (fun s _ => ⟨[], pushes_refl s⟩)
    (fun s p _ ⟨_, h⟩ => ⟨_, pushes_trans (deliverNext_pushes p s) h⟩) s

theorem expiryDrain_pushes (s : State) : ∃ pushed, Pushes s s.expiryDrain pushed := by
  obtain ⟨_, h⟩ := consecutiveDrain_pushes { s.drainBelow s.rxReord with rxDeliv := s.rxReord }
  exact ⟨_, pushes_trans (drainBelow_pushes s.rxReord s)
    (pushes_congr h ⟨rfl, rfl, rfl, rfl⟩ ⟨rfl, rfl, rfl, rfl⟩)⟩

theorem expiryBody_pushes (s : State) : ∃ pushed, Pushes s s.expiryBody.1 pushed := by
  obtain ⟨_, h⟩ := expiryDrain_pushes s
  rcases expiryBody_cases s with ⟨_, e⟩ | ⟨_, _, e⟩ | ⟨_, _, e⟩ <;> rw [e]
  · exact ⟨_, h⟩
  · exact ⟨_, pushes_congr h ⟨rfl, rfl, rfl, rfl⟩ ⟨rfl, rfl, rfl, rfl⟩⟩
  · exact ⟨_, pushes_trans h (startTimer_pushes _)⟩

theorem stopIfDue_pushes (s : State) : ∃ pushed, Pushes s s.stopIfDue pushed := by
  rcases stopIfDue_cases s with ⟨_, _, e⟩ | ⟨_, e⟩ <;> rw [e]
  · exact ⟨_, stopTimer_pushes s⟩
  · exact ⟨_, pushes_refl s⟩

theorem startIfNeeded_pushes (s : State) : ∃ pushed, Pushes s s.startIfNeeded.1 pushed := by
  rcases startIfNeeded_cases s with ⟨_, e⟩ | ⟨_, e⟩ | ⟨_, _, _, _, e⟩ | ⟨_, _, _, e⟩ <;> rw [e]
  · exact ⟨_, pushes_refl s⟩
  · obtain ⟨_, h⟩ := expiryBody_pushes { s with rxReord := s.rxNext }
    exact ⟨_, pushes_congr h ⟨rfl, rfl, rfl, rfl⟩ ⟨rfl, rfl, rfl, rfl⟩⟩
  · exact ⟨_, startTimer_pushes s⟩
  · exact ⟨_, pushes_refl s⟩

theorem timerManagement_pushes (s : State) : ∃ pushed, Pushes s s.timerManagement.1 pushed := by
  obtain ⟨_, h⟩ := stopIfDue_pushes s
  obtain ⟨_, k⟩ := startIfNeeded_pushes s.stopIfDue
  exact ⟨_, pushes_trans h k⟩

theorem acceptPdu_pushes (payload : Octets) (s : State) : ∃ pushed, Pushes s (s.acceptPdu payload) pushed := by
  obtain ⟨_, h⟩ : ∃ pushed, Pushes s (s.insertPdu payload).drainIfNext pushed := by
    unfold State.drainIfNext
    split
    · obtain ⟨_, h⟩ := consecutiveDrain_pushes (s.insertPdu payload)
      exact ⟨_, pushes_congr h ⟨rfl, rfl, rfl, rfl⟩ ⟨rfl, rfl, rfl, rfl⟩⟩
    · exact ⟨_, pushes_congr (pushes_refl s) ⟨rfl, rfl, rfl, rfl⟩ ⟨rfl, rfl, rfl, rfl⟩⟩
  obtain ⟨_, k⟩ := timerManagement_pushes (s.insertPdu payload).drainIfNext
  exact ⟨_, pushes_congr (pushes_trans h k) ⟨rfl, rfl, rfl, rfl⟩ ⟨rfl, rfl, rfl, rfl⟩⟩

end Sys2Proof.Machine
end

