-- ==== Sys2Proof/Tests/Slice0.lean ====
section
/-! SUPPORT. The model's own tests. Every expected value is the spec's (95_test_vectors, or an example of a rule), or a
hand calculation from a rule; the witnesses show that the hypotheses of each statement can be met. -/

namespace Sys2Proof.Tests

open Sys2Proof Sys2Proof.Machine

-- One test after the other: the kernel evaluations below are long, and many at once take too much memory.
set_option Elab.async false

/-! ### WellFormed refuses -/

theorem test_wf_refuses_oversized_pdu : (Instr.rxPdu (List.replicate 65536 0#8)).wf = false := by
  rw [Instr.wf, List.length_replicate]; rfl

theorem test_wf_refuses_pdu12_without_body : (Instr.pdu12 0 5 []).wf = false := by decide

theorem test_wf_refuses_oversized_pdu12 : (Instr.pdu12 0 5 (List.replicate 65534 0#8)).wf = false := by
  rw [Instr.wf, List.length_replicate, Bool.and_eq_false_iff]; exact .inr rfl

theorem test_wf_refuses_pdu18_without_body : (Instr.pdu18 0 5 []).wf = false := by decide

theorem test_wf_refuses_oversized_pdu18 : (Instr.pdu18 0 5 (List.replicate 65533 0#8)).wf = false := by
  rw [Instr.wf, List.length_replicate, Bool.and_eq_false_iff]; exact .inr rfl

/-! ### Decoding of words written out from the spec (30_encoding R81, R87, R88, R96; V1, V2, V23, P2) -/

theorem test_decode_create : decode [0x01#8, 0#8, 0#8, 0#8] = .command .create [] := by decide

theorem test_decode_create_ignores_fields :
    decode [0x01#8, 0x77#8, 0xFF#8, 0xFE#8, 0x99#8] = .command .create [0x99#8] := by decide

theorem test_decode_rx_pdu :
    decode [0x02#8, 0#8, 0#8, 0x03#8, 0x80#8, 0x00#8, 0xAA#8, 0x03#8] =
      .command (.rxPdu [0x80#8, 0x00#8, 0xAA#8]) [0x03#8] := by decide

theorem test_decode_rx_pdu_empty : decode [0x02#8, 0#8, 0#8, 0#8] = .command (.rxPdu []) [] := by decide

theorem test_decode_t_expire : decode [0x03#8, 0#8, 0#8, 0#8] = .command .tExpire [] := by decide

theorem test_decode_release : decode [0x04#8, 0#8, 0#8, 0#8] = .command .release [] := by decide

theorem test_decode_csrw :
    decode [0x10#8, 0x04#8, 0#8, 0#8, 0x95#8, 0x2C#8, 0x49#8, 0x10#8] = .command (.csrw 4#8 0x952C4910#32) [] := by
  decide

theorem test_decode_csrr : decode [0x11#8, 0x17#8, 0#8, 0#8] = .command (.csrr 23#8) [] := by decide

theorem test_decode_pdu12 : decodePdu 12#6 [0x8F#8, 0xA0#8, 0x55#8] = .pdu (.pdu12 0x8#4 0xFA0#12 [0x55#8]) := by decide

theorem test_decode_pdu18 :
    decodePdu 18#6 [0x82#8, 0x01#8, 0x02#8, 0x55#8] = .pdu (.pdu18 0x20#6 0x20102#18 [0x55#8]) := by decide

theorem test_decode_pdu_too_short : decodePdu 18#6 [0x80#8, 0x00#8, 0x05#8] = .tooShort := by decide

theorem test_decode_pdu_width : decodePdu 13#6 [0x80#8, 0x00#8, 0xAA#8, 0xBB#8] = .unsupportedWidth := by decide

theorem test_decode_reserved : decode [0xFF#8, 0x12#8, 0x34#8, 0x56#8] = .reservedOpcode 0xFF#8 [] := by decide

theorem test_decode_incomplete : decode [0x02#8, 0#8, 0#8, 0x03#8, 0x80#8] = .incomplete := by decide

theorem test_table_rows :
    decodeTableWord 32 0x01000000 = some .create ∧ decodeTableWord 32 0x02000002 = some (.rxPdu [0#8, 0#8]) ∧
    decodeTableWord 32 0x03000000 = some .tExpire ∧ decodeTableWord 32 0x04000000 = some .release ∧
    decodeTableWord 32 0x10110000 = some (.csrw 17#8 0#32) ∧ decodeTableWord 32 0x11120000 = some (.csrr 18#8) ∧
    decodeTableWord 16 0x8FA0 = some (.pdu12 8#4 0xFA0#12 [0#8, 0#8, 0#8, 0#8]) ∧
    decodeTableWord 24 0x820102 = some (.pdu18 0x20#6 0x20102#18 [0#8, 0#8, 0#8, 0#8]) := by decide

/-! ### Small states -/

/-- "UP12" of 95_test_vectors: W = 12, user-plane, no integrity, no ciphering, `T_REORD = 100`, freshly created. -/
def up12 : State := { State.reset with cfg := 0x8C, tReord := 100, lc := .active }

/-- The same with W = 18 (V16). -/
def up18 : State := { up12 with cfg := 0x92 }

/-- `s` with the given reception state. -/
def placed (s : State) (next deliv reord : Word) (running : Bool) (buf : Buffer) : State :=
  { s with rxNext := next, rxDeliv := deliv, rxReord := reord, timerRunning := running, buf := buf }

/-- The state after the second command of Scenario B: COUNT 1 is missing, COUNT 2 waits. -/
def waiting : State := placed up12 3 1 3 true [(2, [0xA2#8])]

/-- What 95_test_vectors writes of a state: `(RX_NEXT, RX_DELIV, RX_REORD, TIMER_RUNNING, keys(BUF))` and `RESULT`. -/
def view (s : State) : Word × Word × Word × Bool × List Word × ResultCode :=
  (s.rxNext, s.rxDeliv, s.rxReord, s.timerRunning, s.buf.map Prod.fst, s.result)

/-- The integrity key of V38 to V43. -/
def keyInt : Key128 := 0x2BD6459F82C5B300952C49104881FF48

/-- The ciphering key of V38 to V40. -/
def keyEnc : Key128 := 0xD3C5D592327FB11C4035C6680AF8C6D1

/-- The state of V38 to V40 with configuration `cfg`. -/
def secured (cfg : Word) : State := { placed up12 5 5 0 false [] with cfg := cfg, kUpInt := keyInt, kUpEnc := keyEnc }

/-! ### The instructions, each on a small state -/

/-- 45_lifecycle R201, example; V24 for the warning. -/
theorem test_create_result :
    (afterExec .create { State.reset with cfg := 0xCC, tReord := 0xFFFFFFFF }).statusWord = 0x9 ∧
    (afterExec .create { State.reset with cfg := 0xCC, tReord := 0xFFFFFFFF }).result = .okCfgWarn := by decide

theorem test_create_twice_is_ignored : (afterExec .create waiting).result = .ignored := by decide

/-- V14, last command: a partial drain, a stop and a start in one command. -/
theorem test_rx_pdu_drains_stops_restarts :
    let s := placed up12 6 1 3 true [(2, [0xA2#8]), (3, [0xA3#8]), (5, [0xA5#8])]
    let t := afterExec (.rxPdu [0x80#8, 0x01#8, 0xA1#8]) s
    view t = (6, 4, 6, true, [5], .ok) ∧ t.ulData = [[0xA1#8], [0xA2#8], [0xA3#8]] ∧
      t.timerCmd = [.stop, .start 100] ∧
      t.trace = [.data [0xA1#8], .data [0xA2#8], .data [0xA3#8], .timer .stop, .timer (.start 100)] := by decide +kernel

/-- V47, third command: the InternalFault after a COUNT wrapped. -/
theorem test_rx_pdu_internal_fault :
    let s := placed { up12 with tReord := 0 } 0xFFFFF801 0xFFFFF801 0xFFFFF801 false [(0xFFFFFFFF, [0xEF#8])]
    let t := afterExec (.rxPdu [0x8F#8, 0xFE#8, 0xEE#8]) s
    view t = (0xFFFFFFFF, 0, 0xFFFFFFFF, false, [], .internalFault) ∧ t.lc = .faulted ∧
      t.ulData = [[0xEE#8], [0xEF#8]] := by decide +kernel

/-- V21, first expiry: one delivery below `RX_REORD`, then a restart. -/
theorem test_t_expire_restarts :
    let s := placed up12 7 0 2 true [(1, [0xA1#8]), (3, [0xA3#8]), (4, [0xA4#8]), (6, [0xA6#8])]
    view (afterExec .tExpire s) = (7, 2, 7, true, [3, 4, 6], .ok) ∧
      (afterExec .tExpire s).ulData = [[0xA1#8]] := by decide +kernel

/-- V22: the consecutive drain goes on past `RX_REORD`. -/
theorem test_t_expire_drains_on :
    let s := placed up12 4 0 2 true [(1, [0xA1#8]), (2, [0xA2#8]), (3, [0xA3#8])]
    view (afterExec .tExpire s) = (4, 4, 2, false, [], .ok) := by decide +kernel

/-- 45_lifecycle R203, example: `STOP` is pushed, COUNT 2 is not delivered. -/
theorem test_release_stops_and_discards :
    let t := afterExec .release waiting
    view t = (0, 0, 0, false, [], .ok) ∧ t.lc = .idle ∧ t.timerCmd = [.stop] ∧ t.ulData = [] := by decide

/-- V23: `RELEASE` after reset. -/
theorem test_release_idle_is_ignored : (afterExec .release State.reset).result = .ignored := by decide

/-- V23: bits 31:20 are discarded. -/
theorem test_csrw_cfg_masks : (afterExec (.csrw 0 0xFFF0008C) State.reset).cfg = 0x8C := by decide

/-- P2: the third word of a key; V23: number 24. -/
theorem test_csrw_key_word :
    (afterExec (.csrw 4 0x952C4910) State.reset).kCpInt = 0x0000000000000000952C491000000000#128 ∧
    (afterExec (.csrw 24 0) State.reset).result = .illegalCmd := by decide

/-- V24: `STATUS` reads 9 with the entity ACTIVE and `CFG_WARN` set. -/
theorem test_csrr_status :
    (afterExec (.csrr 18) { up12 with cfgWarn := true }).completions = [⟨.ok, some 9⟩] := by decide

/-- V23: `RESULT` reads the code of the command before. -/
theorem test_csrr_result :
    (afterExec (.csrr 23) { State.reset with result := .illegalCmd }).completions = [⟨.ok, some 7⟩] := by decide

/-- The source's boundary example (S-F). -/
theorem test_pdu12_crosses_window :
    view (afterExec (.pdu12 8 10 [0x55#8]) (placed up12 4000 4000 0 false [])) =
      (0x100B, 0xFA0, 0x100B, true, [0x100A], .ok) := by decide +kernel

/-- V12, second command: a buffered COUNT again, with another payload. -/
theorem test_pdu12_duplicate : view (afterExec (.pdu12 8 2 [0xEE#8]) waiting) = (3, 1, 3, true, [2], .droppedDup) := by
  decide +kernel

/-- V16, third command. -/
theorem test_pdu18_buffers :
    view (afterExec (.pdu18 0x20 0x1FFFF [0xBF#8]) (placed up18 2 2 0 false [])) =
      (0x20000, 2, 0x20000, true, [0x1FFFF], .ok) := by decide +kernel

/-- V3d: a PDU of exactly the header's length. -/
theorem test_pdu18_malformed : (afterExec (.pdu18 0x20 5 []) up18).result = .malformed := by decide +kernel

/-! ### The step -/

/-- V23: a reserved opcode takes no operand data. -/
theorem test_step_reserved :
    step { State.reset with port := [0x05#8, 0#8, 0#8, 0#8, 0x01#8] } =
      .next { State.reset with port := [0x01#8], result := .illegalCmd, completions := [⟨.illegalCmd, none⟩] } := rfl

/-- A placed table row is what the next step runs (log 5): `CREATE`, and a `PDU12` that is accepted. -/
theorem test_step_runs_placed_rows :
    (match step (State.reset.withFetchWord 32 0x01000000) with | .next t => t.lc | _ => .idle) = .active ∧
    (match step (State.reset.withFetchWord 16 0x8000) with | .next t => t.rxNext | _ => 0) = 1 := by decide +kernel

/-! ### The window rule: V5 to V10 -/

/-- Rows (RX_DELIV, SN) with W = 12, and their RCVD_COUNTs. -/
theorem test_window_rule_12 :
    ([(0xFA0, 10), (0xFA0, 1952), (0xFA0, 1951), (0xFA0, 4095), (0x1005, 4090), (0x1005, 2052), (0x1005, 2053),
      (0, 2047), (0, 2048), (0x1800, 0), (0x1801, 0), (0xFFFFFFA0, 10), (0xFFFFF005, 4090)] : List (Word × Word)).map
      (fun x => rcvdCountOf .w12 x.2 x.1) =
    [0x100A, 0x7A0, 0x179F, 0xFFF, 0xFFA, 0x1804, 0x805, 0x7FF, 0xFFFFF800, 0x1000, 0x2000, 0xA, 0xFFFFEFFA] := by
  decide +kernel

/-- The same with W = 18. -/
theorem test_window_rule_18 :
    ([(0x3FFF0, 5), (0x40005, 262128), (0x20000, 0), (0x20001, 0), (0, 131071), (0, 131072)] :
      List (Word × Word)).map (fun x => rcvdCountOf .w18 x.2 x.1) =
    [0x40005, 0x3FFF0, 0, 0x40000, 0x1FFFF, 0xFFFE0000] := by
  decide +kernel

/-! ### Witnesses: the hypotheses of each statement, met together by concrete states and operands

`witness_<Name>` belongs to `Obligations.<Name>`. A clause of a statement has its own conjunct, at a boundary of its range
where it has one. -/

/-- An idle block whose `CREATE` warns (V24). -/
def odd : State := { State.reset with cfg := 0xCC, tReord := 0xFFFFFFFF }

/-- A `KS` of zeros and a constant `MAC`: they meet the assumptions. -/
def zeroCrypto : Crypto := ⟨fun _ _ _ _ _ n => List.replicate n 0, fun _ _ _ _ _ _ => ⟨0, 0, 0, 0⟩⟩

theorem zeroCrypto_lawful : zeroCrypto.Lawful where
  length _ _ _ _ _ n := List.length_replicate
  stable _ _ _ _ _ n m h := by simp [zeroCrypto, List.take_replicate, h]

/-- `s` with these octets on the port. -/
def onPort (port : Octets) (s : State) : State := { s with port := port }

/-- An entity whose `MAX_PDU_LEN` is 3. -/
def tight : State := { up12 with params := ⟨3, 1⟩ }

/-- PDUs of 95_test_vectors: SN 0, 1 and 2 of a 12-bit bearer. -/
def pdu0 : Octets := [0x80#8, 0x00#8, 0xA0#8]

def pdu1 : Octets := [0x80#8, 0x01#8, 0xA1#8]

def pdu2 : Octets := [0x80#8, 0x02#8, 0xA2#8]

/-- Scenario D: user-plane, integrity with algorithm 2, ciphering off; and a PDU with an altered octet. -/
def checked : State := { up12 with cfg := 0x0002438C, kUpInt := keyInt }

/-- SN 0 on an 18-bit bearer. -/
def pdu18 : Octets := [0x80#8, 0x00#8, 0x00#8, 0xA0#8]

def forged : Octets := [0xC0#8, 0x00#8, 0xA0#8, 0x85#8, 0x35#8, 0x37#8, 0x2D#8]

/-- 2048 entries from COUNT `0xFFFFF800` on: a full buffer, as an SN under HFN 0 can leave it. -/
def crowd : Buffer := (List.range 2048).map fun i => (BitVec.ofNat 32 (0xFFFFF800 + i), [])

def full : State := placed up12 0 0 0 false crowd

theorem up12_sound : up12.Sound where
  canonical := .nil
  cfgReserved := by decide
  capacity w _ := by cases w <;> decide
  idleQuiet h := absurd h (by decide)
  timerFinite h := absurd h (by decide)
  traced := ⟨List.nil_suffix, List.nil_suffix, List.nil_suffix⟩

theorem up12_ordered : up12.Ordered where
  delivNext := by decide
  keys := by decide
  timer h := absurd h (by decide)
  near w _ := by cases w <;> decide
  settled _ _ _ := rfl

theorem waiting_sound : waiting.Sound where
  canonical := by decide
  cfgReserved := by decide
  capacity w _ := by cases w <;> decide
  idleQuiet h := absurd h (by decide)
  timerFinite _ := by decide
  traced := ⟨List.nil_suffix, List.nil_suffix, List.nil_suffix⟩

theorem waiting_ordered : waiting.Ordered where
  delivNext := by decide
  keys := by decide
  timer _ := by decide
  near w _ := by cases w <;> decide
  settled _ _ h := absurd h (by decide)

theorem sound_onPort {s : State} (port : Octets) (h : s.Sound) : (onPort port s).Sound :=
  ⟨h.canonical, h.cfgReserved, h.capacity, h.idleQuiet, h.timerFinite,
    ⟨h.traced.data, h.traced.ctrl, h.traced.timer⟩⟩

theorem ordered_onPort {s : State} (port : Octets) (h : s.Ordered) : (onPort port s).Ordered :=
  ⟨h.delivNext, h.keys, h.timer, h.near, h.settled⟩

/-- `NoWrap` from the width and the SN a PDU has. -/
theorem noWrap_of {s : State} {pdu : Octets} {w : SnWidth} {sn : Word} (hw : s.width = some w)
    (hs : parseHeader (cfgSnWidth s.cfg) pdu = some sn)
    (h : (countHfn w s.rxDeliv = 0 → sn.toNat < countSn w s.rxDeliv + window w) ∧
      rcvdCountOf w sn s.rxDeliv ≠ 0xFFFFFFFF#32) : s.NoWrap pdu := by
  intro v x hv hx
  rw [hw] at hv; rw [hs] at hx
  cases hv; cases hx
  exact h

theorem waiting_noWrap : waiting.NoWrap pdu1 :=
  noWrap_of (w := .w12) (sn := 1) (by decide) (by decide) (by decide +kernel)

/-- The next expected PDU enters an empty buffer. -/
theorem up12_parses : up12.Parses pdu0 .w12 0 := parses_iff.2 (by decide +kernel)

theorem up12_admits : up12.Admits machineCrypto pdu0 .w12 (rcvdCountOf .w12 0 up12.rxDeliv) :=
  ⟨by decide, by decide +kernel, by decide, by decide⟩

/-- The missing PDU of Scenario B. -/
theorem waiting_parses : waiting.Parses pdu1 .w12 1 := parses_iff.2 (by decide +kernel)

theorem waiting_admits : waiting.Admits machineCrypto pdu1 .w12 (rcvdCountOf .w12 1 waiting.rxDeliv) :=
  ⟨by decide, by decide +kernel, by decide +kernel, by decide⟩

theorem witness_CommandFieldsSelectTheCommand :
    (0 : Nat) ≤ ([] : Octets).length ∧ pdu0.length ≤ pdu0.length ∧ pdu0.length ≤ (pdu0 ++ pdu0).length := by decide

theorem witness_DecodeAndEncodeAgree :
    (Instr.rxPdu (List.replicate 65535 0)).wf = true ∧ (Instr.rxPdu []).isCommand = true ∧
    (Instr.pdu12 15 4095 [0]).wf = true ∧ (Instr.pdu12 0 0 (List.replicate 65533 0)).wf = true ∧
    (Instr.pdu18 63 262143 [0]).wf = true ∧ (Instr.pdu18 0 0 (List.replicate 65532 0)).wf = true ∧
    decodePdu 12#6 pdu0 = .pdu (.pdu12 8 0 [0xA0]) ∧ decodePdu 18#6 pdu18 = .pdu (.pdu18 0x20 0 [0xA0]) := by
  refine ⟨?_, by decide, by decide, ?_, by decide, ?_, by decide, by decide⟩
  · rw [Instr.wf, List.length_replicate]; rfl
  · rw [Instr.wf, List.length_replicate, Bool.and_eq_true]; exact ⟨rfl, rfl⟩
  · rw [Instr.wf, List.length_replicate, Bool.and_eq_true]; exact ⟨rfl, rfl⟩

theorem witness_HeaderBitsAboveSnAreIgnored :
    (cfgBearerType up12.cfg = 1#1 ∧ cfgIntEn up12.cfg = 0#1 ∧ cfgSnWidth up12.cfg = 12#6) ∧
    (cfgBearerType up18.cfg = 1#1 ∧ cfgIntEn up18.cfg = 0#1 ∧ cfgSnWidth up18.cfg = 18#6) := by decide

theorem witness_StepRunsTheDecodedCommand :
    decode (onPort (encode .create) up12).port = .command .create [] ∧
    ((Instr.rxPdu []).wf = true ∧ (Instr.rxPdu []).isCommand = true ∧
      (onPort [0x02#8, 0#8, 0#8, 0#8, 0x03#8] up12).port = encode (.rxPdu []) ++ [0x03#8]) ∧
    ((Instr.pdu12 8 0 [0xA0]).wf = true ∧ (Instr.pdu12 8 0 [0xA0]).isCommand = false ∧
      (onPort [0x02#8, 0#8, 0#8, 0x03#8, 0x80#8, 0#8, 0xA0#8] up12).port =
        encode (.rxPdu (encode (.pdu12 8 0 [0xA0]))) ++ []) ∧
    ((Instr.pdu18 0x20 0 [0xA0]).wf = true ∧ (Instr.pdu18 0x20 0 [0xA0]).isCommand = false ∧
      (onPort [0x02#8, 0#8, 0#8, 0x04#8, 0x80#8, 0#8, 0#8, 0xA0#8] up18).port =
        encode (.rxPdu (encode (.pdu18 0x20 0 [0xA0]))) ++ []) ∧
    decode State.reset.port = .incomplete ∧
    decode (onPort [0x10#8, 0#8, 0#8, 0#8, 1#8, 2#8, 3#8] up12).port = .incomplete := by
  decide

theorem witness_ReservedOpcodeIsIllegal :
    ((0x00#8 : Octet) ≠ 0x01#8 ∧ (0x00#8 : Octet) ≠ 0x02#8 ∧ (0x00#8 : Octet) ≠ 0x03#8 ∧
      (0x00#8 : Octet) ≠ 0x04#8 ∧ (0x00#8 : Octet) ≠ 0x10#8 ∧ (0x00#8 : Octet) ≠ 0x11#8) ∧
    decode (onPort [0x05#8, 0#8, 0#8, 0#8] up12).port = .reservedOpcode 0x05#8 [] ∧
    decode (onPort [0xFF#8, 0#8, 0#8, 0#8, 0x03#8] up12).port = .reservedOpcode 0xFF#8 [0x03#8] := by decide

theorem witness_EntitiesAreIsolated :
    stepEntity 0 [onPort (encode .release) up12, up18] = .next [afterExec .release up12, up18] ∧
    stepEntity 2 [up12, up18] = .next [up12, up18] := ⟨rfl, rfl⟩

theorem witness_CreateStartsAnEntity :
    up12.lc ≠ .idle ∧ (State.reset.lc = .idle ∧ (false = true ↔ State.reset.tReord = 0xFFFFFFFF#32 ∧
      State.reset.cfg.extractLsb' 6 1 = State.reset.params.rlcInorderMode)) ∧
    ((odd.lc = .idle ∧ (true = true ↔ odd.tReord = 0xFFFFFFFF#32 ∧
      odd.cfg.extractLsb' 6 1 = odd.params.rlcInorderMode))) := by
  decide

theorem witness_ReleaseEndsTheEntity : State.reset.lc = .idle ∧ waiting.lc ≠ .idle := by decide

theorem witness_ExpiryAfterReleaseIsDiscarded :
    exec .release waiting = .next (afterExec .release waiting) ∧ exec .release up12 = .next (afterExec .release up12) :=
  ⟨rfl, rfl⟩

theorem witness_CsrwWritesOneRegister :
    24 ≤ (24#8 : BitVec 8).toNat ∧ (18 ≤ (18#8 : BitVec 8).toNat ∧ (23#8 : BitVec 8).toNat < 24) ∧
    ((17#8 : BitVec 8).toNat < 18 ∧ up12.lc ≠ .idle) ∧ ((0#8 : BitVec 8).toNat = 0 ∧ State.reset.lc = .idle) ∧
    ((1#8 : BitVec 8).toNat = 1 ∧ State.reset.lc = .idle) ∧
    (2 ≤ (2#8 : BitVec 8).toNat ∧ (17#8 : BitVec 8).toNat < 18 ∧ State.reset.lc = .idle) := by decide

theorem witness_CsrrReturnsTheRegister :
    24 ≤ (24#8 : BitVec 8).toNat ∧ 24 ≤ (255#8 : BitVec 8).toNat ∧
    (2 ≤ (2#8 : BitVec 8).toNat ∧ (2#8 : BitVec 8).toNat < 18) ∧
    (2 ≤ (17#8 : BitVec 8).toNat ∧ (17#8 : BitVec 8).toNat < 18) ∧
    (0#8 : BitVec 8).toNat = 0 ∧ (1#8 : BitVec 8).toNat = 1 ∧ (18#8 : BitVec 8).toNat = 18 ∧
    (19#8 : BitVec 8).toNat = 19 ∧ (20#8 : BitVec 8).toNat = 20 ∧ (21#8 : BitVec 8).toNat = 21 ∧ (22#8 : BitVec 8).toNat = 22 ∧
    (23#8 : BitVec 8).toNat = 23 := by decide

theorem witness_CfgwStoresEveryField : State.reset.lc = .idle := by decide

theorem witness_KeywWritesTheKey : State.reset.lc = .idle ∧ (afterExec .release waiting).lc = .idle := by decide

theorem witness_OversizedPduIsIllegal :
    (Instr.rxPdu pdu18).pdu? = some pdu18 ∧ (Instr.pdu18 0x20 0 [0xA0]).pdu? = some pdu18 ∧
      tight.params.maxPduLen.toNat < pdu18.length := by decide

theorem witness_PduWithoutEntityIsIgnored :
    (Instr.rxPdu pdu0).pdu? = some pdu0 ∧ (Instr.pdu12 8 0 [0xA0]).pdu? = some pdu0 ∧
      pdu0.length ≤ (afterExec .release tight).params.maxPduLen.toNat ∧
      (afterExec .release tight).lc ≠ .active := by decide

theorem witness_MalformedPduIsDropped :
    (∀ x ∈ ([(0x8C, 2), (0x0C, 5), (0xCC, 0), (0x92, 3), (0x12, 6), (0x8D, 9), (0, 7)] : List (Word × Nat)),
      (List.replicate x.2 0#8).length ≤ up12.params.maxPduLen.toNat ∧ ({ up12 with cfg := x.1 } : State).lc = .active ∧
        ({ up12 with cfg := x.1 } : State).Malformed (List.replicate x.2 0)) ∧
    (exec (.rxPdu [0#8, 0#8]) up12 = .next (afterExec (.rxPdu [0#8, 0#8]) up12) ∧
      (afterExec (.rxPdu [0#8, 0#8]) up12).result = .malformed) := by
  refine ⟨?_, rfl, by decide⟩
  unfold State.Malformed
  decide

theorem witness_IntegrityFailureIsNotified :
    (Instr.rxPdu forged).pdu? = some forged ∧ checked.Parses forged .w12 0 ∧
      rxAuthentic machineCrypto .w12 checked forged (rcvdCountOf .w12 0 checked.rxDeliv) = false :=
  ⟨rfl, parses_iff.2 (by decide +kernel), by decide +kernel⟩

theorem witness_StaleAndDuplicatePdusAreDropped :
    (waiting.Parses pdu0 .w12 0 ∧
      rxAuthentic machineCrypto .w12 waiting pdu0 (rcvdCountOf .w12 0 waiting.rxDeliv) = true ∧
      rcvdCountOf .w12 0 waiting.rxDeliv < waiting.rxDeliv) ∧
    (waiting.Parses pdu2 .w12 2 ∧
      rxAuthentic machineCrypto .w12 waiting pdu2 (rcvdCountOf .w12 2 waiting.rxDeliv) = true ∧
      ¬ rcvdCountOf .w12 2 waiting.rxDeliv < waiting.rxDeliv ∧
      ∃ e ∈ waiting.buf, e.1 = rcvdCountOf .w12 2 waiting.rxDeliv) :=
  ⟨⟨parses_iff.2 (by decide +kernel), by decide, by decide +kernel⟩,
    parses_iff.2 (by decide +kernel), by decide, by decide +kernel, by decide +kernel⟩

theorem crowd_length : crowd.length = 2048 := by
  rw [crowd, List.length_map, List.length_range]

theorem crowd_high : ∀ e ∈ crowd, e.1 ≠ 1#32 := by
  intro e he
  obtain ⟨i, hi, rfl⟩ := List.mem_map.1 he
  have := List.mem_range.1 hi
  intro h
  have := congrArg BitVec.toNat h
  simp only [BitVec.toNat_ofNat] at this
  omega

theorem placed_cfg (b : Buffer) : (placed up12 0 0 0 false b).cfg = 0x8C#32 := rfl

theorem parses_any (b : Buffer) : (placed up12 0 0 0 false b).Parses pdu1 .w12 1 := by
  refine parses_iff.2 ⟨(by decide : pdu1.length ≤ (9003#16).toNat), rfl, ?_, ?_⟩ <;> rw [placed_cfg] <;> decide

theorem authentic_any (b : Buffer) : rxAuthentic machineCrypto .w12 (placed up12 0 0 0 false b) pdu1 1 = true := by
  have h : tagPresent 0x8C#32 = false := by decide
  rw [rxAuthentic, placed_cfg, h]
  rfl

theorem witness_FullBufferIsAnInternalFault :
    full.Parses pdu1 .w12 1 ∧ rxAuthentic machineCrypto .w12 full pdu1 (rcvdCountOf .w12 1 full.rxDeliv) = true ∧
      full.rxDeliv ≤ rcvdCountOf .w12 1 full.rxDeliv ∧ (∀ e ∈ full.buf, e.1 ≠ rcvdCountOf .w12 1 full.rxDeliv) ∧
      window .w12 ≤ full.buf.length := by
  have hc : rcvdCountOf .w12 1 full.rxDeliv = 1 := by
    show rcvdCountOf .w12 1 0 = 1
    decide +kernel
  have hb : full.buf = crowd := by rw [full, placed]
  have hd : full.rxDeliv = 0 := rfl
  rw [hc, hb, hd, crowd_length, full]
  exact ⟨parses_any crowd, authentic_any crowd, by decide, crowd_high, by decide⟩

theorem witness_RxPduAcceptsAndDelivers :
    (up12.Parses pdu0 .w12 0 ∧ up12.Admits machineCrypto pdu0 .w12 (rcvdCountOf .w12 0 up12.rxDeliv)) ∧
    (waiting.Parses pdu1 .w12 1 ∧ waiting.Admits machineCrypto pdu1 .w12 (rcvdCountOf .w12 1 waiting.rxDeliv)) :=
  ⟨⟨up12_parses, up12_admits⟩, waiting_parses, waiting_admits⟩

theorem witness_Pdu12AcceptsAndDelivers :
    cfgSnWidth up12.cfg = 12#6 ∧ up12.lc = .active ∧ 2 + [0xA0#8].length ≤ up12.params.maxPduLen.toNat ∧
      1 ≤ [0xA0#8].length ∧ (tagPresent up12.cfg = true → 4 ≤ [0xA0#8].length) ∧
      up12.Admits machineCrypto (header12 8 2047 ++ [0xA0#8]) .w12 (rcvdCountOf .w12 ((2047#12).setWidth 32) up12.rxDeliv) :=
  ⟨by decide, rfl, by decide, by decide, by decide, by decide, by decide +kernel, by decide, by decide⟩

theorem witness_Pdu18AcceptsAndDelivers :
    cfgSnWidth up18.cfg = 18#6 ∧ up18.lc = .active ∧ 3 + [0xA0#8].length ≤ up18.params.maxPduLen.toNat ∧
      1 ≤ [0xA0#8].length ∧ (tagPresent up18.cfg = true → 4 ≤ [0xA0#8].length) ∧
      up18.Admits machineCrypto (header18 0x20 131071 ++ [0xA0#8]) .w18
        (rcvdCountOf .w18 ((131071#18).setWidth 32) up18.rxDeliv) :=
  ⟨by decide, rfl, by decide, by decide, by decide, by decide, by decide +kernel, by decide, by decide⟩

/-- The middle branch at both its ends, the last SN below it and the first above it. -/
theorem witness_WindowRuleOnIntegers :
    ((4000#32).toNat = 0 * 2 ^ snBits .w12 + 4000 ∧ 4000 < 2 ^ snBits .w12) ∧
    (((1951#32).toNat : Int) < 4000 - (2 : Int) ^ (snBits .w12 - 1)) ∧
    (((5 : Nat) : Int) + (2 : Int) ^ (snBits .w12 - 1) ≤ ((2053#32).toNat : Int)) ∧
    (4000 - (2 : Int) ^ (snBits .w12 - 1) ≤ ((1952#32).toNat : Int) ∧
      ((1952#32).toNat : Int) < 4000 + (2 : Int) ^ (snBits .w12 - 1)) ∧
    ((5 : Int) - (2 : Int) ^ (snBits .w12 - 1) ≤ ((2052#32).toNat : Int) ∧
      ((2052#32).toNat : Int) < 5 + (2 : Int) ^ (snBits .w12 - 1)) := by decide +kernel

theorem witness_ReceivedCountIsTheNearest :
    ((4095#32).toNat < 2 ^ snBits .w12 ∧ countHfn .w12 0xFA0 = 0 ∧
      (4095#32).toNat < countSn .w12 0xFA0 + window .w12) ∧
    ((10#32).toNat < 2 ^ snBits .w12 ∧ countHfn .w12 0xFFFFF805 = 2 ^ hfnBits .w12 - 1 ∧
      countSn .w12 0xFFFFF805 ≤ (10#32).toNat + window .w12) := by decide +kernel

theorem witness_WindowCrossingMovesToTheNextHfn :
    ((0#32).toNat < 2 ^ 20 - 1 ∧ (4000#32).toNat = (0#32).toNat * 4096 + 4000) ∧
    ((0xFFFFE#32).toNat < 2 ^ 20 - 1 ∧ (0xFFFFEFA0#32).toNat = (0xFFFFE#32).toNat * 4096 + 4000) := by decide

theorem witness_DecipherIsAnAdditiveStream :
    zeroCrypto.Lawful ∧ algOf (cfgCiphAlg up12.cfg) = none ∧ algOf (cfgCiphAlg (secured 0xAE38C).cfg) = some .alg2 ∧
      2 < [0x14#8, 0xAF#8, 0x1A#8].length := ⟨zeroCrypto_lawful, by decide, by decide, by decide⟩

theorem witness_SecurityRxSplitsAndVerifies :
    zeroCrypto.Lawful ∧
    (hdrLen .w12 < pdu0.length ∧
      (cfgBearerType up12.cfg = 0#1 ∨ cfgIntEn up12.cfg = 1#1 → hdrLen .w12 + 4 ≤ pdu0.length) ∧
      cfgBearerType up12.cfg = 1#1 ∧ cfgIntEn up12.cfg = 0#1) ∧
    (hdrLen .w12 < (forged.take 6).length ∧
      (cfgBearerType checked.cfg = 0#1 ∨ cfgIntEn checked.cfg = 1#1 → hdrLen .w12 + 4 ≤ (forged.take 6).length) ∧
      cfgIntEn checked.cfg = 1#1) := ⟨zeroCrypto_lawful, by decide, by decide⟩

theorem witness_UnreadKeysDoNotMatter :
    ((secured 0xAE38C).withKeys 1 2 keyInt keyEnc).cipherKey = (secured 0xAE38C).cipherKey ∧
    ((secured 0xAE38C).withKeys 1 2 keyInt keyEnc).integrityKey = (secured 0xAE38C).integrityKey := by decide

theorem witness_BufferInsertAddsOneEntry :
    Buffer.wf waiting.buf ∧ Buffer.holds waiting.buf 1 = false ∧ Buffer.holds waiting.buf 3 = false := by decide

theorem witness_CanonicalBuffersAreEqual :
    let a := Buffer.insert (Buffer.insert [] 2 [0xA2#8]) 1 [0xA1#8]
    let b := Buffer.insert (Buffer.insert [] 1 [0xA1#8]) 2 [0xA2#8]
    Buffer.wf a ∧ Buffer.wf b ∧ ∀ k, Buffer.find a k = Buffer.find b k :=
  ⟨by decide, by decide, fun _ => rfl⟩

theorem witness_DrainBelowDeliversAscending : Buffer.wf waiting.buf ∧ Buffer.wf crowd := by
  refine ⟨by decide, ?_⟩
  rw [Buffer.wf, crowd, List.pairwise_map, List.pairwise_iff_getElem]
  intro i j hi hj hij
  simp only [List.length_range] at hi hj
  simp only [List.getElem_range]
  bv_omega

theorem witness_BufferIsNeverFullAtAnInsert :
    waiting.Sound ∧ waiting.Ordered ∧ waiting.width = some .w12 ∧
      (waiting.rxDeliv ≤ 1 ∧ (1#32).toNat < waiting.rxDeliv.toNat + window .w12 ∧ ∀ e ∈ waiting.buf, e.1 ≠ 1) ∧
      (waiting.rxDeliv ≤ 2048 ∧ (2048#32).toNat < waiting.rxDeliv.toNat + window .w12 ∧
        ∀ e ∈ waiting.buf, e.1 ≠ 2048) := ⟨waiting_sound, waiting_ordered, by decide, by decide, by decide⟩

theorem witness_TimerExpiryRunsTheBody :
    (State.reset.lc ≠ .active ∨ State.reset.timerRunning = false) ∧ (up12.lc ≠ .active ∨ up12.timerRunning = false) ∧
    (waiting.lc = .active ∧ waiting.timerRunning = true) := by decide

theorem witness_StartSetsReordToNext :
    exec (.rxPdu pdu1) up12 = .next (afterExec (.rxPdu pdu1) up12) ∧
    (afterExec (.rxPdu pdu1) up12).timerCmd = up12.timerCmd ++ [] ++ [.start 100] := ⟨rfl, by decide +kernel⟩

theorem witness_InfiniteDurationStartsNoTimer :
    let s := { up12 with tReord := 0xFFFFFFFF }
    s.lc = .active ∧ s.tReord = 0xFFFFFFFF#32 ∧ s.timerRunning = false ∧
      exec (.rxPdu pdu1) s = .next (afterExec (.rxPdu pdu1) s) := ⟨rfl, rfl, rfl, rfl⟩

/-- V19 and the last COUNT of the window, with a zero duration. -/
theorem witness_ZeroDurationSettlesAtOnce :
    let s := { up12 with tReord := 0 }
    let pdu := [0x87#8, 0xFF#8, 0xA0#8]
    s.Sound ∧ s.Ordered ∧ s.NoWrap pdu ∧ s.tReord = 0x00000000#32 ∧
      ∃ w sn, s.Parses pdu w sn ∧ s.Admits zeroCrypto pdu w (rcvdCountOf w sn s.rxDeliv) :=
  ⟨⟨.nil, by decide, fun w _ => by cases w <;> decide, fun h => absurd h (by decide), fun h => absurd h (by decide),
      ⟨List.nil_suffix, List.nil_suffix, List.nil_suffix⟩⟩,
    ⟨by decide, by decide, fun h => absurd h (by decide), fun w _ => by cases w <;> decide, fun _ _ _ => rfl⟩,
    noWrap_of (w := .w12) (sn := 2047) (by decide) (by decide) (by decide +kernel), rfl,
    .w12, 2047, parses_iff.2 (by decide +kernel), by decide, by decide +kernel, by decide, by decide⟩

/-- `waiting` with `T_EXPIRE`, and with the missing PDU, on the port. -/
theorem witness_TimerServiceIsAskedConsistently :
    ((onPort (encode .tExpire) waiting).Sound ∧ (onPort (encode .tExpire) waiting).lc = .active ∧
      decode (onPort (encode .tExpire) waiting).port = .command .tExpire [] ∧
      step (onPort (encode .tExpire) waiting) = .next (afterExec .tExpire waiting)) ∧
    ((onPort (encode (.rxPdu pdu1)) waiting).Sound ∧
      decode (onPort (encode (.rxPdu pdu1)) waiting).port = .command (.rxPdu pdu1) [] ∧
      step (onPort (encode (.rxPdu pdu1)) waiting) = .next (afterExec (.rxPdu pdu1) waiting)) :=
  ⟨⟨sound_onPort _ waiting_sound, rfl, rfl, rfl⟩, sound_onPort _ waiting_sound, rfl, rfl⟩

theorem witness_ResetAndCreationValues :
    waiting.environment .hardwareReset = State.reset ∧ State.reset.lc = .idle := by decide

theorem witness_ConfigurationIsFixedWhileAnEntityExists :
    exec (.csrw 0 0x8C) State.reset = .next (afterExec (.csrw 0 0x8C) State.reset) ∧
    exec (.csrw 0 0x8C) waiting = .next (afterExec (.csrw 0 0x8C) waiting) := ⟨rfl, rfl⟩

theorem witness_CountRegistersAreWrittenOnlyByReception :
    exec .create State.reset = .next (afterExec .create State.reset) ∧
    exec .tExpire waiting = .next (afterExec .tExpire waiting) := ⟨rfl, rfl⟩

theorem witness_OutputQueuesOnlyGrow :
    exec (.rxPdu pdu1) waiting = .next (afterExec (.rxPdu pdu1) waiting) ∧
    exec (.rxPdu forged) checked = .next (afterExec (.rxPdu forged) checked) := ⟨rfl, rfl⟩

theorem witness_LifecycleTransitions :
    exec .create State.reset = .next (afterExec .create State.reset) ∧
    exec .release waiting = .next (afterExec .release waiting) ∧
    exec (.rxPdu pdu1) full = .next (afterExec (.rxPdu pdu1) full) := ⟨rfl, rfl, rfl⟩

theorem witness_RejectionsArePrecise :
    ((afterExec (.rxPdu [0#8, 0#8]) up12).result = .malformed ∧ (afterExec (.rxPdu pdu0) waiting).result = .droppedStale ∧
      (afterExec (.rxPdu pdu2) waiting).result = .droppedDup ∧ (afterExec .create up12).result = .ignored ∧
      (afterExec (.csrr 24) up12).result = .illegalCmd) ∧
    (afterExec (.rxPdu forged) checked).result = .integFail := by decide +kernel

/-- The port holds the PDU that fills the gap. -/
def served : State := onPort (encode (.rxPdu pdu1)) waiting

theorem served_nextFits : served.NextFits := by
  intro pdu rest h
  have : decode served.port = .command (.rxPdu pdu1) [] := by decide
  rw [this] at h
  cases h
  exact waiting_noWrap

theorem witness_EveryStepKeepsSound :
    served.Sound ∧ step served = .next (afterExec (.rxPdu pdu1) waiting) := ⟨sound_onPort _ waiting_sound, rfl⟩

theorem witness_EveryStepKeepsOrdered :
    served.Sound ∧ served.Ordered ∧ served.NextFits ∧ step served = .next (afterExec (.rxPdu pdu1) waiting) :=
  ⟨sound_onPort _ waiting_sound, ordered_onPort _ waiting_ordered, served_nextFits, rfl⟩

theorem witness_EnvironmentKeepsInvariants : waiting.Sound ∧ waiting.Ordered := ⟨waiting_sound, waiting_ordered⟩

theorem witness_NoInternalFaultWithoutWrap :
    served.Sound ∧ served.Ordered ∧ served.NextFits ∧ step served = .next (afterExec (.rxPdu pdu1) waiting) ∧
      served.lc = .active ∧ decode served.port ≠ .incomplete :=
  ⟨sound_onPort _ waiting_sound, ordered_onPort _ waiting_ordered, served_nextFits, rfl, rfl, by decide⟩

/-- The PDU that fills the gap ends the trace: the timer is stopped. -/
theorem witness_CompleteTraceHasDeliveredAll :
    (served.Sound ∧ served.Ordered ∧ served.NextFits ∧ step served = .next (afterExec (.rxPdu pdu1) waiting)) ∧
    (afterExec (.rxPdu pdu1) waiting).lc = .active ∧ (afterExec (.rxPdu pdu1) waiting).tReord ≠ 0xFFFFFFFF#32 ∧
    (afterExec (.rxPdu pdu1) waiting).Complete :=
  ⟨⟨sound_onPort _ waiting_sound, ordered_onPort _ waiting_ordered, served_nextFits, rfl⟩, by decide +kernel,
    by decide +kernel, .inl (by decide +kernel)⟩

theorem witness_StepRelationTakesKsAndMac : served.Sound ∧ served.Ordered ∧ served.NextFits :=
  ⟨sound_onPort _ waiting_sound, ordered_onPort _ waiting_ordered, served_nextFits⟩

theorem witness_DeliveryIsInOrderAndExactlyOnce :
    (waiting.Sound ∧ waiting.Ordered ∧ waiting.NoWrap pdu1 ∧ waiting.lc = .active) ∧
    exec .tExpire waiting = .next (afterExec .tExpire waiting) :=
  ⟨⟨waiting_sound, waiting_ordered, waiting_noWrap, rfl⟩, rfl⟩

theorem witness_ResubmissionIsNeverDelivered :
    waiting.Sound ∧ waiting.Ordered ∧ waiting.NoWrap pdu1 ∧ (waiting.receive zeroCrypto pdu1).result = .ok :=
  ⟨waiting_sound, waiting_ordered, waiting_noWrap, by decide +kernel⟩

/-! ### The Security Engine and the annex algorithms -/

/-- V38. -/
theorem test_security_aes_aes :
    securityRx machineCrypto .w12 (secured 0xAE38C)
      [0x80#8, 0x05#8, 0x14#8, 0xAF#8, 0x1A#8, 0xAF#8, 0x0F#8, 0x4A#8, 0xC1#8, 0x24#8] 5 =
      (true, [0x11#8, 0x22#8, 0x33#8, 0x44#8]) := by decide +kernel

/-- V39. -/
theorem test_security_snow_zuc :
    securityRx machineCrypto .w12 (secured 0xDE38C)
      [0x80#8, 0x05#8, 0x5F#8, 0xBB#8, 0x60#8, 0x2A#8, 0xB2#8, 0xFD#8, 0x63#8, 0x47#8] 5 =
      (true, [0x11#8, 0x22#8, 0x33#8, 0x44#8]) := by decide +kernel

/-- V40. -/
theorem test_security_zuc_snow :
    securityRx machineCrypto .w12 (secured 0x7E38C)
      [0x80#8, 0x05#8, 0x5B#8, 0x16#8, 0x72#8, 0x5D#8, 0x07#8, 0x61#8, 0x08#8, 0xD5#8] 5 =
      (true, [0x11#8, 0x22#8, 0x33#8, 0x44#8]) := by decide +kernel

/-- V42: a control-plane bearer is checked with the control-plane key. -/
theorem test_security_control_plane :
    (securityRx machineCrypto .w12 { up12 with cfg := 0x2010C, kCpInt := keyInt, kUpInt := ~~~0 }
      [0x00#8, 0x00#8, 0xAA#8, 0xBB#8, 0xD7#8, 0x77#8, 0x2C#8, 0x6E#8] 0) = (true, [0xAA#8, 0xBB#8]) := by decide +kernel

/-- V43, fourth command: an altered `r` bit fails the check. -/
theorem test_security_covers_header_bits :
    (securityRx machineCrypto .w12 { up12 with cfg := 0x2438C, kUpInt := keyInt }
      [0xC0#8, 0x00#8, 0xA0#8, 0x85#8, 0x35#8, 0x37#8, 0x2D#8] 0).1 = false := by decide +kernel

/-- 46_alg_aes R223, FIPS 197 example. -/
theorem test_aes_block :
    Aes.encrypt 0x000102030405060708090A0B0C0D0E0F#128 0x00112233445566778899AABBCCDDEEFF#128 =
      0x69C4E0D86A7B0430D8CDB78070B4C55A#128 := by decide +kernel

/-- 46_alg_aes R227: CMAC of the empty message. -/
theorem test_cmac_empty :
    Aes.cmac 0x2B7E151628AED2A6ABF7158809CF4F3C#128 [] = 0xBB1D6929E95937287FA37D129B756746#128 := by decide +kernel

/-- V30. -/
theorem test_ks_aes :
    be (annexKs .alg2 keyEnc 0x398A59B4 0x15 1 20) = 0x71E57E24710EA81E6398B52BDA5F3F943EEDE9F6 := by decide +kernel

/-- V33. -/
theorem test_mac_aes :
    annexMac .alg2 keyInt 5 3 0 [0x80#8, 0x05#8, 0x11#8, 0x22#8, 0x33#8, 0x44#8] = wordTag 0x291DF8CD := by decide +kernel

/-- 47_alg_snow3g R247. -/
theorem test_snow3g_words :
    Snow3g.keystreamWords 2 (Snow3g.start 0x2BD6459F 0x82C5B300 0x952C4910 0x4881FF48 0xEA024714 0xAD5C4D84 0xDF1F9B25
      0x1C0BF45F) = [0xABEE9704, 0x7AC31373] := by decide +kernel

/-- V34. -/
theorem test_ks_snow3g :
    be (annexKs .alg1 keyInt 0x72A4F20F 0x0C 1 20) = 0xF22DB45B37E71C5B4EB6F404CD886C159DCA27B1 := by decide +kernel

/-- V35; 47_alg_snow3g R251. -/
theorem test_mac_snow3g :
    annexMac .alg1 keyInt 5 3 0 [0x80#8, 0x05#8, 0x11#8, 0x22#8, 0x33#8, 0x44#8] = wordTag 0xC11AE96B ∧
    annexMac .alg1 keyInt 0x38A6F056 0x1F 0
      [0x33#8, 0x32#8, 0x34#8, 0x62#8, 0x63#8, 0x39#8, 0x38#8, 0x61#8, 0x37#8, 0x34#8, 0x79#8] =
      wordTag 0x731F1165 := by decide +kernel

/-- 48_alg_zuc R266: the random key and IV. -/
theorem test_zuc_words :
    Zuc.keystreamWords 2 (Zuc.start (blockOctets 0x3D4C4BE96A82FDAEB58F641DB17B455B#128)
      (blockOctets 0x84319AA8DE6915CA1F6BDA6BFBD8C766#128)) = [0x14F1C272, 0x3279C419] := by decide +kernel

/-- V36. -/
theorem test_ks_zuc :
    be (annexKs .alg3 0x173D14BA5003731D7A60049470F00A29 0x66035492 0x0F 0 20) =
      0xCA3E0C8619AED798A66B77E2B077A16A05379169 := by decide +kernel

/-- V37; 48_alg_zuc R270. -/
theorem test_mac_zuc :
    annexMac .alg3 0x173D14BA5003731D7A60049470F00A29 5 3 0 [0x80#8, 0x05#8, 0x11#8, 0x22#8, 0x33#8, 0x44#8] =
      wordTag 0x9A2E19F6 ∧
    annexMac .alg3 0 0 0 0 [0#8] = wordTag 0x390A91B7 := by decide +kernel

/-- The product of GF(2^8) modulo the polynomial whose low octet is `c` (46_alg_aes R220, 47_alg_snow3g R240). -/
def fieldMul (c x : Nat) : Nat → Nat → Nat
  | 0, _ => 0
  | n + 1, y => (if y % 2 = 1 then x else 0) ^^^ fieldMul c (if x < 128 then 2 * x else (2 * x - 256) ^^^ c) n (y / 2)

/-- `x` to the power `n` in that field, by at most `fuel` squarings. -/
def fieldPow (c x : Nat) : Nat → Nat → Nat
  | 0, _ => 1
  | fuel + 1, n => fieldMul c (fieldPow c (fieldMul c x 8 x) fuel (n / 2)) 8 (if n % 2 = 1 then x else 1)

/-- The affine map `A` of 46_alg_aes R221. -/
def affine (b : Octet) : Octet :=
  b ^^^ b.rotateLeft 1 ^^^ b.rotateLeft 2 ^^^ b.rotateLeft 3 ^^^ b.rotateLeft 4 ^^^ 0x63#8

/-- The table of `SR` is the formula of R221: `A` of the inverse, which is the 254th power. -/
theorem test_sr_table_is_the_formula :
    (List.range 256).map (fun n => Aes.sr (BitVec.ofNat 8 n)) =
      (List.range 256).map fun n => affine (BitVec.ofNat 8 (fieldPow 0x1B n 8 254)) := by
  decide +kernel

/-- The table of `SQ` is the formula of R241. -/
theorem test_sq_table_is_the_formula :
    (List.range 256).map (fun n => (Snow3g.sq (BitVec.ofNat 8 n)).toNat) =
      (List.range 256).map fun n =>
        ([1, 9, 13, 15, 33, 41, 45, 47, 49].map (fieldPow 0x69 n 6)).foldl (· ^^^ ·) 0x25 := by
  decide +kernel

end Sys2Proof.Tests
end

namespace Sys2Proof.Machine

/-! ### The octets of a command on the port (30_encoding R80, R81; log 3) -/

theorem wordOctets_commandWord (opc csrn : Octet) (len : BitVec 16) :
    wordOctets (commandWord opc csrn len) = [opc, csrn, len.extractLsb' 8 8, len.extractLsb' 0 8] := by
  simp only [wordOctets, commandWord, List.cons.injEq, and_true]
  refine ⟨?_, ?_, ?_, ?_⟩ <;> ext j hj <;> simp <;> grind

theorem octetsWord_extractLsb' (v : Word) :
    octetsWord (v.extractLsb' 24 8) (v.extractLsb' 16 8) (v.extractLsb' 8 8) (v.extractLsb' 0 8) = v := by
  unfold octetsWord; ext j hj; simp; grind

theorem halves_append (len : BitVec 16) : len.extractLsb' 8 8 ++ len.extractLsb' 0 8 = len := by
  ext j hj; simp; grind

/-- The decoder reads back the fields that a command word packs (R81). -/
theorem decode_commandWord (opc csrn : Octet) (len : BitVec 16) (rest : Octets) :
    decode (wordOctets (commandWord opc csrn len) ++ rest) = decodeFields opc csrn len.toNat rest := by
  rw [wordOctets_commandWord]
  exact congrArg (fun n : BitVec 16 => decodeFields opc csrn n.toNat rest) (halves_append len)

/-- The operand data of `RX_PDU` is exactly the PDU in front of the rest (R84). -/
theorem decodeRxPdu_append (pdu rest : Octets) :
    decodeRxPdu pdu.length (pdu ++ rest) = .command (.rxPdu pdu) rest := by
  simp [decodeRxPdu]

/-- The operand data of `CSRW` is one word (R81). -/
theorem decodeCsrw_wordOctets (n : Octet) (v : Word) (rest : Octets) :
    decodeCsrw n (wordOctets v ++ rest) = .command (.csrw n v) rest :=
  congrArg (fun x => Decoded.command (.csrw n x) rest) (octetsWord_extractLsb' v)

/-- `LEN` holds the length of every PDU an encoding exists for. -/
theorem toNat_ofNat_of_fitsLen {n : Nat} (h : fitsLen n = true) : (BitVec.ofNat 16 n).toNat = n := by
  rw [BitVec.toNat_ofNat]; exact Nat.mod_eq_of_lt (of_decide_eq_true h)

/-- The decoder reads back every command the encoder writes and leaves what stands behind it (R95). -/
theorem decode_encode {i : Instr} (rest : Octets) (hwf : i.wf = true) (hc : i.isCommand = true) :
    decode (encode i ++ rest) = .command i rest := by
  cases i with
  | create => exact decode_commandWord 0x01#8 0 0 rest
  | rxPdu pdu =>
    calc decode (encode (.rxPdu pdu) ++ rest)
        = decodeRxPdu (BitVec.ofNat 16 pdu.length).toNat (pdu ++ rest) := by
          rw [encode, List.append_assoc, decode_commandWord]; rfl
      _ = .command (.rxPdu pdu) rest := by rw [toNat_ofNat_of_fitsLen hwf, decodeRxPdu_append]
  | tExpire => exact decode_commandWord 0x03#8 0 0 rest
  | release => exact decode_commandWord 0x04#8 0 0 rest
  | csrw n v =>
    calc decode (encode (.csrw n v) ++ rest)
        = decodeCsrw n (wordOctets v ++ rest) := by rw [encode, List.append_assoc, decode_commandWord]; rfl
      _ = .command (.csrw n v) rest := decodeCsrw_wordOctets n v rest
  | csrr n => exact decode_commandWord 0x11#8 n 0 rest
  | pdu12 r sn body => cases hc
  | pdu18 r sn body => cases hc

/-! ### What a step runs (00_scope R18, 20_memory R67) -/

theorem step_of_command {s : State} {i : Instr} {rest : Octets} (h : decode s.port = .command i rest) :
    step s = exec i (s.accept rest) := by
  rw [step, State.runNext, h]

theorem step_of_incomplete {s : State} (h : decode s.port = .incomplete) : step s = .next s := by
  rw [step, State.runNext, h]

theorem step_of_encode {s : State} {i : Instr} {rest : Octets} (hwf : i.wf = true) (hc : i.isCommand = true)
    (hp : s.port = encode i ++ rest) : step s = exec i (s.accept rest) :=
  step_of_command (by rw [hp]; exact decode_encode rest hwf hc)

/-- A PDU that has an encoding fits the `LEN` field of `RX_PDU` (R81, R87, R88). -/
theorem rxPdu_encode_wf {i : Instr} (hwf : i.wf = true) (hc : i.isCommand = false) :
    (Instr.rxPdu (encode i)).wf = true := by
  cases i with
  | pdu12 r sn body =>
    have hlen : (encode (.pdu12 r sn body)).length = 2 + body.length := Laws.EncodeLength.pdu12 r sn body
    rw [Instr.wf, hlen]
    exact (Bool.and_eq_true_iff.1 hwf).2
  | pdu18 r sn body =>
    have hlen : (encode (.pdu18 r sn body)).length = 3 + body.length := Laws.EncodeLength.pdu18 r sn body
    rw [Instr.wf, hlen]
    exact (Bool.and_eq_true_iff.1 hwf).2
  | _ => cases hc

/-- `PDU12` and `PDU18` are the `RX_PDU` of their octets (log 6). -/
theorem exec_rxPdu_encode {i : Instr} (hc : i.isCommand = false) (s : State) :
    exec (.rxPdu (encode i)) s = exec i s := by
  cases i with
  | pdu12 r sn body => rfl
  | pdu18 r sn body => rfl
  | _ => cases hc

/-- Settles O6: the decoder reads back what the encoder wrote, and the step is its one case split on what was read. -/
theorem stepRunsTheDecodedCommand : Obligations.StepRunsTheDecodedCommand := by
  refine ⟨fun s i rest h => step_of_command h, fun s i rest hwf hc hp => step_of_encode hwf hc hp, ?_,
    fun s h => step_of_incomplete h⟩
  intro s i rest hwf hc hp
  exact (step_of_encode (rxPdu_encode_wf hwf hc) rfl hp).trans (exec_rxPdu_encode hc _)

/-! ### Completions (00_scope R17, 30_encoding R80): which operations answer, and which leave the port's answers alone -/

/-- Between `s` and `t` one command completed: `t` holds one completion more, with the new `RESULT` and the data `d`. -/
def Completes (s t : State) (d : Option Word) : Prop := t.completions = s.completions ++ [⟨t.result, d⟩]

theorem raise_completes (s : State) (e : ErrorClass) : Completes s (s.raise e) none := by simp [Completes]

theorem completeWith_completes {s u : State} (r : ResultCode) (d : Option Word) (h : u.completions = s.completions) :
    Completes s (u.completeWith r d) d := by simp [Completes, h]

theorem complete_completes {s u : State} (r : ResultCode) (h : u.completions = s.completions) :
    Completes s (u.complete r) none := completeWith_completes r none h

@[simp] theorem State.expiryBody_completions (s : State) : s.expiryBody.1.completions = s.completions := by
  rcases expiryBody_cases s with ⟨_, e⟩ | ⟨_, _, e⟩ | ⟨_, _, e⟩ <;> simp [e]

@[simp] theorem State.drainIfNext_completions (s : State) : s.drainIfNext.completions = s.completions := by
  unfold State.drainIfNext; split <;> simp

@[simp] theorem State.stopIfDue_completions (s : State) : s.stopIfDue.completions = s.completions := by
  rcases stopIfDue_cases s with ⟨_, _, e⟩ | ⟨_, e⟩ <;> simp [e]

@[simp] theorem State.startIfNeeded_completions (s : State) : s.startIfNeeded.1.completions = s.completions := by
  rcases startIfNeeded_cases s with ⟨_, e⟩ | ⟨_, e⟩ | ⟨_, _, _, _, e⟩ | ⟨_, _, _, e⟩ <;> simp [e]

theorem acceptPdu_completes (s : State) (payload : Octets) : Completes s (s.acceptPdu payload) none :=
  complete_completes _ (by simp [State.timerManagement])

/-- `RX_PDU` completes once on each of its ways (40_reception R110), over any `KS` and `MAC`. -/
theorem receive_completes (c : Crypto) (pdu : Octets) (s : State) : Completes s (s.receive c pdu) none := by
  rcases receive_cases c pdu s with ⟨_, h⟩ | ⟨_, _, h⟩ | ⟨e, k, _, _, _, h⟩ | ⟨w, sn, payload, _, h⟩ <;> rw [h]
  · exact raise_completes s _
  · exact raise_completes s _
  · exact raise_completes (s.withWork k) e
  · exact acceptPdu_completes (s.withWork (workOf pdu w sn s.rxDeliv)) payload

theorem expire_completes (s : State) : Completes s s.expire none := by
  unfold State.expire
  split_ifs
  · exact raise_completes s _
  · exact raise_completes s _
  · exact complete_completes _ (State.expiryBody_completions _)

theorem execCreate_completes (s : State) : ∃ t, execCreate s = .next t ∧ Completes s t none := by
  unfold execCreate
  split <;> refine ⟨_, rfl, ?_⟩
  · exact raise_completes s _
  · exact complete_completes _ (State.createEntity_completions s)

theorem execRelease_completes (s : State) : ∃ t, execRelease s = .next t ∧ Completes s t none := by
  unfold execRelease
  split_ifs <;> refine ⟨_, rfl, ?_⟩
  · exact raise_completes s _
  · exact complete_completes _ (State.releaseEntity_completions s)

theorem execCsrw_completes (n : BitVec 8) (v : Word) (s : State) :
    ∃ t, execCsrw n v s = .next t ∧ Completes s t none := by
  unfold execCsrw
  split_ifs <;> refine ⟨_, rfl, ?_⟩
  · exact raise_completes s _
  · exact raise_completes s _
  · exact raise_completes s _
  · exact complete_completes _ (State.writeCsr_completions s _ v)

/-- `CSRR` answers a data word also for a number outside the CSR space (45_lifecycle R206). -/
theorem execCsrr_completes (n : BitVec 8) (s : State) : ∃ t v, execCsrr n s = .next t ∧ Completes s t (some v) := by
  unfold execCsrr
  split_ifs <;> exact ⟨_, _, rfl, completeWith_completes _ _ rfl⟩

/-- Settles O8: each command's meaning completes once, and `CSRR` alone does so with data. -/
theorem everyInstructionCompletesOnce : Obligations.EveryInstructionCompletesOnce := by
  intro i s
  have noData (h : ∃ t, exec i s = .next t ∧ Completes s t none) (hi : ∀ n, i ≠ .csrr n) :
      ∃ t d, exec i s = .next t ∧ Completes s t d ∧ (d.isSome = true ↔ ∃ n, i = .csrr n) := by
    obtain ⟨t, ht, hc⟩ := h
    exact ⟨t, none, ht, hc, by simp [hi]⟩
  cases i with
  | create => exact noData (execCreate_completes s) (by simp)
  | rxPdu pdu => exact noData ⟨_, rfl, receive_completes machineCrypto pdu s⟩ (by simp)
  | tExpire => exact noData ⟨_, rfl, expire_completes s⟩ (by simp)
  | release => exact noData (execRelease_completes s) (by simp)
  | csrw n v => exact noData (execCsrw_completes n v s) (by simp)
  | csrr n =>
    obtain ⟨t, v, ht, hc⟩ := execCsrr_completes n s
    exact ⟨t, some v, ht, hc, by simp⟩
  | pdu12 r sn body => exact noData ⟨_, rfl, receive_completes machineCrypto (header12 r sn ++ body) s⟩ (by simp)
  | pdu18 r sn body => exact noData ⟨_, rfl, receive_completes machineCrypto (header18 r sn ++ body) s⟩ (by simp)

/-! ### `exec` and `step` are the step relation at the machine's own `KS` and `MAC` (00_scope R12; log 1) -/

theorem exec_eq_execOver (i : Instr) (s : State) : exec i s = execOver machineCrypto i s := by
  cases i <;> rfl

theorem step_eq_stepOver (s : State) : step s = stepOver machineCrypto s :=
  congrArg (State.runNext · s) (funext fun i => funext fun t => exec_eq_execOver i t)

/-- What one step over `c` can do: run a whole command, reject a reserved opcode, or hold the state. -/
theorem stepOver_cases (c : Crypto) (s : State) :
    (∃ i rest, decode s.port = .command i rest ∧ stepOver c s = execOver c i (s.accept rest)) ∨
    (∃ rest, stepOver c s = .next ((s.accept rest).raise .illegalCommand)) ∨
    stepOver c s = .next s := by
  unfold stepOver State.runNext
  cases decode s.port with
  | command i rest => exact .inl ⟨i, rest, rfl, rfl⟩
  | reservedOpcode opc rest => exact .inr (.inl ⟨rest, rfl⟩)
  | incomplete => exact .inr (.inr rfl)

theorem isCommand_of_decodeRxPdu {len : Nat} {octets rest : Octets} {i : Instr}
    (h : decodeRxPdu len octets = .command i rest) : i.isCommand = true := by
  unfold decodeRxPdu at h
  split at h <;> cases h
  rfl

theorem isCommand_of_decodeCsrw {n : Octet} {octets rest : Octets} {i : Instr}
    (h : decodeCsrw n octets = .command i rest) : i.isCommand = true := by
  unfold decodeCsrw at h
  split at h <;> cases h
  rfl

theorem isCommand_of_decodeFields {opc csrn : Octet} {len : Nat} {octets rest : Octets} {i : Instr}
    (h : decodeFields opc csrn len octets = .command i rest) : i.isCommand = true := by
  unfold decodeFields at h
  split_ifs at h
  · cases h; rfl
  · exact isCommand_of_decodeRxPdu h
  · cases h; rfl
  · cases h; rfl
  · exact isCommand_of_decodeCsrw h
  · cases h; rfl

/-- The port gives commands only (R95). -/
theorem isCommand_of_decode {port rest : Octets} {i : Instr} (h : decode port = .command i rest) :
    i.isCommand = true := by
  unfold decode at h
  split at h
  · exact isCommand_of_decodeFields h
  · cases h

/-- The port gives a PDU only inside an `RX_PDU` (log 6). -/
theorem eq_rxPdu_of_decode {port rest pdu : Octets} {i : Instr} (h : decode port = .command i rest)
    (hp : i.pdu? = some pdu) : i = .rxPdu pdu := by
  have command := isCommand_of_decode h
  cases i with
  | rxPdu p => exact congrArg Instr.rxPdu (Option.some.inj hp)
  | pdu12 r sn body => cases command
  | pdu18 r sn body => cases command
  | _ => cases hp

/-! ### The entity kept as it is -/

/-- With the queues and the trace as they were, nothing was pushed. -/
theorem pushes_nothing {s t : State}
    (h : t.ulData = s.ulData ∧ t.ulCtrl = s.ulCtrl ∧ t.timerCmd = s.timerCmd ∧ t.trace = s.trace) : Pushes s t [] :=
  pushes_congr (pushes_refl s) ⟨rfl, rfl, rfl, rfl⟩ h

/-- `t` holds the entity of `s` with everything the two invariants read, or holds it FAULTED. -/
structure SameEntity (s t : State) : Prop where
  rxNext : t.rxNext = s.rxNext
  rxDeliv : t.rxDeliv = s.rxDeliv
  rxReord : t.rxReord = s.rxReord
  buf : t.buf = s.buf
  timerRunning : t.timerRunning = s.timerRunning
  cfgWarn : t.cfgWarn = s.cfgWarn
  cfg : t.cfg = s.cfg
  tReord : t.tReord = s.tReord
  lc : t.lc = s.lc ∨ t.lc = .faulted
  pushes : ∃ pushed, Pushes s t pushed

theorem SameEntity.sound {s t : State} (k : SameEntity s t) (h : s.Sound) : t.Sound where
  canonical := k.buf ▸ h.canonical
  cfgReserved := k.cfg ▸ h.cfgReserved
  capacity w hw := by
    rw [State.width, k.cfg] at hw
    exact k.buf ▸ h.capacity w hw
  idleQuiet hl := by
    have hs : s.lc = .idle := by
      rcases k.lc with e | e
      · exact e ▸ hl
      · rw [e] at hl; cases hl
    rw [k.rxNext, k.rxDeliv, k.rxReord, k.buf, k.timerRunning, k.cfgWarn]
    exact h.idleQuiet hs
  timerFinite ht := by
    rw [k.tReord]
    exact h.timerFinite (k.timerRunning ▸ ht)
  traced := by
    obtain ⟨_, hp⟩ := k.pushes
    exact traced_of_pushes hp h.traced

theorem SameEntity.ordered {s t : State} (k : SameEntity s t) (h : s.Ordered) : t.Ordered where
  delivNext := by rw [k.rxDeliv, k.rxNext]; exact h.delivNext
  keys := by rw [k.rxDeliv, k.rxNext, k.buf]; exact h.keys
  timer := by rw [k.rxDeliv, k.rxNext, k.rxReord, k.timerRunning]; exact h.timer
  near w hw := by
    rw [State.width, k.cfg] at hw
    rw [k.rxDeliv, k.rxNext]
    exact h.near w hw
  settled hl := by
    rw [k.rxDeliv, k.rxNext, k.timerRunning, k.tReord]
    rcases k.lc with e | e
    · exact h.settled (e ▸ hl)
    · rw [e] at hl; cases hl

theorem sameEntity_accept (s : State) (rest : Octets) : SameEntity s (s.accept rest) :=
  ⟨rfl, rfl, rfl, rfl, rfl, rfl, rfl, rfl, .inl rfl, _, pushes_nothing ⟨rfl, rfl, rfl, rfl⟩⟩

theorem sameEntity_completeWith (s : State) (r : ResultCode) (d : Option Word) : SameEntity s (s.completeWith r d) :=
  ⟨rfl, rfl, rfl, rfl, rfl, rfl, rfl, rfl, .inl rfl, _, pushes_nothing ⟨rfl, rfl, rfl, rfl⟩⟩

theorem sameEntity_withWork (s : State) (k : Work) : SameEntity s (s.withWork k) :=
  ⟨rfl, rfl, rfl, rfl, rfl, rfl, rfl, rfl, .inl rfl, _, pushes_nothing ⟨rfl, rfl, rfl, rfl⟩⟩

theorem sameEntity_closeStore (s : State) : SameEntity s s.closeStore :=
  ⟨rfl, rfl, rfl, rfl, rfl, rfl, rfl, rfl, .inl rfl, _, pushes_nothing ⟨rfl, rfl, rfl, rfl⟩⟩

theorem raise_lc_cases (s : State) (e : ErrorClass) : (s.raise e).lc = s.lc ∨ (s.raise e).lc = .faulted := by
  cases e
  case internalFault => exact .inr rfl
  all_goals exact .inl rfl

theorem sameEntity_raise (s : State) (e : ErrorClass) : SameEntity s (s.raise e) :=
  ⟨by simp, by simp, by simp, by simp, by simp, by simp, by simp, by simp, raise_lc_cases s e, _, raise_pushes e s⟩

/-- A PDU that is rejected touches the store alone (60_exceptions R291). -/
theorem sameEntity_rejectPdu (s : State) (k : Work) (e : ErrorClass) :
    SameEntity s ((s.withWork k).raise e).closeStore :=
  ⟨by simp, by simp, by simp, by simp, by simp, by simp, by simp, by simp, raise_lc_cases (s.withWork k) e, _,
    pushes_congr (raise_pushes e (s.withWork k)) ⟨rfl, rfl, rfl, rfl⟩ ⟨rfl, rfl, rfl, rfl⟩⟩

/-! ### A command that leads on, keeps `Sound` and, where no COUNT wraps, `Ordered` -/

/-- `o` is a next state that is sound, and ordered when `s` is and `fits` holds. -/
def KeepsInvariants (s : State) (fits : Prop) (o : Host.Outcome State Fault Refusal) : Prop :=
  ∃ t, o = .next t ∧ t.Sound ∧ (s.Ordered → fits → t.Ordered)

theorem SameEntity.keepsInvariants {s t : State} (k : SameEntity s t) (h : s.Sound) (fits : Prop) :
    KeepsInvariants s fits (.next t) :=
  ⟨t, rfl, k.sound h, fun o _ => k.ordered o⟩

/-- Nothing is outstanding and nothing waits: as after `CREATE` and `RELEASE`, and while IDLE. -/
theorem ordered_of_nothing_outstanding {t : State} (hd : t.rxDeliv = t.rxNext) (hb : t.buf = [])
    (hr : t.timerRunning = false) : t.Ordered where
  delivNext := by rw [hd]; exact BitVec.le_refl _
  keys := by simp [hb]
  timer h := by rw [hr] at h; cases h
  near w _ := by rw [hd]; omega
  settled _ _ _ := hd

theorem createEntity_sound {s : State} (h : s.Sound) : s.createEntity.Sound where
  canonical := Buffer.wf_nil
  cfgReserved := h.cfgReserved
  capacity _ _ := Nat.zero_le _
  idleQuiet hl := by cases hl
  timerFinite ht := by cases ht
  traced := ⟨h.traced.data, h.traced.ctrl, h.traced.timer⟩

theorem execCreate_keepsInvariants {s : State} (h : s.Sound) (fits : Prop) :
    KeepsInvariants s fits (execCreate s) := by
  unfold execCreate
  split
  · exact (sameEntity_raise s _).keepsInvariants h fits
  · refine ⟨_, rfl, (sameEntity_completeWith _ _ none).sound (createEntity_sound h), fun _ _ => ?_⟩
    exact ordered_of_nothing_outstanding rfl rfl rfl

theorem stopIfRunning_pushes (s : State) : ∃ pushed, Pushes s s.stopIfRunning pushed := by
  unfold State.stopIfRunning
  split
  · exact ⟨_, stopTimer_pushes s⟩
  · exact ⟨_, pushes_refl s⟩

theorem releaseEntity_sound {s : State} (h : s.Sound) : s.releaseEntity.Sound where
  canonical := by rw [State.releaseEntity_buf]; exact Buffer.wf_nil
  cfgReserved := by rw [State.releaseEntity_cfg]; exact h.cfgReserved
  capacity _ _ := by simp
  idleQuiet _ := by simp
  timerFinite ht := by simp at ht
  traced := by
    obtain ⟨_, hp⟩ := stopIfRunning_pushes s
    exact traced_of_pushes (pushes_congr hp ⟨rfl, rfl, rfl, rfl⟩ ⟨rfl, rfl, rfl, rfl⟩) h.traced

theorem execRelease_keepsInvariants {s : State} (h : s.Sound) (fits : Prop) :
    KeepsInvariants s fits (execRelease s) := by
  unfold execRelease
  split
  · exact (sameEntity_raise s _).keepsInvariants h fits
  · refine ⟨_, rfl, (sameEntity_completeWith _ _ none).sound (releaseEntity_sound h), fun _ _ => ?_⟩
    exact ordered_of_nothing_outstanding (by simp) (by simp) (by simp)

/-- The bits of CFG above the mask read 0 after a write (10_state R31). -/
theorem cfgMask_reserved (v : Word) : (v &&& cfgMask).extractLsb' 20 12 = 0 := by
  rw [BitVec.extractLsb'_and]
  exact BitVec.and_zero

theorem writeCsr_cfgReserved {s : State} (h : s.cfg.extractLsb' 20 12 = 0) (n : Nat) (v : Word) :
    (s.writeCsr n v).cfg.extractLsb' 20 12 = 0 := by
  unfold State.writeCsr
  split_ifs
  · exact cfgMask_reserved v
  · exact h
  · rw [State.writeKey_cfg]; exact h

/-- A register write finds nothing of an entity: it is made only while IDLE (45_lifecycle R205). -/
theorem writeCsr_sound {s : State} (h : s.Sound) (hl : s.lc = .idle) (n : Nat) (v : Word) : (s.writeCsr n v).Sound := by
  obtain ⟨_, _, _, hb, hr, _⟩ := h.idleQuiet hl
  exact {
    canonical := by rw [State.writeCsr_buf]; exact h.canonical
    cfgReserved := writeCsr_cfgReserved h.cfgReserved n v
    capacity := fun w _ => by simp [hb]
    idleQuiet := fun _ => by simpa using h.idleQuiet hl
    timerFinite := fun ht => by simp [hr] at ht
    traced := traced_of_pushes (pushes_nothing (by simp)) h.traced }

theorem execCsrw_keepsInvariants {s : State} (h : s.Sound) (fits : Prop) (n : BitVec 8) (v : Word) :
    KeepsInvariants s fits (execCsrw n v s) := by
  unfold execCsrw
  split_ifs with _ _ hl
  · exact (sameEntity_raise s _).keepsInvariants h fits
  · exact (sameEntity_raise s _).keepsInvariants h fits
  · exact (sameEntity_raise s _).keepsInvariants h fits
  · have idle : s.lc = .idle := not_not.1 hl
    obtain ⟨hn, hd, _, hb, hr, _⟩ := h.idleQuiet idle
    refine ⟨_, rfl, (sameEntity_completeWith _ _ none).sound (writeCsr_sound h idle n.toNat v), fun _ _ => ?_⟩
    exact ordered_of_nothing_outstanding (by simp [hn, hd]) (by simp [hb]) (by simp [hr])

theorem execCsrr_keepsInvariants {s : State} (h : s.Sound) (fits : Prop) (n : BitVec 8) :
    KeepsInvariants s fits (execCsrr n s) := by
  unfold execCsrr
  split
  · exact (sameEntity_completeWith s _ _).keepsInvariants h fits
  · exact (sameEntity_completeWith s _ _).keepsInvariants h fits

/-! ### What the drains and the timer carry on of a sound entity -/

/-- From `s` to `t` the buffer stays canonical and does not grow, the registers stay, and only a finite timer is started. -/
structure Carries (s t : State) : Prop where
  canonical : Buffer.wf s.buf → Buffer.wf t.buf
  length : t.buf.length ≤ s.buf.length
  cfg : t.cfg = s.cfg
  tReord : t.tReord = s.tReord
  lc : t.lc = s.lc ∨ t.lc = .faulted
  timer : t.timerRunning = true →
    s.timerRunning = true ∨ (s.tReord ≠ Config.timerZero ∧ s.tReord ≠ Config.timerInfinite)
  pushes : ∃ pushed, Pushes s t pushed

theorem Carries.refl (s : State) : Carries s s :=
  ⟨id, Nat.le_refl _, rfl, rfl, .inl rfl, .inl, _, pushes_refl s⟩

theorem Carries.trans {s t u : State} (k : Carries s t) (l : Carries t u) : Carries s u where
  canonical h := l.canonical (k.canonical h)
  length := l.length.trans k.length
  cfg := l.cfg.trans k.cfg
  tReord := l.tReord.trans k.tReord
  lc := by
    rcases l.lc with e | e
    · rw [e]; exact k.lc
    · exact .inr e
  timer h := by
    rcases l.timer h with e | e
    · exact k.timer e
    · rw [k.tReord] at e; exact .inr e
  pushes := by
    obtain ⟨_, p⟩ := k.pushes
    obtain ⟨_, q⟩ := l.pushes
    exact ⟨_, pushes_trans p q⟩

/-- An entity that exists stays sound. -/
theorem Carries.sound {s t : State} (k : Carries s t) (h : s.Sound) (hl : s.lc ≠ .idle) : t.Sound where
  canonical := k.canonical h.canonical
  cfgReserved := k.cfg ▸ h.cfgReserved
  capacity w hw := by
    rw [State.width, k.cfg] at hw
    exact k.length.trans (h.capacity w hw)
  idleQuiet ht := by
    rcases k.lc with e | e
    · exact absurd (e ▸ ht) hl
    · rw [e] at ht; cases ht
  timerFinite ht := by
    rw [k.tReord]
    exact (k.timer ht).elim h.timerFinite id
  traced := by
    obtain ⟨_, hp⟩ := k.pushes
    exact traced_of_pushes hp h.traced

theorem SameEntity.carries {s t : State} (k : SameEntity s t) : Carries s t where
  canonical h := k.buf ▸ h
  length := by rw [k.buf]
  cfg := k.cfg
  tReord := k.tReord
  lc := k.lc
  timer h := .inl (k.timerRunning ▸ h)
  pushes := k.pushes

theorem carries_consecutiveDrain (s : State) : Carries s s.consecutiveDrain :=
  ⟨consecutiveDrain_wf, consecutiveDrain_length_le s, by simp, by simp, .inl (by simp), fun h => .inl (by simpa using h),
    consecutiveDrain_pushes s⟩

theorem carries_expiryDrain (s : State) : Carries s s.expiryDrain :=
  ⟨expiryDrain_wf, expiryDrain_length_le s, by simp, by simp, .inl (by simp), fun h => .inl (by simpa using h),
    expiryDrain_pushes s⟩

theorem carries_startTimer {s : State} (hz : s.tReord ≠ Config.timerZero) (hi : s.tReord ≠ Config.timerInfinite) :
    Carries s s.startTimer :=
  ⟨id, Nat.le_refl _, rfl, rfl, .inl rfl, fun _ => .inr ⟨hz, hi⟩, _, startTimer_pushes s⟩

theorem carries_stopTimer (s : State) : Carries s s.stopTimer :=
  ⟨id, Nat.le_refl _, rfl, rfl, .inl rfl, fun h => (by cases h), _, stopTimer_pushes s⟩

theorem carries_setReord (s : State) (x : Word) : Carries s { s with rxReord := x } :=
  ⟨id, Nat.le_refl _, rfl, rfl, .inl rfl, .inl, _, pushes_nothing ⟨rfl, rfl, rfl, rfl⟩⟩

theorem carries_clearRunning (s : State) : Carries s { s with timerRunning := false } :=
  ⟨id, Nat.le_refl _, rfl, rfl, .inl rfl, fun h => (by cases h), _, pushes_nothing ⟨rfl, rfl, rfl, rfl⟩⟩

theorem carries_fault (s : State) : Carries s (s.errorEffect .internalFault) :=
  ⟨id, Nat.le_refl _, rfl, rfl, .inr rfl, .inl, _, pushes_nothing ⟨rfl, rfl, rfl, rfl⟩⟩

theorem carries_complete (s : State) (r : ResultCode) : Carries s (s.complete r) :=
  (sameEntity_completeWith s r none).carries

/-- The expiry body starts the timer only with a duration that is not zero (41 R141). -/
theorem carries_expiryBody {s : State} (hi : s.tReord ≠ Config.timerInfinite) : Carries s s.expiryBody.1 := by
  have drain := carries_expiryDrain s
  rcases expiryBody_cases s with ⟨_, e⟩ | ⟨_, _, e⟩ | ⟨_, hz, e⟩ <;> rw [e]
  · exact drain
  · exact drain.trans (carries_fault _)
  · exact drain.trans (carries_startTimer (by simpa using hz) (by simpa using hi))

theorem carries_stopIfDue (s : State) : Carries s s.stopIfDue := by
  rcases stopIfDue_cases s with ⟨_, _, e⟩ | ⟨_, e⟩ <;> rw [e]
  · exact carries_stopTimer s
  · exact Carries.refl s

theorem carries_startIfNeeded (s : State) : Carries s s.startIfNeeded.1 := by
  rcases startIfNeeded_cases s with ⟨_, e⟩ | ⟨hz, e⟩ | ⟨hi, hz, _, _, e⟩ | ⟨_, _, _, e⟩ <;> rw [e]
  · exact Carries.refl s
  · have finite : s.tReord ≠ Config.timerInfinite := by rw [hz]; decide
    exact (carries_setReord s s.rxNext).trans (carries_expiryBody finite)
  · exact carries_startTimer hz hi
  · exact Carries.refl s

theorem carries_drainIfNext (s : State) : Carries s s.drainIfNext := by
  unfold State.drainIfNext
  split
  · exact carries_consecutiveDrain s
  · exact Carries.refl s

/-- Steps 6 and 7 and the end of an accepted `RX_PDU` (40 R117, R118). -/
theorem carries_acceptPdu (s : State) (payload : Octets) : Carries (s.insertPdu payload) (s.acceptPdu payload) :=
  (((carries_drainIfNext _).trans (carries_stopIfDue _)).trans (carries_startIfNeeded _)).trans (carries_complete _ _)

/-! ### `T_EXPIRE` and `RX_PDU` -/

/-- The expiry of a running timer leaves an ordered entity (41 R141): what is still outstanding has a timer, or the
entity is FAULTED. -/
theorem expiryBody_ordered {s : State} (canonical : Buffer.wf s.buf) (o : s.Ordered) (hr : s.timerRunning = true) :
    ({ s with timerRunning := false } : State).expiryBody.1.Ordered := by
  obtain ⟨below, within⟩ := o.timer hr
  set x : State := { s with timerRunning := false } with hx
  have inOrder : InOrder x := ⟨canonical, o.delivNext, o.keys⟩
  obtain ⟨drained, _, out, delivers⟩ := expiryDrain_delivers inOrder (BitVec.le_of_lt below) within
  have stopped : x.expiryDrain.timerRunning = false := by simp [hx]
  have near : ∀ w, x.expiryDrain.width = some w →
      x.expiryDrain.rxNext.toNat ≤ x.expiryDrain.rxDeliv.toNat + window w := by
    intro w hw
    have before : s.rxNext.toNat ≤ s.rxDeliv.toNat + window w := o.near w (by simpa [State.width, hx] using hw)
    have forward : s.rxDeliv.toNat ≤ x.expiryDrain.rxDeliv.toNat := delivers.forward
    have kept : x.expiryDrain.rxNext = s.rxNext := by simp [hx]
    rw [kept]; omega
  rcases expiryBody_cases x with ⟨all, e⟩ | ⟨_, _, e⟩ | ⟨more, _, e⟩ <;> rw [e]
  · have settled : x.expiryDrain.rxDeliv = x.expiryDrain.rxNext := by
      have := drained.delivNext
      rw [← State.expiryDrain_rxNext x] at all
      bv_omega
    exact ⟨drained.delivNext, drained.keys, fun h => absurd (stopped.symm.trans h) (by simp), near, fun _ _ _ => settled⟩
  · exact ⟨drained.delivNext, drained.keys, fun h => absurd (stopped.symm.trans h) (by simp), near, fun h => by cases h⟩
  · rw [← State.expiryDrain_rxNext x] at more
    exact ⟨drained.delivNext, drained.keys, fun _ => ⟨more, BitVec.le_refl _⟩, near, fun _ _ h => by cases h⟩

theorem execTExpire_keepsInvariants {s : State} (h : s.Sound) (fits : Prop) :
    KeepsInvariants s fits (execTExpire s) := by
  unfold execTExpire State.expire
  split_ifs with hl hr
  · exact (sameEntity_raise s _).keepsInvariants h fits
  · exact (sameEntity_raise s _).keepsInvariants h fits
  · have active : s.lc = .active := not_not.1 hl
    have running : s.timerRunning = true := by simpa using hr
    obtain ⟨_, finite⟩ := h.timerFinite running
    have carries := (carries_clearRunning s).trans (carries_expiryBody finite)
    have completes := sameEntity_completeWith ({ s with timerRunning := false } : State).expiryBody.1
      ({ s with timerRunning := false } : State).expiryBody.2 none
    exact ⟨_, rfl, completes.sound (carries.sound h (by simp [active])),
      fun o _ => completes.ordered (expiryBody_ordered h.canonical o running)⟩

/-- There is room for an accepted PDU, and its COUNT is new in the buffer (40 R115, R116; 44 R196). -/
theorem insertPdu_sound {c : Crypto} {s : State} {pdu payload : Octets} {w : SnWidth} {sn : Word} (h : s.Sound)
    (a : Accepts c s pdu w sn payload) :
    ((s.withWork (workOf pdu w sn s.rxDeliv)).insertPdu payload).Sound where
  canonical := Buffer.wf_insert h.canonical a.notDuplicate
  cfgReserved := h.cfgReserved
  capacity v hv := by
    have width : s.width = some w := checkWellformed_width a.wellformed
    obtain rfl : w = v := Option.some.inj (width.symm.trans hv)
    have room : s.buf.length < window w := by simpa [Buffer.full] using a.notFull
    rw [State.insertPdu_buf, Buffer.length_insert]
    exact room
  idleQuiet hl := by
    have : s.lc = .idle := hl
    rw [a.active] at this; cases this
  timerFinite := h.timerFinite
  traced := ⟨h.traced.data, h.traced.ctrl, h.traced.timer⟩

/-- What timer management or an accepted PDU leads to is in order (40 R118). -/
theorem Managed.ordered {w : SnWidth} {s t : State} {fresh : Buffer} (q : Managed w s t fresh)
    (hw : s.width = some w) : t.Ordered where
  delivNext := q.inOrder.delivNext
  keys := q.inOrder.keys
  timer := q.timer
  near v hv := by
    rw [State.width, q.cfg] at hv
    obtain rfl : w = v := Option.some.inj (hw.symm.trans hv)
    exact q.near
  settled _ := q.settled

/-- `RX_PDU` over any `KS` and `MAC` (40 R110; 42 R159). -/
theorem receive_keepsInvariants (c : Crypto) {s : State} (h : s.Sound) (pdu : Octets) :
    KeepsInvariants s (s.NoWrap pdu) (.next (s.receive c pdu)) := by
  rcases receive_cases c pdu s with ⟨_, e⟩ | ⟨_, _, e⟩ | ⟨err, k, _, _, _, e⟩ | ⟨w, sn, payload, a, e⟩ <;> rw [e]
  · exact (sameEntity_raise s _).keepsInvariants h _
  · exact (sameEntity_raise s _).keepsInvariants h _
  · exact (sameEntity_rejectPdu s k err).keepsInvariants h _
  · have carries := carries_acceptPdu (s.withWork (workOf pdu w sn s.rxDeliv)) payload
    have sound := carries.sound (insertPdu_sound h a) (by simp [a.active])
    refine ⟨_, rfl, (sameEntity_closeStore _).sound sound, fun o nw => ?_⟩
    exact (acceptPdu_managed h o nw a).1.ordered (checkWellformed_width a.wellformed)

/-! ### Every instruction and every step -/

/-- Over any `KS` and `MAC` every instruction leads on and keeps the invariants; only a PDU could wrap a COUNT. -/
theorem execOver_keepsInvariants (c : Crypto) (i : Instr) {s : State} (h : s.Sound) :
    KeepsInvariants s (∀ pdu, i.pdu? = some pdu → s.NoWrap pdu) (execOver c i s) := by
  have ofPdu (pdu : Octets) (hi : i.pdu? = some pdu) :
      KeepsInvariants s (∀ pdu, i.pdu? = some pdu → s.NoWrap pdu) (.next (s.receive c pdu)) := by
    obtain ⟨t, ht, sound, ordered⟩ := receive_keepsInvariants c h pdu
    exact ⟨t, ht, sound, fun o fits => ordered o (fits pdu hi)⟩
  cases i with
  | create => exact execCreate_keepsInvariants h _
  | rxPdu pdu => exact ofPdu pdu rfl
  | tExpire => exact execTExpire_keepsInvariants h _
  | release => exact execRelease_keepsInvariants h _
  | csrw n v => exact execCsrw_keepsInvariants h _ n v
  | csrr n => exact execCsrr_keepsInvariants h _ n
  | pdu12 r sn body => exact ofPdu (header12 r sn ++ body) rfl
  | pdu18 r sn body => exact ofPdu (header18 r sn ++ body) rfl

/-- Over any `KS` and `MAC` every step leads on and keeps the invariants. -/
theorem stepOver_keepsInvariants (c : Crypto) {s : State} (h : s.Sound) :
    KeepsInvariants s s.NextFits (stepOver c s) := by
  rcases stepOver_cases c s with ⟨i, rest, hd, e⟩ | ⟨rest, e⟩ | e <;> rw [e]
  · have same := sameEntity_accept s rest
    obtain ⟨t, ht, sound, ordered⟩ := execOver_keepsInvariants c i (same.sound h)
    refine ⟨t, ht, sound, fun o fits => ordered (same.ordered o) fun pdu hp => ?_⟩
    exact fits pdu rest (eq_rxPdu_of_decode hd hp ▸ hd)
  · obtain ⟨t, ht, sound, ordered⟩ :=
      (sameEntity_raise (s.accept rest) .illegalCommand).keepsInvariants ((sameEntity_accept s rest).sound h) s.NextFits
    exact ⟨t, ht, sound, fun o => ordered ((sameEntity_accept s rest).ordered o)⟩
  · exact ⟨s, rfl, h, fun o _ => o⟩

/-- Settles O55: `exec` and `step` are the machine's own arm by arm, and the invariants are kept over every `KS` and `MAC`. -/
theorem stepRelationTakesKsAndMac : Obligations.StepRelationTakesKsAndMac :=
  ⟨exec_eq_execOver, step_eq_stepOver, fun c _ h => stepOver_keepsInvariants c h⟩

end Sys2Proof.Machine

namespace Sys2Proof.Machine

/-! ### Both invariants along the machine's own step (10_state R23, R31, R40) -/

/-- The machine's own step is one of those that keep the invariants over every `KS` and `MAC`. -/
theorem step_keepsInvariants {s t : State} (sound : s.Sound) (hs : step s = .next t) :
    t.Sound ∧ (s.Ordered → s.NextFits → t.Ordered) := by
  obtain ⟨u, hu, keeps⟩ := stepOver_keepsInvariants machineCrypto sound
  obtain rfl : t = u := Host.Outcome.next.inj (hs.symm.trans ((step_eq_stepOver s).trans hu))
  exact keeps

/-- Settles O53, by what each operation keeps of a sound state. -/
theorem everyStepKeepsSound : Obligations.EveryStepKeepsSound :=
  fun _ _ sound hs => (step_keepsInvariants sound hs).1

/-- Settles O54, by what each operation keeps of an ordered state when no COUNT wraps. -/
theorem everyStepKeepsOrdered : Obligations.EveryStepKeepsOrdered :=
  fun _ _ sound ordered fits hs => (step_keepsInvariants sound hs).2 ordered fits

/-! ### Register writes while IDLE (45_lifecycle R205; 30_encoding R96) -/

/-- A `CSRW` to a writable number is made while IDLE (45_lifecycle R205). -/
theorem exec_csrw_of_idle {s : State} (idle : s.lc = .idle) {n : BitVec 8} (hn : n.toNat < 18) (v : Word) :
    exec (.csrw n v) s = .next ((s.writeCsr n.toNat v).complete .ok) := by
  have inSpace : ¬ 24 ≤ n.toNat := by omega
  have writable : ¬ 18 ≤ n.toNat := by omega
  show execCsrw n v s = _
  rw [execCsrw, if_neg inSpace, if_neg writable, if_neg (not_not.2 idle)]

/-- The mask of CFG keeps every field below bit 20 (10_state R31). -/
theorem extractLsb'_and_cfgMask (v : Word) {start len : Nat} (h : start + len ≤ 20) :
    (v &&& cfgMask).extractLsb' start len = v.extractLsb' start len := by
  have mask : cfgMask = (BitVec.allOnes 20).setWidth 32 := by decide
  rw [mask]
  ext j hj
  have below : start + j < 20 := by omega
  have inWord : start + j < 32 := by omega
  simp only [BitVec.getElem_extractLsb', BitVec.getLsbD_and, BitVec.getLsbD_setWidth, BitVec.getLsbD_allOnes, below,
    inWord, decide_true, Bool.and_true]

/-- Settles O15: the write stores the masked word, the mask keeps every field, and each field stands at its place. -/
theorem cfgwStoresEveryField : Obligations.CfgwStoresEveryField := by
  intro s sn rlc type bearer dir int ciph ialg calg idle
  refine ⟨_, exec_csrw_of_idle idle (by decide) _, rfl, ?_, ?_, ?_, ?_, ?_, ?_, ?_, ?_, ?_, cfgMask_reserved _⟩
  all_goals
    refine (extractLsb'_and_cfgMask _ (by decide)).trans ?_
    unfold cfgWord
    repeat rw [BitVec.extractLsb'_append_eq_of_le (by decide)]
    exact BitVec.extractLsb'_append_eq_right

/-! ### Key registers, word by word (10_state R33) -/

theorem keyWord_append_zero (a b c d : Word) : keyWord (a ++ b ++ c ++ d) 0 = a := by
  rw [keyWord, BitVec.extractLsb'_append_eq_of_le (by decide), BitVec.extractLsb'_append_eq_of_le (by decide)]
  exact BitVec.extractLsb'_append_eq_left

theorem keyWord_append_one (a b c d : Word) : keyWord (a ++ b ++ c ++ d) 1 = b := by
  rw [keyWord, BitVec.extractLsb'_append_eq_of_le (by decide), BitVec.extractLsb'_append_eq_of_le (by decide)]
  exact BitVec.extractLsb'_append_eq_right

theorem keyWord_append_two (a b c d : Word) : keyWord (a ++ b ++ c ++ d) 2 = c := by
  rw [keyWord, BitVec.extractLsb'_append_eq_of_le (by decide)]
  exact BitVec.extractLsb'_append_eq_right

theorem keyWord_append_three (a b c d : Word) : keyWord (a ++ b ++ c ++ d) 3 = d :=
  BitVec.extractLsb'_append_eq_right

/-- A key is its four words, word 0 the most significant. -/
theorem keyWords_append (key : Key128) : keyWord key 0 ++ keyWord key 1 ++ keyWord key 2 ++ keyWord key 3 = key := by
  unfold keyWord
  ext j hj; simp; grind

/-- Writing all four words of a key leaves nothing of the old one. -/
theorem setKeyWord_all (old key : Key128) :
    setKeyWord (setKeyWord (setKeyWord (setKeyWord old 0 (keyWord key 0)) 1 (keyWord key 1)) 2 (keyWord key 2)) 3
      (keyWord key 3) = key := by
  simp only [setKeyWord, keyWord_append_zero, keyWord_append_one, keyWord_append_two, keyWord_append_three,
    keyWords_append]

theorem keyReg_writeKey (s : State) {i k : Nat} (hi : i < 4) (hk : k < 4) (j : Nat) (v : Word) :
    (s.writeKey i j v).keyReg k = if k = i then setKeyWord (s.keyReg k) j v else s.keyReg k := by
  interval_cases i <;> interval_cases k <;> rfl

theorem writeKey_frame (s : State) (i j : Nat) (v : Word) :
    s.writeKey i j v = s.withKeys (s.writeKey i j v).kCpInt (s.writeKey i j v).kCpEnc (s.writeKey i j v).kUpInt
      (s.writeKey i j v).kUpEnc := by
  unfold State.writeKey; split <;> rfl

/-- `s` after the `CSRW` of word `j` of `key` to key register `i`. -/
def State.keyWordStored (i : Nat) (key : Key128) (j : Nat) (s : State) : State :=
  (s.writeKey i j (keyWord key j)).complete .ok

theorem keyWordStored_frame (s : State) (i : Nat) (key : Key128) (j : Nat) :
    s.keyWordStored i key j = { s.withKeys (s.keyWordStored i key j).kCpInt (s.keyWordStored i key j).kCpEnc
        (s.keyWordStored i key j).kUpInt (s.keyWordStored i key j).kUpEnc with
      result := .ok, completions := s.completions ++ [⟨.ok, none⟩] } := by
  unfold State.keyWordStored
  rw [writeKey_frame]
  rfl

@[simp] theorem State.keyWordStored_lc (s : State) (i : Nat) (key : Key128) (j : Nat) :
    (s.keyWordStored i key j).lc = s.lc := State.writeKey_lc s i j _

theorem keyReg_keyWordStored (s : State) {i k : Nat} (hi : i < 4) (hk : k < 4) (key : Key128) (j : Nat) :
    (s.keyWordStored i key j).keyReg k = if k = i then setKeyWord (s.keyReg k) j (keyWord key j) else s.keyReg k :=
  keyReg_writeKey s hi hk j _

/-- Word `j` of key register `i` has the CSR number `2 + 4 i + j` (10_state R30, 45_lifecycle R205). -/
theorem exec_csrw_keyWord {s : State} (idle : s.lc = .idle) {n : BitVec 8} {i j : Nat} (hi : i < 4) (hj : j < 4)
    (hn : n.toNat = 2 + 4 * i + j) (key : Key128) :
    exec (.csrw n (keyWord key j)) s = .next (s.keyWordStored i key j) := by
  have notCfg : ¬ n.toNat = 0 := by omega
  have notTimer : ¬ n.toNat = 1 := by omega
  have register : (n.toNat - 2) / 4 = i := by omega
  have word : (n.toNat - 2) % 4 = j := by omega
  rw [exec_csrw_of_idle idle (by omega), State.writeCsr, if_neg notCfg, if_neg notTimer, register, word]
  rfl

theorem execAll_cons {i : Instr} {is : List Instr} {s t : State} (h : exec i s = .next t) :
    execAll (i :: is) s = execAll is t := by
  rw [execAll, h]

/-- `KEYW` while IDLE stores the four words, word 0 first (30_encoding R96). -/
theorem execAll_keyw {s : State} (idle : s.lc = .idle) (i : BitVec 2) (key : Key128) :
    execAll (keyw i key) s = .next ((((s.keyWordStored i.toNat key 0).keyWordStored i.toNat key 1).keyWordStored
      i.toNat key 2).keyWordStored i.toNat key 3) := by
  have hi : i.toNat < 4 := i.isLt
  have base : (2#8 + 4#8 * i.setWidth 8).toNat = 2 + 4 * i.toNat := by
    simp only [BitVec.toNat_add, BitVec.toNat_mul, BitVec.toNat_setWidth, BitVec.toNat_ofNat]; omega
  unfold keyw
  rw [execAll_cons (exec_csrw_keyWord (j := 0) (by simpa) hi (by decide) (by bv_omega) key),
    execAll_cons (exec_csrw_keyWord (j := 1) (by simpa) hi (by decide) (by bv_omega) key),
    execAll_cons (exec_csrw_keyWord (j := 2) (by simpa) hi (by decide) (by bv_omega) key),
    execAll_cons (exec_csrw_keyWord (j := 3) (by simpa) hi (by decide) (by bv_omega) key), execAll]

/-- Settles O16: four stored words make up the key in its register, and each store leaves the other registers alone. -/
theorem keywWritesTheKey : Obligations.KeywWritesTheKey := by
  intro s i key idle
  refine ⟨_, execAll_keyw idle i key, ?_, fun j hj => ?_⟩
  · rw [keyWordStored_frame, keyWordStored_frame, keyWordStored_frame, keyWordStored_frame s]
    simp [State.withKeys]
  · simp only [keyReg_keyWordStored _ i.isLt hj]
    split
    · exact setKeyWord_all _ key
    · rfl

/-! ### The canonical form of the Reception Buffer (10_state R40) -/

theorem Buffer.find_eq_some_iff {b : Buffer} (h : Buffer.wf b) {k : Word} {p : Octets} :
    Buffer.find b k = some p ↔ (k, p) ∈ b :=
  ⟨Buffer.mem_of_find, Buffer.find_eq_some_of_mem h⟩

/-- Settles O35: equal contents mean the same entries, and a strictly rising list is fixed by its entries. -/
theorem canonicalBuffersAreEqual : Obligations.CanonicalBuffersAreEqual := by
  intro a b ha hb same
  have irrefl : Std.Irrefl fun x y : Word × Octets => x.1 < y.1 := ⟨fun x => BitVec.lt_irrefl x.1⟩
  have antisymm : Std.Antisymm fun x y : Word × Octets => x.1 < y.1 :=
    ⟨fun x y h h' => absurd (BitVec.lt_trans h h') (BitVec.lt_irrefl x.1)⟩
  refine List.Pairwise.eq_of_mem_iff ha hb fun ⟨k, p⟩ => ?_
  rw [← Buffer.find_eq_some_iff ha, ← Buffer.find_eq_some_iff hb, same]

/-! ### Reset and creation (10_state R46; 70_reset R320) -/

theorem configMismatch_iff (s : State) :
    s.configMismatch = true ↔ s.tReord = 0xFFFFFFFF#32 ∧ s.cfg.extractLsb' 6 1 = s.params.rlcInorderMode := by
  rw [State.configMismatch, Bool.and_eq_true, decide_eq_true_iff, decide_eq_true_iff]
  rfl

theorem exec_create_of_idle {s : State} (idle : s.lc = .idle) :
    exec .create s = .next (s.createEntity.complete (if s.configMismatch then .okCfgWarn else .ok)) := by
  show execCreate s = _
  rw [execCreate, if_neg (not_not.2 idle)]

/-- Settles O46: the reset values hold of both ways to reset, and `CREATE` of an IDLE block is its one branch. -/
theorem resetAndCreationValues : Obligations.ResetAndCreationValues := by
  constructor
  · rintro t (rfl | ⟨s, rfl⟩) <;>
      exact ⟨rfl, rfl, rfl, rfl, rfl, rfl, rfl, rfl, rfl, rfl, rfl, rfl, rfl, rfl, rfl, rfl, rfl⟩
  · intro s idle
    exact ⟨_, exec_create_of_idle idle, rfl, rfl, rfl, rfl, rfl, configMismatch_iff s, rfl, rfl, rfl, rfl, rfl, rfl,
      rfl, rfl, rfl, rfl, rfl⟩

/-- Settles O52: at reset there is no entity, so nothing is outstanding, buffered or pushed. -/
theorem invariantsHoldAtReset : Obligations.InvariantsHoldAtReset where
  left := {
    canonical := Buffer.wf_nil
    cfgReserved := by decide
    capacity := fun _ _ => Nat.zero_le _
    idleQuiet := fun _ => ⟨rfl, rfl, rfl, rfl, rfl, rfl⟩
    timerFinite := fun h => by cases h
    traced := ⟨List.suffix_refl _, List.suffix_refl _, List.suffix_refl _⟩ }
  right := ordered_of_nothing_outstanding rfl rfl rfl

/-! ### What an instruction can do, over all eight of them (10_state R21, R27; 40, 41, 45) -/

/-- The ways in which an instruction runs, each with the state it leads to (`runs_of_exec`). -/
inductive Runs (i : Instr) (s : State) : State → Prop where
  /-- Turned away before it touches the entity: IGNORED or ILLEGAL_CMD. -/
  | refused (e : ErrorClass) (he : e = .ignored ∨ e = .illegalCommand) : Runs i s (s.raise e)
  | read (n : BitVec 8) (hi : i = .csrr n) (r : ResultCode) (v : Word) : Runs i s (s.completeWith r (some v))
  | written (n : BitVec 8) (v : Word) (hi : i = .csrw n v) (idle : s.lc = .idle) :
      Runs i s ((s.writeCsr n.toNat v).complete .ok)
  | created (hi : i = .create) (idle : s.lc = .idle) (r : ResultCode) : Runs i s (s.createEntity.complete r)
  | released (hi : i = .release) (live : s.lc ≠ .idle) : Runs i s (s.releaseEntity.complete .ok)
  | expired (hi : i = .tExpire) (active : s.lc = .active) (x : State) (hx : x = { s with timerRunning := false }) :
      Runs i s (x.expiryBody.1.complete x.expiryBody.2)
  /-- A PDU that steps 1 to 4 reject, or that finds the buffer full. -/
  | rejected (pdu : Octets) (hp : i.pdu? = some pdu) (active : s.lc = .active) (e : ErrorClass) (k : Work) :
      Runs i s ((s.withWork k).raise e).closeStore
  | accepted (pdu : Octets) (hp : i.pdu? = some pdu) (active : s.lc = .active) (k : Work) (payload : Octets) :
      Runs i s ((s.withWork k).acceptPdu payload).closeStore

theorem runs_create (s : State) : ∃ t, execCreate s = .next t ∧ Runs .create s t := by
  unfold execCreate
  split <;> rename_i h
  · exact ⟨_, rfl, .refused _ (.inl rfl)⟩
  · exact ⟨_, rfl, .created rfl (not_not.1 h) _⟩

theorem runs_release (s : State) : ∃ t, execRelease s = .next t ∧ Runs .release s t := by
  unfold execRelease
  split_ifs with h
  · exact ⟨_, rfl, .refused _ (.inl rfl)⟩
  · exact ⟨_, rfl, .released rfl h⟩

theorem runs_csrw (n : BitVec 8) (v : Word) (s : State) : ∃ t, execCsrw n v s = .next t ∧ Runs (.csrw n v) s t := by
  unfold execCsrw
  split_ifs with _ _ h
  · exact ⟨_, rfl, .refused _ (.inr rfl)⟩
  · exact ⟨_, rfl, .refused _ (.inl rfl)⟩
  · exact ⟨_, rfl, .refused _ (.inl rfl)⟩
  · exact ⟨_, rfl, .written n v rfl (not_not.1 h)⟩

theorem runs_csrr (n : BitVec 8) (s : State) : ∃ t, execCsrr n s = .next t ∧ Runs (.csrr n) s t := by
  unfold execCsrr
  split_ifs <;> exact ⟨_, rfl, .read n rfl _ _⟩

theorem runs_tExpire (s : State) : Runs .tExpire s s.expire := by
  unfold State.expire
  split_ifs with h
  · exact .refused _ (.inl rfl)
  · exact .refused _ (.inl rfl)
  · exact .expired rfl (not_not.1 h) _ rfl

theorem runs_receive {i : Instr} {pdu : Octets} (hp : i.pdu? = some pdu) (c : Crypto) (s : State) :
    Runs i s (s.receive c pdu) := by
  rcases receive_cases c pdu s with ⟨_, e⟩ | ⟨_, _, e⟩ | ⟨err, k, _, active, _, e⟩ | ⟨w, sn, payload, a, e⟩ <;> rw [e]
  · exact .refused _ (.inr rfl)
  · exact .refused _ (.inl rfl)
  · exact .rejected pdu hp active err k
  · exact .accepted pdu hp a.active _ payload

theorem runs_of_exec {i : Instr} {s t : State} (h : exec i s = .next t) : Runs i s t := by
  have found (run : ∃ u, exec i s = .next u ∧ Runs i s u) : Runs i s t := by
    obtain ⟨u, hu, r⟩ := run
    exact Host.Outcome.next.inj (hu.symm.trans h) ▸ r
  cases i with
  | create => exact found (runs_create s)
  | rxPdu pdu => exact found ⟨_, rfl, runs_receive rfl machineCrypto s⟩
  | tExpire => exact found ⟨_, rfl, runs_tExpire s⟩
  | release => exact found (runs_release s)
  | csrw n v => exact found (runs_csrw n v s)
  | csrr n => exact found (runs_csrr n s)
  | pdu12 r sn body => exact found ⟨_, rfl, runs_receive rfl machineCrypto s⟩
  | pdu18 r sn body => exact found ⟨_, rfl, runs_receive rfl machineCrypto s⟩

/-! ### Who writes the COUNT registers (10_state R21) -/

/-- The expiry body moves `RX_DELIV` and `RX_REORD`, never `RX_NEXT` (41 R141). -/
@[simp] theorem State.expiryBody_rxNext (s : State) : s.expiryBody.1.rxNext = s.rxNext := by
  rcases expiryBody_cases s with ⟨_, e⟩ | ⟨_, _, e⟩ | ⟨_, _, e⟩ <;> simp [e]

/-- Settles O48, by the ways in which an instruction runs. -/
theorem countRegistersAreWrittenOnlyByReception : Obligations.CountRegistersAreWrittenOnlyByReception := by
  intro i s t h
  cases runs_of_exec h with
  | refused e _ => exact .inl (by simp)
  | read _ _ _ _ => exact .inl ⟨rfl, rfl, rfl⟩
  | written n v _ _ => exact .inl (by simp)
  | created hi _ _ => exact .inr (.inl ⟨.inl hi, rfl, rfl, rfl⟩)
  | released hi _ => exact .inr (.inl ⟨.inr hi, by simp⟩)
  | expired hi active x hx => exact .inr (.inr ⟨active, .inl ⟨hi, by simp [hx]⟩⟩)
  | rejected _ _ _ e k => exact .inl (by simp)
  | accepted pdu hp active _ _ => exact .inr (.inr ⟨active, .inr ⟨pdu, hp⟩⟩)

/-! ### Who changes the lifecycle (10_state R27) -/

/-- From `s` to `t` the lifecycle stays, or an InternalFault, reported as the result `r`, made it FAULTED (60 R285). -/
def StaysOrFaults (s t : State) (r : ResultCode) : Prop := t.lc = s.lc ∨ (t.lc = .faulted ∧ r = .internalFault)

theorem expiryBody_staysOrFaults (s : State) : StaysOrFaults s s.expiryBody.1 s.expiryBody.2 := by
  rcases expiryBody_cases s with ⟨_, e⟩ | ⟨_, _, e⟩ | ⟨_, _, e⟩ <;> rw [e]
  · exact .inl (by simp)
  · exact .inr ⟨rfl, rfl⟩
  · exact .inl (by simp)

theorem raise_staysOrFaults (s : State) (e : ErrorClass) : StaysOrFaults s (s.raise e) e.result := by
  cases e
  case internalFault => exact .inr ⟨rfl, rfl⟩
  all_goals exact .inl rfl

@[simp] theorem State.drainIfNext_lc (s : State) : s.drainIfNext.lc = s.lc := by
  unfold State.drainIfNext; split <;> simp

@[simp] theorem State.stopIfDue_lc (s : State) : s.stopIfDue.lc = s.lc := by
  rcases stopIfDue_cases s with ⟨_, _, e⟩ | ⟨_, e⟩ <;> simp [e]

theorem startIfNeeded_staysOrFaults (s : State) : StaysOrFaults s s.startIfNeeded.1 s.startIfNeeded.2 := by
  rcases startIfNeeded_cases s with ⟨_, e⟩ | ⟨_, e⟩ | ⟨_, _, _, _, e⟩ | ⟨_, _, _, e⟩ <;> rw [e]
  · exact .inl rfl
  · exact expiryBody_staysOrFaults { s with rxReord := s.rxNext }
  · exact .inl rfl
  · exact .inl rfl

theorem acceptPdu_staysOrFaults (s : State) (payload : Octets) :
    StaysOrFaults s (s.acceptPdu payload) (s.acceptPdu payload).result := by
  have before : (s.insertPdu payload).drainIfNext.stopIfDue.lc = s.lc := by simp
  rcases startIfNeeded_staysOrFaults (s.insertPdu payload).drainIfNext.stopIfDue with stays | faults
  · exact .inl (stays.trans before)
  · exact .inr faults

/-- Settles O50, by the ways in which an instruction runs. -/
theorem lifecycleTransitions : Obligations.LifecycleTransitions := by
  intro i s t h
  cases runs_of_exec h with
  | refused e he => rcases he with rfl | rfl <;> exact .inl rfl
  | read _ _ _ _ => exact .inl rfl
  | written n v _ _ => exact .inl (by simp)
  | created hi idle _ => exact .inr (.inl ⟨hi, idle, rfl⟩)
  | released hi live => exact .inr (.inr (.inl ⟨hi, live, by simp⟩))
  | expired hi active x hx =>
    subst hx
    exact (expiryBody_staysOrFaults { s with timerRunning := false }).imp_right fun ⟨faulted, reported⟩ =>
      .inr (.inr ⟨active, faulted, reported, .inl hi⟩)
  | rejected pdu hp active e k =>
    exact (raise_staysOrFaults (s.withWork k) e).imp_right fun ⟨faulted, reported⟩ =>
      .inr (.inr ⟨active, faulted, reported, .inr ⟨pdu, hp⟩⟩)
  | accepted pdu hp active k payload =>
    exact (acceptPdu_staysOrFaults (s.withWork k) payload).imp_right fun ⟨faulted, reported⟩ =>
      .inr (.inr ⟨active, faulted, reported, .inr ⟨pdu, hp⟩⟩)

/-! ### What an instruction's requests to the Timer service end with (10_state R23, R42; 40 R118, 41 R141) -/

/-- What the requests made between `s` and `t` end with: a closing `START` leaves the timer running for what is
outstanding (R23 (b)). -/
inductive RequestsEnd (s t : State) : Prop where
  | nothing (same : t.timerCmd = s.timerCmd)
  | stop (before : List TimerRequest) (pushed : t.timerCmd = s.timerCmd ++ before ++ [.stop])
  | start (before : List TimerRequest) (pushed : t.timerCmd = s.timerCmd ++ before ++ [.start s.tReord])
      (reord : t.rxReord = t.rxNext) (running : t.timerRunning = true) (outstanding : t.rxDeliv < t.rxNext)
      (nonzero : s.tReord ≠ Config.timerZero)

/-- What a closing `START` shows. -/
theorem RequestsEnd.of_last_start {s t : State} (q : RequestsEnd s t) {requests : List TimerRequest} {d : Word}
    (h : t.timerCmd = s.timerCmd ++ requests ++ [.start d]) :
    t.rxReord = t.rxNext ∧ t.timerRunning = true ∧ t.rxDeliv < t.rxNext ∧ d = s.tReord ∧ d ≠ Config.timerZero := by
  cases q with
  | nothing same => simp [same] at h
  | stop before pushed =>
    have last := (List.append_inj' (pushed.symm.trans h) rfl).2
    simp at last
  | start before pushed reord running outstanding nonzero =>
    have last : d = s.tReord := by simpa using (List.append_inj' (h.symm.trans pushed) rfl).2
    exact ⟨reord, running, outstanding, last, last ▸ nonzero⟩

/-- The fields that the relation reads of the later state. -/
theorem RequestsEnd.congr {s t u : State} (q : RequestsEnd s t) (cmd : u.timerCmd = t.timerCmd)
    (reord : u.rxReord = t.rxReord) (running : u.timerRunning = t.timerRunning) (deliv : u.rxDeliv = t.rxDeliv)
    (next : u.rxNext = t.rxNext) : RequestsEnd s u := by
  cases q with
  | nothing same => exact .nothing (cmd.trans same)
  | stop before pushed => exact .stop before (cmd.trans pushed)
  | start before pushed hr ht ho hz =>
    have outstanding : u.rxDeliv < u.rxNext := by rw [deliv, next]; exact ho
    exact .start before (cmd.trans pushed) (by rw [reord, next, hr]) (running.trans ht) outstanding hz

/-- A part that requests a `STOP` at most may come first. -/
theorem RequestsEnd.after {s m t : State} (q : RequestsEnd m t)
    (first : m.timerCmd = s.timerCmd ∨ m.timerCmd = s.timerCmd ++ [.stop]) (duration : m.tReord = s.tReord) :
    RequestsEnd s t := by
  obtain ⟨early, he⟩ : ∃ early, m.timerCmd = s.timerCmd ++ early := first.elim (⟨[], by simpa using ·⟩) (⟨_, ·⟩)
  cases q with
  | nothing same =>
    rcases first with e | e
    · exact .nothing (same.trans e)
    · exact .stop [] (by simp [same, e])
  | stop before pushed => exact .stop (early ++ before) (by simp [pushed, he])
  | start before pushed reord running outstanding nonzero =>
    exact .start (early ++ before) (by simp [pushed, he, duration]) reord running outstanding (duration ▸ nonzero)

theorem requestsEnd_startTimer {s : State} (outstanding : s.rxDeliv < s.rxNext)
    (nonzero : s.tReord ≠ Config.timerZero) : RequestsEnd s s.startTimer :=
  .start [] (by simp) rfl rfl outstanding nonzero

/-- The expiry body requests nothing, or restarts the timer (41 R141). -/
theorem requestsEnd_expiryBody (s : State) : RequestsEnd s s.expiryBody.1 := by
  rcases expiryBody_cases s with ⟨_, e⟩ | ⟨_, _, e⟩ | ⟨more, nonzero, e⟩ <;> rw [e]
  · exact .nothing (by simp)
  · exact .nothing (by simp)
  · exact (requestsEnd_startTimer (by simpa using more) (by simpa using nonzero)).after (.inl (by simp)) (by simp)

/-- Step 7b (40 R118). -/
theorem requestsEnd_startIfNeeded (s : State) : RequestsEnd s s.startIfNeeded.1 := by
  rcases startIfNeeded_cases s with ⟨_, e⟩ | ⟨_, e⟩ | ⟨_, nonzero, _, more, e⟩ | ⟨_, _, _, e⟩ <;> rw [e]
  · exact .nothing rfl
  · exact (requestsEnd_expiryBody _).after (.inl rfl) rfl
  · exact requestsEnd_startTimer more nonzero
  · exact .nothing rfl

/-- Step 7a requests a `STOP` at most (40 R118). -/
theorem stopIfDue_timerCmd (s : State) :
    s.stopIfDue.timerCmd = s.timerCmd ∨ s.stopIfDue.timerCmd = s.timerCmd ++ [.stop] := by
  rcases stopIfDue_cases s with ⟨_, _, e⟩ | ⟨_, e⟩ <;> rw [e]
  · exact .inr rfl
  · exact .inl rfl

@[simp] theorem State.drainIfNext_timerCmd (s : State) : s.drainIfNext.timerCmd = s.timerCmd := by
  unfold State.drainIfNext; split <;> simp

theorem requestsEnd_acceptPdu (s : State) (payload : Octets) : RequestsEnd s (s.acceptPdu payload) := by
  set d := (s.insertPdu payload).drainIfNext with hd
  have cmd : d.timerCmd = s.timerCmd := by simp [hd]
  have duration : d.stopIfDue.tReord = s.tReord :=
    (carries_stopIfDue d).tReord.trans (carries_drainIfNext (s.insertPdu payload)).tReord
  have timer : RequestsEnd s d.timerManagement.1 :=
    (requestsEnd_startIfNeeded d.stopIfDue).after (cmd ▸ stopIfDue_timerCmd d) duration
  exact timer.congr rfl rfl rfl rfl rfl

/-- Every instruction: only `T_EXPIRE` and an accepted PDU can request a `START`, and `RELEASE` ends with its `STOP`. -/
theorem requestsEnd_of_exec {i : Instr} {s t : State} (h : exec i s = .next t) : RequestsEnd s t := by
  cases runs_of_exec h with
  | refused e _ => exact .nothing (by simp)
  | read _ _ _ _ => exact .nothing rfl
  | written n v _ _ => exact .nothing (by simp)
  | created _ _ _ => exact .nothing rfl
  | released _ _ =>
    by_cases running : s.timerRunning = true
    · exact .stop [] (by simp [running])
    · exact .nothing (by simp [running])
  | expired _ _ x hx =>
    have body : RequestsEnd s x.expiryBody.1 := (requestsEnd_expiryBody x).after (.inl (by rw [hx])) (by rw [hx])
    exact body.congr rfl rfl rfl rfl rfl
  | rejected _ _ _ e k => exact .nothing (by simp)
  | accepted _ _ _ k payload =>
    have accepted : RequestsEnd s ((s.withWork k).acceptPdu payload) :=
      (requestsEnd_acceptPdu (s.withWork k) payload).after (.inl rfl) rfl
    exact accepted.congr rfl rfl rfl rfl rfl

/-- Settles O42: the requests of the instruction end with that `START`. -/
theorem startSetsReordToNext : Obligations.StartSetsReordToNext :=
  fun _ _ _ _ _ h pushed => (requestsEnd_of_exec h).of_last_start pushed

end Sys2Proof.Machine

namespace Sys2Proof.Machine

/-! ### Who writes the configuration (10_state R36, 20_memory R74) -/

/-- `t` has the open parameters, `CFG`, `T_REORD` and the keys of `s`. -/
structure SameConfig (s t : State) : Prop where
  params : t.params = s.params
  cfg : t.cfg = s.cfg
  tReord : t.tReord = s.tReord
  kCpInt : t.kCpInt = s.kCpInt
  kCpEnc : t.kCpEnc = s.kCpEnc
  kUpInt : t.kUpInt = s.kUpInt
  kUpEnc : t.kUpEnc = s.kUpEnc

theorem SameConfig.refl (s : State) : SameConfig s s := ⟨rfl, rfl, rfl, rfl, rfl, rfl, rfl⟩

theorem SameConfig.trans {s t u : State} (h : SameConfig s t) (k : SameConfig t u) : SameConfig s u :=
  ⟨k.params.trans h.params, k.cfg.trans h.cfg, k.tReord.trans h.tReord, k.kCpInt.trans h.kCpInt,
    k.kCpEnc.trans h.kCpEnc, k.kUpInt.trans h.kUpInt, k.kUpEnc.trans h.kUpEnc⟩

theorem sameConfig_raise (s : State) (e : ErrorClass) : SameConfig s (s.raise e) := by constructor <;> simp

theorem sameConfig_completeWith (s : State) (r : ResultCode) (d : Option Word) : SameConfig s (s.completeWith r d) :=
  ⟨rfl, rfl, rfl, rfl, rfl, rfl, rfl⟩

theorem sameConfig_withWork (s : State) (k : Work) : SameConfig s (s.withWork k) :=
  ⟨rfl, rfl, rfl, rfl, rfl, rfl, rfl⟩

theorem sameConfig_closeStore (s : State) : SameConfig s s.closeStore := ⟨rfl, rfl, rfl, rfl, rfl, rfl, rfl⟩

theorem sameConfig_startTimer (s : State) : SameConfig s s.startTimer := ⟨rfl, rfl, rfl, rfl, rfl, rfl, rfl⟩

theorem sameConfig_releaseEntity (s : State) : SameConfig s s.releaseEntity := by constructor <;> simp

theorem sameConfig_consecutiveDrain (s : State) : SameConfig s s.consecutiveDrain := by constructor <;> simp

theorem sameConfig_expiryDrain (s : State) : SameConfig s s.expiryDrain := by constructor <;> simp

theorem sameConfig_expiryBody (s : State) : SameConfig s s.expiryBody.1 := by
  have drain := sameConfig_expiryDrain s
  rcases expiryBody_cases s with ⟨_, e⟩ | ⟨_, _, e⟩ | ⟨_, _, e⟩ <;> rw [e]
  · exact drain
  · exact drain.trans ⟨rfl, rfl, rfl, rfl, rfl, rfl, rfl⟩
  · exact drain.trans (sameConfig_startTimer _)

theorem sameConfig_drainIfNext (s : State) : SameConfig s s.drainIfNext := by
  unfold State.drainIfNext
  split
  · exact sameConfig_consecutiveDrain s
  · exact .refl s

theorem sameConfig_stopIfDue (s : State) : SameConfig s s.stopIfDue := by
  rcases stopIfDue_cases s with ⟨_, _, e⟩ | ⟨_, e⟩ <;> rw [e]
  · exact ⟨rfl, rfl, rfl, rfl, rfl, rfl, rfl⟩
  · exact .refl s

theorem sameConfig_startIfNeeded (s : State) : SameConfig s s.startIfNeeded.1 := by
  rcases startIfNeeded_cases s with ⟨_, e⟩ | ⟨_, e⟩ | ⟨_, _, _, _, e⟩ | ⟨_, _, _, e⟩ <;> rw [e]
  · exact .refl s
  · have moved : SameConfig s { s with rxReord := s.rxNext } := ⟨rfl, rfl, rfl, rfl, rfl, rfl, rfl⟩
    exact moved.trans (sameConfig_expiryBody _)
  · exact sameConfig_startTimer s
  · exact .refl s

/-- Steps 5 to 7 of an accepted `RX_PDU` read the configuration only (40 R116 to R118). -/
theorem sameConfig_acceptPdu (s : State) (payload : Octets) : SameConfig s (s.acceptPdu payload) := by
  have insert : SameConfig s (s.insertPdu payload) := ⟨rfl, rfl, rfl, rfl, rfl, rfl, rfl⟩
  have timer (u : State) : SameConfig u u.timerManagement.1 :=
    (sameConfig_stopIfDue u).trans (sameConfig_startIfNeeded u.stopIfDue)
  exact ((insert.trans (sameConfig_drainIfNext _)).trans (timer _)).trans (sameConfig_completeWith _ _ none)

/-- Every instruction keeps the configuration, but a `CSRW` while IDLE, which keeps the open parameters alone. -/
theorem sameConfig_or_csrw_of_exec {i : Instr} {s t : State} (h : exec i s = .next t) :
    SameConfig s t ∨ (t.params = s.params ∧ ∃ n v, i = .csrw n v ∧ s.lc = .idle) := by
  cases runs_of_exec h with
  | refused e _ => exact .inl (sameConfig_raise s e)
  | read _ _ r v => exact .inl (sameConfig_completeWith s r (some v))
  | written n v hi idle => exact .inr ⟨State.writeCsr_params s n.toNat v, n, v, hi, idle⟩
  | created _ _ _ => exact .inl ⟨rfl, rfl, rfl, rfl, rfl, rfl, rfl⟩
  | released _ _ => exact .inl ((sameConfig_releaseEntity s).trans (sameConfig_completeWith _ _ none))
  | expired _ _ x hx =>
    have cleared : SameConfig s x := hx ▸ ⟨rfl, rfl, rfl, rfl, rfl, rfl, rfl⟩
    exact .inl ((cleared.trans (sameConfig_expiryBody x)).trans (sameConfig_completeWith _ _ none))
  | rejected _ _ _ e k =>
    exact .inl (((sameConfig_withWork s k).trans (sameConfig_raise _ e)).trans (sameConfig_closeStore _))
  | accepted _ _ _ k payload =>
    exact .inl (((sameConfig_withWork s k).trans (sameConfig_acceptPdu _ payload)).trans (sameConfig_closeStore _))

/-- Settles O47, by the ways in which an instruction runs. -/
theorem configurationIsFixedWhileAnEntityExists : Obligations.ConfigurationIsFixedWhileAnEntityExists := by
  intro i s t h
  rcases sameConfig_or_csrw_of_exec h with same | ⟨params, write⟩
  · exact ⟨same.params, .inr ⟨same.cfg, same.tReord, same.kCpInt, same.kCpEnc, same.kUpInt, same.kUpEnc⟩⟩
  · exact ⟨params, .inl write⟩

/-! ### What an instruction pushes on the output queues (10_state R42, 20_memory R71, 70_reset R332) -/

/-- Every queue and the trace only gain, and gain the same pushes. -/
theorem exists_pushes_of_exec {i : Instr} {s t : State} (h : exec i s = .next t) : ∃ pushed, Pushes s t pushed := by
  cases runs_of_exec h with
  | refused e _ => exact ⟨_, raise_pushes e s⟩
  | read _ _ _ _ => exact ⟨_, pushes_nothing ⟨rfl, rfl, rfl, rfl⟩⟩
  | written n v _ _ => exact ⟨_, pushes_nothing (by simp)⟩
  | created _ _ _ => exact ⟨_, pushes_nothing ⟨rfl, rfl, rfl, rfl⟩⟩
  | released _ _ =>
    obtain ⟨_, stop⟩ := stopIfRunning_pushes s
    exact ⟨_, pushes_congr stop ⟨rfl, rfl, rfl, rfl⟩ ⟨rfl, rfl, rfl, rfl⟩⟩
  | expired _ _ x hx =>
    obtain ⟨_, body⟩ := expiryBody_pushes x
    exact ⟨_, pushes_congr body (by simp [hx]) ⟨rfl, rfl, rfl, rfl⟩⟩
  | rejected _ _ _ e k => exact (sameEntity_rejectPdu s k e).pushes
  | accepted _ _ _ k payload =>
    obtain ⟨_, accept⟩ := acceptPdu_pushes payload (s.withWork k)
    exact ⟨_, pushes_congr accept ⟨rfl, rfl, rfl, rfl⟩ ⟨rfl, rfl, rfl, rfl⟩⟩

@[simp] theorem State.expiryBody_ulCtrl (s : State) : s.expiryBody.1.ulCtrl = s.ulCtrl := by
  have drain := State.expiryDrain_ulCtrl s
  rcases expiryBody_cases s with ⟨_, e⟩ | ⟨_, _, e⟩ | ⟨_, _, e⟩ <;> rw [e] <;> exact drain

@[simp] theorem State.drainIfNext_ulCtrl (s : State) : s.drainIfNext.ulCtrl = s.ulCtrl := by
  unfold State.drainIfNext; split <;> simp

@[simp] theorem State.stopIfDue_ulCtrl (s : State) : s.stopIfDue.ulCtrl = s.ulCtrl := by
  rcases stopIfDue_cases s with ⟨_, _, e⟩ | ⟨_, e⟩ <;> simp [e]

@[simp] theorem State.startIfNeeded_ulCtrl (s : State) : s.startIfNeeded.1.ulCtrl = s.ulCtrl := by
  rcases startIfNeeded_cases s with ⟨_, e⟩ | ⟨_, e⟩ | ⟨_, _, _, _, e⟩ | ⟨_, _, _, e⟩ <;> simp [e]

/-- An accepted PDU notifies nothing: the only notification is that of class (3) (60 R283). -/
theorem acceptPdu_ulCtrl (s : State) (payload : Octets) : (s.acceptPdu payload).ulCtrl = s.ulCtrl :=
  calc (s.acceptPdu payload).ulCtrl
    _ = (s.insertPdu payload).drainIfNext.stopIfDue.startIfNeeded.1.ulCtrl := rfl
    _ = s.ulCtrl := by simp

/-- From `s` to `t` nothing was notified, or one integrity failure, which is then the result (60 R283). -/
def NotifiesAtMostOnce (s t : State) : Prop :=
  t.ulCtrl = s.ulCtrl ∨ (t.result = .integFail ∧ t.ulCtrl = s.ulCtrl ++ [.integrityFailure])

theorem raise_notifiesAtMostOnce (s : State) (e : ErrorClass) : NotifiesAtMostOnce s (s.raise e) := by
  cases e
  case integrityFailure => exact .inr ⟨rfl, rfl⟩
  all_goals exact .inl rfl

theorem notifiesAtMostOnce_of_exec {i : Instr} {s t : State} (h : exec i s = .next t) : NotifiesAtMostOnce s t := by
  cases runs_of_exec h with
  | refused e _ => exact raise_notifiesAtMostOnce s e
  | read _ _ _ _ => exact .inl rfl
  | written n v _ _ => exact .inl (by simp)
  | created _ _ _ => exact .inl rfl
  | released _ _ => exact .inl (by simp)
  | expired _ _ x hx => exact .inl (by simp [hx])
  | rejected _ _ _ e k => exact raise_notifiesAtMostOnce (s.withWork k) e
  | accepted _ _ _ k payload => exact .inl (acceptPdu_ulCtrl (s.withWork k) payload)

/-- Settles O49: an instruction's pushes say what each queue gains, and only a failed verdict notifies. -/
theorem outputQueuesOnlyGrow : Obligations.OutputQueuesOnlyGrow := by
  intro i s t h
  obtain ⟨pushed, p⟩ := exists_pushes_of_exec h
  exact ⟨⟨_, p.data.symm⟩, ⟨_, p.timer.symm⟩, notifiesAtMostOnce_of_exec h, pushed, p⟩

end Sys2Proof.Machine

namespace Sys2Proof.Machine

/-! ### What the decoder reads from a command's fields (30_encoding R81, R82, R84, R86) -/

theorem decodeRxPdu_of_length_le {len : Nat} {rest : Octets} (h : len ≤ rest.length) :
    decodeRxPdu len rest = .command (.rxPdu (rest.take len)) (rest.drop len) := if_neg (Nat.not_lt.2 h)

/-- Settles O1: each opcode has its one branch, and two formats read their operand data behind the word. -/
theorem commandFieldsSelectTheCommand : Obligations.CommandFieldsSelectTheCommand := by
  intro opc csrn len rest
  refine ⟨?create, ?rxPdu, ?tExpire, ?release, ?csrw, ?csrr⟩ <;> rintro rfl
  case create => rfl
  case rxPdu => exact decodeRxPdu_of_length_le
  case tExpire => rfl
  case release => rfl
  case csrw => exact fun v => decodeCsrw_wordOctets csrn v rest
  case csrr => rfl

/-- Settles O3: the written-out words, one evaluation of the decoder each. -/
theorem writtenOutWordsDecode : Obligations.WrittenOutWordsDecode := by
  refine ⟨?create, ?rxPdu, ?tExpire, ?release, ?csrw, ?csrr, ?pdu12, ?pdu18⟩ <;> decide

theorem decodeFields_of_reserved {opc : Octet} (csrn : Octet) (len : Nat) (rest : Octets) (notCreate : opc ≠ 0x01#8)
    (notRxPdu : opc ≠ 0x02#8) (notTExpire : opc ≠ 0x03#8) (notRelease : opc ≠ 0x04#8) (notCsrw : opc ≠ 0x10#8)
    (notCsrr : opc ≠ 0x11#8) : decodeFields opc csrn len rest = .reservedOpcode opc rest := by
  rw [decodeFields, if_neg notCreate, if_neg notRxPdu, if_neg notTExpire, if_neg notRelease, if_neg notCsrw,
    if_neg notCsrr]

theorem step_of_reservedOpcode {s : State} {opc : Octet} {rest : Octets} (h : decode s.port = .reservedOpcode opc rest) :
    step s = .next ((s.accept rest).raise .illegalCommand) := by
  rw [step, State.runNext, h]; rfl

/-- Settles O7: no opcode of a command is left to select, and ILLEGAL_CMD has no side effect (60_exceptions R280). -/
theorem reservedOpcodeIsIllegal : Obligations.ReservedOpcodeIsIllegal :=
  ⟨fun _ csrn len rest h1 h2 h3 h4 h5 h6 => decodeFields_of_reserved csrn len rest h1 h2 h3 h4 h5 h6,
    fun _ _ _ h => step_of_reservedOpcode h⟩

/-! ### The header of a PDU (30_encoding R87, R88) -/

/-- The upper `m` and the lower `n` bits of a number make it up. -/
theorem upper_append_lower (m n : Nat) (x : BitVec (m + n)) : x.extractLsb' n m ++ x.extractLsb' 0 n = x :=
  (BitVec.extractLsb'_append_extractLsb'_eq_extractLsb' (Nat.zero_add n).symm).trans BitVec.extractLsb'_eq_self

/-- The SN of a `PDU18` lies in its upper 2 bits and two octets (R88). -/
theorem sn18_parts_append (sn : BitVec 18) :
    sn.extractLsb' 16 2 ++ sn.extractLsb' 8 8 ++ sn.extractLsb' 0 8 = sn := by
  have upper : sn.extractLsb' 16 2 ++ sn.extractLsb' 8 8 = sn.extractLsb' 8 10 :=
    BitVec.extractLsb'_append_extractLsb'_eq_extractLsb' rfl
  rw [upper]
  exact upper_append_lower 10 8 sn

theorem decodePdu12_header12 (r : BitVec 4) (sn : BitVec 12) {body : Octets} (h : body ≠ []) :
    decodePdu12 (header12 r sn ++ body) = .pdu (.pdu12 r sn body) := by
  obtain ⟨o, rest, rfl⟩ := List.exists_cons_of_ne_nil h
  show DecodedPdu.pdu (.pdu12 ((r ++ sn.extractLsb' 8 4).extractLsb' 4 4)
    ((r ++ sn.extractLsb' 8 4).extractLsb' 0 4 ++ sn.extractLsb' 0 8) (o :: rest)) = _
  rw [BitVec.extractLsb'_append_eq_left, BitVec.extractLsb'_append_eq_right]
  exact congrArg (fun x => DecodedPdu.pdu (.pdu12 r x (o :: rest))) (upper_append_lower 4 8 sn)

theorem decodePdu18_header18 (r : BitVec 6) (sn : BitVec 18) {body : Octets} (h : body ≠ []) :
    decodePdu18 (header18 r sn ++ body) = .pdu (.pdu18 r sn body) := by
  obtain ⟨o, rest, rfl⟩ := List.exists_cons_of_ne_nil h
  show DecodedPdu.pdu (.pdu18 ((r ++ sn.extractLsb' 16 2).extractLsb' 2 6)
    ((r ++ sn.extractLsb' 16 2).extractLsb' 0 2 ++ sn.extractLsb' 8 8 ++ sn.extractLsb' 0 8) (o :: rest)) = _
  rw [BitVec.extractLsb'_append_eq_left, BitVec.extractLsb'_append_eq_right, sn18_parts_append]

/-- The header that the fields of a first octet and the next octet make up is those two octets. -/
theorem header12_fields (o0 o1 : Octet) :
    header12 (o0.extractLsb' 4 4) (o0.extractLsb' 0 4 ++ o1) = [o0, o1] := by
  have high : (o0.extractLsb' 0 4 ++ o1).extractLsb' 8 4 = o0.extractLsb' 0 4 := BitVec.extractLsb'_append_eq_left
  have first : o0.extractLsb' 4 4 ++ o0.extractLsb' 0 4 = o0 := upper_append_lower 4 4 o0
  rw [header12, high, first, BitVec.extractLsb'_append_eq_right]

theorem header18_fields (o0 o1 o2 : Octet) :
    header18 (o0.extractLsb' 2 6) (o0.extractLsb' 0 2 ++ o1 ++ o2) = [o0, o1, o2] := by
  have first : o0.extractLsb' 2 6 ++ o0.extractLsb' 0 2 = o0 := upper_append_lower 6 2 o0
  have high : (o0.extractLsb' 0 2 ++ o1 ++ o2).extractLsb' 16 2 = o0.extractLsb' 0 2 := by
    ext j hj; simp; grind
  have middle : (o0.extractLsb' 0 2 ++ o1 ++ o2).extractLsb' 8 8 = o1 := by
    ext j hj; simp; grind
  rw [header18, high, first, middle, BitVec.extractLsb'_append_eq_right]

theorem encode_of_decodePdu12 {pdu : Octets} {i : Instr} (h : decodePdu12 pdu = .pdu i) : encode i = pdu := by
  unfold decodePdu12 at h
  split at h
  case h_1 o0 o1 o2 rest =>
    cases h
    exact congrArg (· ++ o2 :: rest) (header12_fields o0 o1)
  case h_2 => cases h

theorem encode_of_decodePdu18 {pdu : Octets} {i : Instr} (h : decodePdu18 pdu = .pdu i) : encode i = pdu := by
  unfold decodePdu18 at h
  split at h
  case h_1 o0 o1 o2 o3 rest =>
    cases h
    exact congrArg (· ++ o3 :: rest) (header18_fields o0 o1 o2)
  case h_2 => cases h

/-- The octets of a PDU are those of the instruction it decodes to, under either width (R95). -/
theorem encode_of_decodePdu {field : BitVec 6} {pdu : Octets} {i : Instr} (h : decodePdu field pdu = .pdu i) :
    encode i = pdu := by
  unfold decodePdu at h
  split at h
  · exact encode_of_decodePdu12 h
  · exact encode_of_decodePdu18 h
  · cases h

theorem ne_nil_of_hasBody {body : Octets} {fits : Bool} (h : (hasBody body && fits) = true) : body ≠ [] := by
  rintro rfl
  cases h

/-- Settles O2: the fields of a command word and of a PDU header are read back as they were packed, and packed as they
were read. -/
theorem decodeAndEncodeAgree : Obligations.DecodeAndEncodeAgree :=
  ⟨fun _ rest hwf hc => decode_encode rest hwf hc, fun r sn _ hwf => decodePdu12_header12 r sn (ne_nil_of_hasBody hwf),
    fun r sn _ hwf => decodePdu18_header18 r sn (ne_nil_of_hasBody hwf), fun _ _ _ h => encode_of_decodePdu h⟩

end Sys2Proof.Machine

namespace Sys2Proof.Machine

/-! ### `RX_PDU` and the two PDU formats: one meaning, its gates (40_reception R110; log 6) -/

/-- An instruction that hands the block a PDU receives its octets (log 6). -/
theorem exec_of_pdu {i : Instr} {pdu : Octets} (hp : i.pdu? = some pdu) (s : State) :
    exec i s = .next (s.receive machineCrypto pdu) := by
  cases i with
  | rxPdu p => cases hp; rfl
  | pdu12 r sn body => cases hp; rfl
  | pdu18 r sn body => cases hp; rfl
  | _ => cases hp

theorem receive_of_oversized {s : State} {pdu : Octets} (c : Crypto) (long : s.params.maxPduLen.toNat < pdu.length) :
    s.receive c pdu = s.raise .illegalCommand := if_pos long

theorem receive_of_not_active {s : State} {pdu : Octets} (c : Crypto) (fits : pdu.length ≤ s.params.maxPduLen.toNat)
    (inactive : s.lc ≠ .active) : s.receive c pdu = s.raise .ignored := by
  rw [State.receive, if_neg (Nat.not_lt.2 fits), if_pos inactive]

theorem receive_of_active {s : State} {pdu : Octets} (c : Crypto) (fits : pdu.length ≤ s.params.maxPduLen.toNat)
    (active : s.lc = .active) : s.receive c pdu = ((s.openStore pdu).handlePdu c).closeStore := by
  rw [State.receive, if_neg (Nat.not_lt.2 fits), if_neg (not_not.2 active)]

/-- Settles O17: the length gate of `RX_PDU` comes first, and ILLEGAL_CMD has no side effect (60_exceptions R289). -/
theorem oversizedPduIsIllegal : Obligations.OversizedPduIsIllegal :=
  fun _ _ s hp long => (exec_of_pdu hp s).trans (congrArg _ (receive_of_oversized machineCrypto long))

/-- At the end of a rejected PDU nothing is left of what the store held (10_state R41; 60_exceptions R291). -/
theorem raise_withWork_closeStore (s : State) (k : Work) (e : ErrorClass) :
    ((s.withWork k).raise e).closeStore = (s.raise e).closeStore := by
  cases e <;> rfl

theorem receive_of_malformed {s : State} {pdu : Octets} (c : Crypto) (fits : pdu.length ≤ s.params.maxPduLen.toNat)
    (active : s.lc = .active) (malformed : checkWellformed s.cfg pdu.length = none) :
    s.receive c pdu = (s.raise .malformedPdu).closeStore := by
  rw [receive_of_active c fits active, State.handlePdu, State.openStore_cfg, State.openStore_work, pduLen_toNat fits,
    malformed]
  exact raise_withWork_closeStore s _ _

/-- Steps 1 and 2 of a parsed PDU (40_reception R110 to R113). -/
theorem receive_of_parses {s : State} {pdu : Octets} {w : SnWidth} {sn : Word} (c : Crypto) (h : s.Parses pdu w sn) :
    s.receive c pdu = ((s.withWork (workOf pdu w sn s.rxDeliv)).verifyAndAccept c w).closeStore := by
  obtain ⟨fits, active, wellformed, number⟩ := parses_iff.1 h
  rw [receive_of_active c fits active, State.handlePdu, State.openStore_cfg, State.openStore_work, pduLen_toNat fits,
    wellformed]
  simp only [number]
  rfl

/-! ### What steps 5 to 7 take from the store: the COUNT alone (40_reception R116 to R118) -/

theorem drainRounds_withWork (n : Nat) (s : State) (k : Work) :
    drainRounds n (s.withWork k) = (drainRounds n s).withWork k := by
  induction n generalizing s with
  | zero => rfl
  | succ n ih =>
    rw [drainRounds, drainRounds, State.withWork_buf, State.withWork_rxDeliv]
    cases Buffer.find s.buf s.rxDeliv with
    | none => rfl
    | some p => exact ih (s.deliverNext p)

theorem consecutiveDrain_withWork (s : State) (k : Work) :
    (s.withWork k).consecutiveDrain = s.consecutiveDrain.withWork k := drainRounds_withWork s.buf.length s k

theorem expiryDrain_withWork (s : State) (k : Work) : (s.withWork k).expiryDrain = s.expiryDrain.withWork k :=
  consecutiveDrain_withWork { s.drainBelow s.rxReord with rxDeliv := s.rxReord } k

theorem outstanding_withWork (s : State) (k : Work) : (s.withWork k).outstanding = s.outstanding := rfl

theorem timerDue_withWork (s : State) (k : Work) : (s.withWork k).timerDue = s.timerDue := rfl

theorem expiryRestart_withWork (s : State) (k : Work) :
    (s.withWork k).expiryRestart = (s.expiryRestart.1.withWork k, s.expiryRestart.2) := by
  unfold State.expiryRestart
  rw [outstanding_withWork, State.withWork_tReord]
  split_ifs <;> rfl

theorem expiryBody_withWork (s : State) (k : Work) :
    (s.withWork k).expiryBody = (s.expiryBody.1.withWork k, s.expiryBody.2) := by
  rw [State.expiryBody, expiryDrain_withWork]
  exact expiryRestart_withWork s.expiryDrain k

theorem stopIfDue_withWork (s : State) (k : Work) : (s.withWork k).stopIfDue = s.stopIfDue.withWork k := by
  unfold State.stopIfDue
  rw [timerDue_withWork]
  split <;> rfl

theorem startIfNeeded_withWork (s : State) (k : Work) :
    (s.withWork k).startIfNeeded = (s.startIfNeeded.1.withWork k, s.startIfNeeded.2) := by
  unfold State.startIfNeeded
  rw [outstanding_withWork, State.withWork_tReord, State.withWork_timerRunning]
  split_ifs
  · rfl
  · exact expiryBody_withWork { s with rxReord := s.rxNext } k
  · rfl
  · rfl

theorem timerManagement_withWork (s : State) (k : Work) :
    (s.withWork k).timerManagement = (s.timerManagement.1.withWork k, s.timerManagement.2) := by
  rw [State.timerManagement, stopIfDue_withWork]
  exact startIfNeeded_withWork s.stopIfDue k

/-- Step 5 with the COUNT as an operand, not in the store (40_reception R116; `insertPdu_withWork`). -/
def State.insertAt (count : Word) (payload : Octets) (s : State) : State :=
  { s with buf := Buffer.insert s.buf count payload, rxNext := maxCount s.rxNext (count + 1) }

/-- Steps 5 and 6 with the COUNT as an operand (40_reception R116, R117; `drainIfNext_insertPdu_withWork`). -/
def State.insertAndDrain (count : Word) (payload : Octets) (s : State) : State :=
  if count = s.rxDeliv then (s.insertAt count payload).consecutiveDrain else s.insertAt count payload

theorem insertPdu_withWork (s : State) (k : Work) (payload : Octets) :
    (s.withWork k).insertPdu payload = (s.insertAt k.rcvdCount payload).withWork k := rfl

theorem drainIfNext_insertPdu_withWork (s : State) (k : Work) (payload : Octets) :
    ((s.withWork k).insertPdu payload).drainIfNext = (s.insertAndDrain k.rcvdCount payload).withWork k := by
  rw [insertPdu_withWork, State.drainIfNext, consecutiveDrain_withWork]
  show (if k.rcvdCount = s.rxDeliv then _ else _) = _
  unfold State.insertAndDrain
  split_ifs <;> rfl

/-- The end of an accepted PDU depends on its COUNT and payload alone (40_reception R116 to R118). -/
theorem acceptPdu_withWork_closeStore (s : State) (k : Work) (payload : Octets) :
    ((s.withWork k).acceptPdu payload).closeStore =
      ((s.insertAndDrain k.rcvdCount payload).timerManagement.1.complete
        (s.insertAndDrain k.rcvdCount payload).timerManagement.2).closeStore := by
  rw [State.acceptPdu, drainIfNext_insertPdu_withWork, timerManagement_withWork]
  rfl

/-- Step 4 with the COUNT read from the store (40_reception R115). -/
theorem discardOrAccept_withWork (s : State) (k : Work) (w : SnWidth) (payload : Octets) :
    (s.withWork k).discardOrAccept w payload =
      if k.rcvdCount < s.rxDeliv then (s.withWork k).raise .stale
      else if Buffer.holds s.buf k.rcvdCount then (s.withWork k).raise .duplicate
      else if Buffer.full w s.buf then (s.withWork k).raise .internalFault
      else (s.withWork k).acceptPdu payload := rfl

/-- Steps 4 to 7 depend on the COUNT in the store alone (40_reception R115 to R118). -/
theorem discardOrAccept_closeStore_congr {k k' : Work} (h : k.rcvdCount = k'.rcvdCount) (s : State) (w : SnWidth)
    (payload : Octets) :
    ((s.withWork k).discardOrAccept w payload).closeStore = ((s.withWork k').discardOrAccept w payload).closeStore := by
  rw [discardOrAccept_withWork, discardOrAccept_withWork, h]
  split_ifs
  · rw [raise_withWork_closeStore, raise_withWork_closeStore]
  · rw [raise_withWork_closeStore, raise_withWork_closeStore]
  · rw [raise_withWork_closeStore, raise_withWork_closeStore]
  · rw [acceptPdu_withWork_closeStore, acceptPdu_withWork_closeStore, h]

/-- Step 3 with the PDU and its COUNT read from the store (40_reception R114). -/
theorem verifyAndAccept_withWork (c : Crypto) (s : State) (k : Work) (w : SnWidth) :
    (s.withWork k).verifyAndAccept c w =
      if (securityRx c w s k.pdu k.rcvdCount).1 then
        (s.withWork k).discardOrAccept w (securityRx c w s k.pdu k.rcvdCount).2
      else (s.withWork k).raise .integrityFailure := rfl

/-- Steps 3 to 7 depend on the COUNT in the store and on what the Security Engine makes of its PDU. -/
theorem verifyAndAccept_closeStore_congr {c : Crypto} {s : State} {w : SnWidth} {k k' : Work}
    (count : k.rcvdCount = k'.rcvdCount)
    (security : securityRx c w s k.pdu k.rcvdCount = securityRx c w s k'.pdu k'.rcvdCount) :
    ((s.withWork k).verifyAndAccept c w).closeStore = ((s.withWork k').verifyAndAccept c w).closeStore := by
  rw [verifyAndAccept_withWork, verifyAndAccept_withWork, security]
  split
  · exact discardOrAccept_closeStore_congr count s w _
  · rw [raise_withWork_closeStore, raise_withWork_closeStore]

/-- An accepted PDU runs steps 5 to 7 (40_reception R116 to R118). -/
theorem receive_of_accepts {c : Crypto} {s : State} {pdu : Octets} {w : SnWidth} {sn : Word} {payload : Octets}
    (a : Accepts c s pdu w sn payload) :
    s.receive c pdu = ((s.withWork (workOf pdu w sn s.rxDeliv)).acceptPdu payload).closeStore := by
  obtain ⟨parses, _, _⟩ := accepts_iff.2 a
  have security : securityRx c w s (workOf pdu w sn s.rxDeliv).pdu (workOf pdu w sn s.rxDeliv).rcvdCount =
    (true, payload) := a.security
  have duplicate : ¬ Buffer.holds s.buf (rcvdCountOf w sn s.rxDeliv) = true := Bool.eq_false_iff.1 a.notDuplicate
  have full : ¬ Buffer.full w s.buf = true := Bool.eq_false_iff.1 a.notFull
  rw [receive_of_parses c parses, verifyAndAccept_withWork, security, if_pos rfl, discardOrAccept_withWork]
  exact congrArg State.closeStore ((if_neg a.notStale).trans ((if_neg duplicate).trans (if_neg full)))

/-! ### The steps of the machine follow the rules (44 R193, 41 R141, 40 R116 to R118) -/

theorem drainLoop_consecutiveDrain (s : State) : DrainLoop s s.consecutiveDrain :=
  consecutiveDrain_induction (P := DrainLoop) (fun s gap => .stop s (Buffer.find_none_iff.1 gap))
    (fun s p found more => .turn s _ p found more) s

theorem drainLoop_expiryDrain (s : State) : DrainLoop s.expirySwept s.expiryDrain :=
  drainLoop_consecutiveDrain s.expirySwept

theorem expiryRun_expiryBody (s : State) : ExpiryRun s s.expiryBody.1 s.expiryBody.2 := by
  have drained := drainLoop_expiryDrain s
  have next : s.expiryDrain.rxNext = s.rxNext := State.expiryDrain_rxNext s
  have duration : s.expiryDrain.tReord = s.tReord := State.expiryDrain_tReord s
  rcases expiryBody_cases s with ⟨done, e⟩ | ⟨more, zero, e⟩ | ⟨more, nonzero, e⟩ <;> rw [e]
  · exact .settled _ drained (next ▸ done)
  · exact .faulted _ drained (next ▸ more) (duration ▸ zero)
  · exact .restarted _ drained (next ▸ more) (duration ▸ nonzero)

theorem stopIfDue_eq_stopped7a (s : State) : s.stopIfDue = s.stopped7a := by
  rcases stopIfDue_cases s with ⟨running, due, e⟩ | ⟨no, e⟩ <;> rw [e, State.stopped7a]
  · exact (if_pos ⟨running, due⟩).symm
  · exact (if_neg no).symm

/-- Step 7a leaves what step 7b reads of the COUNT registers and the duration. -/
theorem stopped7a_frame (s : State) :
    s.stopped7a.rxNext = s.rxNext ∧ s.stopped7a.rxDeliv = s.rxDeliv ∧ s.stopped7a.tReord = s.tReord := by
  unfold State.stopped7a
  split <;> exact ⟨rfl, rfl, rfl⟩

theorem timerRun_timerManagement (s : State) : TimerRun s s.timerManagement.1 s.timerManagement.2 := by
  obtain ⟨next, deliv, duration⟩ := stopped7a_frame s
  rw [State.timerManagement, stopIfDue_eq_stopped7a]
  rcases startIfNeeded_cases s.stopped7a with
    ⟨inf, e⟩ | ⟨zero, e⟩ | ⟨finite, nonzero, idle, more, e⟩ | ⟨finite, nonzero, no, e⟩ <;> rw [e]
  · exact .infinite (duration ▸ inf)
  · exact .zero _ _ (duration ▸ zero) (next ▸ expiryRun_expiryBody _)
  · have run := TimerRun.start (s := s) (duration ▸ finite) (duration ▸ nonzero) idle (by rwa [deliv, next] at more)
    rw [← next, ← duration] at run
    exact run
  · exact .keep (duration ▸ finite) (duration ▸ nonzero) (by rwa [deliv, next] at no)

theorem insertRun_insertAndDrain (s : State) (count : Word) (payload : Octets) :
    InsertRun s count payload (s.insertAndDrain count payload) := by
  unfold State.insertAndDrain
  refine ⟨fun next => ?_, fun later => if_neg later⟩
  rw [if_pos next]
  exact drainLoop_consecutiveDrain (s.insertAt count payload)

/-- The end of an `RX_PDU` answers it and leaves the store open (10_state R24, R41). -/
theorem complete_closeStore (s : State) (r : ResultCode) :
    ∃ k n, (s.complete r).closeStore = (s.scratched k n).answered r none := ⟨_, _, rfl⟩

/-- A PDU that passes steps 1 to 4 and finds room runs steps 5 to 7, whichever instruction hands it over. -/
theorem exec_of_admits {i : Instr} {pdu : Octets} {s : State} {w : SnWidth} {sn : Word} (hp : i.pdu? = some pdu)
    (parses : s.Parses pdu w sn) (admits : s.Admits machineCrypto pdu w (rcvdCountOf w sn s.rxDeliv)) :
    ∃ d t r k n,
      InsertRun s (rcvdCountOf w sn s.rxDeliv) (rxPayload machineCrypto w s pdu (rcvdCountOf w sn s.rxDeliv)) d ∧
      TimerRun d t r ∧ exec i s = .next ((t.scratched k n).answered r none) := by
  have a := accepts_iff.1 ⟨parses, admits, rfl⟩
  set d := s.insertAndDrain (rcvdCountOf w sn s.rxDeliv) (rxPayload machineCrypto w s pdu (rcvdCountOf w sn s.rxDeliv))
  obtain ⟨k, n, scratched⟩ := complete_closeStore d.timerManagement.1 d.timerManagement.2
  refine ⟨d, _, _, k, n, insertRun_insertAndDrain s _ _, timerRun_timerManagement d, ?_⟩
  rw [exec_of_pdu hp, receive_of_accepts a, acceptPdu_withWork_closeStore]
  exact congrArg _ scratched

/-! ### The header of a PDU as the codec reads it (43_header_codec R180 to R183) -/

/-- The codec's mask keeps the bits of the SN in octet 0 and clears the bits `r` (R180). -/
theorem append_and_lower_mask {m n : Nat} (r : BitVec m) (x : BitVec n) :
    (r ++ x) &&& (0#m ++ BitVec.allOnes n) = 0#m ++ x := by
  rw [BitVec.and_append, BitVec.and_zero, BitVec.and_allOnes]

theorem sn12_header12 (r : BitVec 4) (sn : BitVec 12) (body : Octets) :
    sn12 (header12 r sn ++ body) = sn.setWidth 32 := by
  have masked : (r ++ sn.extractLsb' 8 4) &&& 0x0F#8 = 0#4 ++ sn.extractLsb' 8 4 := append_and_lower_mask r _
  show (((r ++ sn.extractLsb' 8 4) &&& 0x0F#8).setWidth 32 <<< 8 ||| (sn.extractLsb' 0 8).setWidth 32 : Word) = _
  rw [masked]
  ext j hj; simp; grind

theorem sn18_header18 (r : BitVec 6) (sn : BitVec 18) (body : Octets) :
    sn18 (header18 r sn ++ body) = sn.setWidth 32 := by
  have masked : (r ++ sn.extractLsb' 16 2) &&& 0x03#8 = 0#6 ++ sn.extractLsb' 16 2 := append_and_lower_mask r _
  show (((r ++ sn.extractLsb' 16 2) &&& 0x03#8).setWidth 32 <<< 16 ||| (sn.extractLsb' 8 8).setWidth 32 <<< 8 |||
    (sn.extractLsb' 0 8).setWidth 32 : Word) = _
  rw [masked]
  ext j hj; simp; grind

theorem parseHeader_header12 (r : BitVec 4) (sn : BitVec 12) (body : Octets) :
    parseHeader 12#6 (header12 r sn ++ body) = if body.length = 0 then none else some (sn.setWidth 32) := by
  have length : (header12 r sn ++ body).length = 2 + body.length := Laws.EncodeLength.pdu12 r sn body
  have short : (2 + body.length ≤ 2) = (body.length = 0) := by simp
  simp only [parseHeader, if_true, length, short, sn12_header12]

theorem parseHeader_header18 (r : BitVec 6) (sn : BitVec 18) (body : Octets) :
    parseHeader 18#6 (header18 r sn ++ body) = if body.length = 0 then none else some (sn.setWidth 32) := by
  have length : (header18 r sn ++ body).length = 3 + body.length := Laws.EncodeLength.pdu18 r sn body
  have short : (3 + body.length ≤ 3) = (body.length = 0) := by simp
  have other : ¬ (18#6 = 12#6) := by decide
  simp only [parseHeader, if_neg other, if_true, length, short, sn18_header18]

theorem stripHeader_header12 (r : BitVec 4) (sn : BitVec 12) (body : Octets) :
    stripHeader .w12 (header12 r sn ++ body) = body := List.take_length

theorem stripHeader_header18 (r : BitVec 6) (sn : BitVec 18) (body : Octets) :
    stripHeader .w18 (header18 r sn ++ body) = body := List.take_length

/-- A PDU behind whose header something stands, and a whole tag where one is checked, is well formed (R111). -/
theorem checkWellformed_eq_some {cfg : Word} {n : Nat} {w : SnWidth} (width : snWidthOf (cfgSnWidth cfg) = some w)
    (long : hdrLen w < n) (tag : tagPresent cfg = true → hdrLen w + 4 ≤ n) : checkWellformed cfg n = some w := by
  have noShortTag : ¬ (tagPresent cfg && decide (n < hdrLen w + 4)) = true := by
    rw [Bool.and_eq_true, decide_eq_true_iff]
    exact fun ⟨present, short⟩ => absurd (tag present) (Nat.not_le.2 short)
  simp only [checkWellformed, width, if_neg (Nat.not_le.2 long), if_neg noShortTag]

theorem hdrLen_lt_of_wellformed {cfg : Word} {n : Nat} {w : SnWidth} (h : checkWellformed cfg n = some w) :
    hdrLen w < n := by
  have width := checkWellformed_width h
  by_contra short
  simp only [checkWellformed, width, if_pos (Nat.not_lt.1 short)] at h
  cases h

/-- `parse_header` fails on no well-formed PDU (43_header_codec R181). -/
theorem exists_number_of_wellformed {cfg : Word} {pdu : Octets} {w : SnWidth}
    (h : checkWellformed cfg pdu.length = some w) : ∃ sn, parseHeader (cfgSnWidth cfg) pdu = some sn := by
  refine Option.isSome_iff_exists.1 ?_
  rw [parseHeader_isSome (checkWellformed_width h)]
  exact decide_eq_true (hdrLen_lt_of_wellformed h)

theorem parses_header12 {s : State} (width : cfgSnWidth s.cfg = 12#6) (active : s.lc = .active) (bits : BitVec 4)
    (sn : BitVec 12) {body : Octets} (fits : 2 + body.length ≤ s.params.maxPduLen.toNat) (nonempty : 1 ≤ body.length)
    (tag : tagPresent s.cfg = true → 4 ≤ body.length) :
    s.Parses (header12 bits sn ++ body) .w12 (sn.setWidth 32) := by
  have length : (header12 bits sn ++ body).length = 2 + body.length := Laws.EncodeLength.pdu12 bits sn body
  refine parses_iff.2 ⟨length ▸ fits, active, ?_, ?_⟩
  · rw [length]
    exact checkWellformed_eq_some (by rw [width]; rfl) (Nat.lt_add_of_pos_right nonempty)
      fun present => Nat.add_le_add_left (tag present) 2
  · rw [width, parseHeader_header12, if_neg (Nat.ne_of_gt nonempty)]

theorem parses_header18 {s : State} (width : cfgSnWidth s.cfg = 18#6) (active : s.lc = .active) (bits : BitVec 6)
    (sn : BitVec 18) {body : Octets} (fits : 3 + body.length ≤ s.params.maxPduLen.toNat) (nonempty : 1 ≤ body.length)
    (tag : tagPresent s.cfg = true → 4 ≤ body.length) :
    s.Parses (header18 bits sn ++ body) .w18 (sn.setWidth 32) := by
  have length : (header18 bits sn ++ body).length = 3 + body.length := Laws.EncodeLength.pdu18 bits sn body
  refine parses_iff.2 ⟨length ▸ fits, active, ?_, ?_⟩
  · rw [length]
    exact checkWellformed_eq_some (by rw [width]; rfl) (Nat.lt_add_of_pos_right nonempty)
      fun present => Nat.add_le_add_left (tag present) 3
  · rw [width, parseHeader_header18, if_neg (Nat.ne_of_gt nonempty)]

/-- Settles O24: the codec reads the SN back from the header, so the PDU parses under it and runs steps 5 to 7. -/
theorem pdu12AcceptsAndDelivers : Obligations.Pdu12AcceptsAndDelivers :=
  fun bits sn _ _ width active fits body tag admits =>
    exec_of_admits rfl (parses_header12 width active bits sn fits body tag) admits

/-- Settles O25, as O24 under the other width. -/
theorem pdu18AcceptsAndDelivers : Obligations.Pdu18AcceptsAndDelivers :=
  fun bits sn _ _ width active fits body tag admits =>
    exec_of_admits rfl (parses_header18 width active bits sn fits body tag) admits

/-! ### Without a tag the header is read for its SN alone (30_encoding R89) -/

theorem tagPresent_eq_false {cfg : Word} (user : cfgBearerType cfg = 1#1) (off : cfgIntEn cfg = 0#1) :
    tagPresent cfg = false := by
  rw [← Bool.not_eq_true, tagPresent_iff, user, off]
  decide

/-- The header enters `security_rx` only in the message whose tag is checked (42_security_engine R150, R155). -/
theorem securityRx_congr_of_tagless {c : Crypto} {s : State} {w : SnWidth} {p q : Octets}
    (tagless : tagPresent s.cfg = false) (data : stripHeader w p = stripHeader w q) (count : Word) :
    securityRx c w s p count = securityRx c w s q count := by
  simp [securityRx, rxAuthentic, rxPayload, plainBody, tagless, data]

/-- On a bearer without tags two PDUs of one length, one SN and the same octets after the header are received alike. -/
theorem receive_congr_of_tagless {c : Crypto} {s : State} {w : SnWidth} {p q : Octets}
    (tagless : tagPresent s.cfg = false) (width : s.width = some w) (length : p.length = q.length)
    (number : parseHeader (cfgSnWidth s.cfg) p = parseHeader (cfgSnWidth s.cfg) q)
    (data : stripHeader w p = stripHeader w q) : s.receive c p = s.receive c q := by
  by_cases fits : p.length ≤ s.params.maxPduLen.toNat
  case neg =>
    have long : s.params.maxPduLen.toNat < p.length := Nat.not_le.1 fits
    rw [receive_of_oversized c long, receive_of_oversized c (length ▸ long)]
  by_cases active : s.lc = .active
  case neg => rw [receive_of_not_active c fits active, receive_of_not_active c (length ▸ fits) active]
  cases wellformed : checkWellformed s.cfg p.length with
  | none =>
    rw [receive_of_malformed c fits active wellformed,
      receive_of_malformed c (length ▸ fits) active (length ▸ wellformed)]
  | some v =>
    obtain rfl : v = w := Option.some.inj ((checkWellformed_width wellformed).symm.trans width)
    obtain ⟨sn, parsed⟩ := exists_number_of_wellformed wellformed
    have hp : s.Parses p v sn := parses_iff.2 ⟨fits, active, wellformed, parsed⟩
    have hq : s.Parses q v sn := parses_iff.2 ⟨length ▸ fits, active, length ▸ wellformed, number ▸ parsed⟩
    rw [receive_of_parses c hp, receive_of_parses c hq]
    exact verifyAndAccept_closeStore_congr rfl (securityRx_congr_of_tagless tagless data _)

theorem exec_congr_of_tagless {i j : Instr} {p q : Octets} {s : State} {w : SnWidth} (hp : i.pdu? = some p)
    (hq : j.pdu? = some q) (tagless : tagPresent s.cfg = false) (width : s.width = some w) (length : p.length = q.length)
    (number : parseHeader (cfgSnWidth s.cfg) p = parseHeader (cfgSnWidth s.cfg) q)
    (data : stripHeader w p = stripHeader w q) : exec i s = exec j s := by
  rw [exec_of_pdu hp, exec_of_pdu hq, receive_congr_of_tagless tagless width length number data]

/-- Settles O5: PDUs that differ in the bits `r` alone have one SN and one body. -/
theorem headerBitsAboveSnAreIgnored : Obligations.HeaderBitsAboveSnAreIgnored := by
  intro s user off
  have tagless := tagPresent_eq_false user off
  refine ⟨fun width r r' sn body => ?_, fun width r r' sn body => ?_⟩
  · have selected : s.width = some .w12 := by rw [State.width, width]; rfl
    exact exec_congr_of_tagless rfl rfl tagless selected rfl
      (by rw [width, parseHeader_header12, parseHeader_header12]) (by rw [stripHeader_header12, stripHeader_header12])
  · have selected : s.width = some .w18 := by rw [State.width, width]; rfl
    exact exec_congr_of_tagless rfl rfl tagless selected rfl
      (by rw [width, parseHeader_header18, parseHeader_header18]) (by rw [stripHeader_header18, stripHeader_header18])

end Sys2Proof.Machine

namespace Sys2Proof.Machine

/-! ### The window rule and the COUNT it forms (40_reception R112, R113, R124 (a)) -/

/-- HFN and SN of a COUNT are the only ones it is made of (10_state R22). -/
theorem countHfn_countSn_of_eq {w : SnWidth} {c : Word} {h d : Nat} (hc : c.toNat = h * 2 ^ snBits w + d)
    (hd : d < 2 ^ snBits w) : countHfn w c = h ∧ countSn w c = d :=
  (Nat.div_mod_unique (Nat.two_pow_pos _)).2 ⟨by rw [hc, Nat.mul_comm, Nat.add_comm], hd⟩

/-- Settles O26: the three branches, with `HFN - 1` undone by adding 1. -/
theorem windowRuleOnIntegers : Obligations.WindowRuleOnIntegers := by
  intro w sn deliv h d hdeliv hd
  obtain ⟨hfn, number⟩ := countHfn_countSn_of_eq hdeliv hd
  have half : (2 : Int) ^ (snBits w - 1) = (window w : Nat) := by simp [window]
  have hlt : h < 2 ^ hfnBits w := hfn ▸ countHfn_lt w deliv
  have undone : ((h + (2 ^ hfnBits w - 1)) % 2 ^ hfnBits w + 1) % 2 ^ hfnBits w = h := by
    rw [Nat.mod_add_mod, Nat.add_assoc, Nat.sub_add_cancel (Nat.two_pow_pos _), Nat.add_mod_right,
      Nat.mod_eq_of_lt hlt]
  have branches := windowRule_cases w sn deliv
  rw [hfn, number] at branches
  rw [half, ← hfnBits]
  rcases branches with ⟨_, rule⟩ | ⟨_, rule⟩ | ⟨_, _, rule⟩
  · exact ⟨fun _ => rule, fun _ => by omega, fun _ _ => by omega⟩
  · exact ⟨fun _ => by omega, fun _ => ⟨rule ▸ undone, windowRule_lt w sn deliv⟩, fun _ _ => by omega⟩
  · exact ⟨fun _ => by omega, fun _ => by omega, fun _ _ => rule⟩

/-- Settles O28: SN 10 lies more than half the range below SN 4000, and the next HFN exists. -/
theorem windowCrossingMovesToTheNextHfn : Obligations.WindowCrossingMovesToTheNextHfn := by
  intro h deliv hlt hdeliv
  have rule : (windowRule .w12 10#32 deliv).toNat = (h.toNat + 1) % 2 ^ 20 :=
    (windowRuleOnIntegers .w12 10#32 deliv h.toNat 4000 hdeliv (by decide)).1 (by decide)
  have count : (rcvdCountOf .w12 10#32 deliv).toNat = (h.toNat + 1) * 4096 + 10 := by
    rw [rcvdCountOf_toNat (by decide), rule, Nat.mod_eq_of_lt (Nat.add_lt_of_lt_sub hlt)]
    rfl
  refine ⟨count, fun below => ?_⟩
  rw [BitVec.lt_def, count, hdeliv] at below
  omega

/-- `c` lies in the half-open window around `deliv` (R113). -/
def InWindow (w : SnWidth) (deliv c : Word) : Prop :=
  deliv.toNat ≤ c.toNat + window w ∧ c.toNat < deliv.toNat + window w

/-- Neither branch that changes the HFN leaves the HFN range (R113). -/
def HfnStaysInRange (w : SnWidth) (sn deliv : Word) : Prop :=
  (countHfn w deliv = 0 → sn.toNat < countSn w deliv + window w) ∧
    (countHfn w deliv = 2 ^ hfnBits w - 1 → countSn w deliv ≤ sn.toNat + window w)

/-- Inside the HFN range the modular `HFN ± 1` are those of the integers (R112). -/
theorem windowRule_cases_of_hfnStaysInRange {w : SnWidth} {sn deliv : Word} (range : HfnStaysInRange w sn deliv) :
    (sn.toNat + window w < countSn w deliv ∧ (windowRule w sn deliv).toNat = countHfn w deliv + 1) ∨
    (countSn w deliv + window w ≤ sn.toNat ∧ (windowRule w sn deliv).toNat + 1 = countHfn w deliv) ∨
    (countSn w deliv ≤ sn.toNat + window w ∧ sn.toNat < countSn w deliv + window w ∧
      (windowRule w sn deliv).toNat = countHfn w deliv) := by
  obtain ⟨first, last⟩ := range
  have hlt := countHfn_lt w deliv
  rcases windowRule_cases w sn deliv with ⟨below, rule⟩ | ⟨above, rule⟩ | inside
  · have notLast : countHfn w deliv ≠ 2 ^ hfnBits w - 1 := fun h => by have := last h; omega
    exact .inl ⟨below, by rw [rule, Nat.mod_eq_of_lt (by omega)]⟩
  · have notFirst : countHfn w deliv ≠ 0 := fun h => by have := first h; omega
    have shifted : countHfn w deliv + (2 ^ hfnBits w - 1) = countHfn w deliv - 1 + 2 ^ hfnBits w := by omega
    refine .inr (.inl ⟨above, ?_⟩)
    rw [rule, shifted, Nat.add_mod_right, Nat.mod_eq_of_lt (by omega)]
    omega
  · exact .inr (.inr inside)

/-- `RCVD_COUNT` has the received SN (30_encoding R91). -/
theorem countSn_rcvdCountOf {w : SnWidth} {sn : Word} (deliv : Word) (hs : sn.toNat < 2 ^ snBits w) :
    countSn w (rcvdCountOf w sn deliv) = sn.toNat :=
  (countHfn_countSn_of_eq (rcvdCountOf_toNat hs) hs).2

/-- Inside the HFN range `RCVD_COUNT` lies in the window (R113). -/
theorem inWindow_rcvdCountOf {w : SnWidth} {sn deliv : Word} (hs : sn.toNat < 2 ^ snBits w)
    (range : HfnStaysInRange w sn deliv) : InWindow w deliv (rcvdCountOf w sn deliv) := by
  have parts := countHfn_mul_add_countSn w deliv
  have whole := two_mul_window w
  have small := countSn_lt w deliv
  rw [InWindow, rcvdCountOf_toNat hs]
  rcases windowRule_cases_of_hfnStaysInRange range with ⟨_, rule⟩ | ⟨_, rule⟩ | ⟨_, _, rule⟩
  · rw [rule, Nat.add_mul]; omega
  · rw [← rule, Nat.add_mul] at parts; omega
  · rw [rule]; omega

/-- Two COUNTs of one SN in one window are the same: the window is as long as the SN range. -/
theorem eq_of_inWindow {w : SnWidth} {deliv c c' : Word} (number : countSn w c = countSn w c')
    (h : InWindow w deliv c) (h' : InWindow w deliv c') : c = c' := by
  obtain ⟨low, high⟩ := h
  obtain ⟨low', high'⟩ := h'
  have whole := two_mul_window w
  have residue : c.toNat ≡ c'.toNat [MOD 2 ^ snBits w] := number
  refine BitVec.eq_of_toNat_eq (residue.eq_of_abs_lt ?_)
  rw [abs_lt]
  omega

/-- Where the window holds a COUNT of this SN, no branch leaves the HFN range. -/
theorem hfnStaysInRange_of_inWindow {w : SnWidth} {sn deliv c : Word} (number : countSn w c = sn.toNat)
    (h : InWindow w deliv c) : HfnStaysInRange w sn deliv := by
  obtain ⟨low, high⟩ := h
  have parts := countHfn_mul_add_countSn w deliv
  have partsC := countHfn_mul_add_countSn w c
  refine ⟨fun first => ?_, fun last => ?_⟩
  · rw [first] at parts; omega
  · have notAbove : countHfn w c * 2 ^ snBits w ≤ countHfn w deliv * 2 ^ snBits w :=
      Nat.mul_le_mul_right _ (last ▸ Nat.le_sub_one_of_lt (countHfn_lt w c))
    omega

/-- The COUNT of this SN in the window is `RCVD_COUNT`, also at the ends of the HFN range (R113). -/
theorem eq_rcvdCountOf_of_inWindow {w : SnWidth} {sn deliv c : Word} (number : countSn w c = sn.toNat)
    (h : InWindow w deliv c) : c = rcvdCountOf w sn deliv := by
  have hs : sn.toNat < 2 ^ snBits w := number ▸ countSn_lt w c
  exact eq_of_inWindow (number.trans (countSn_rcvdCountOf deliv hs).symm) h
    (inWindow_rcvdCountOf hs (hfnStaysInRange_of_inWindow number h))

/-- Settles O27: `RCVD_COUNT` has the SN and lies in the window, and the window holds no other such COUNT. -/
theorem receivedCountIsTheNearest : Obligations.ReceivedCountIsTheNearest := by
  intro w sn deliv hs first last c
  constructor
  · rintro rfl
    exact ⟨countSn_rcvdCountOf deliv hs, inWindow_rcvdCountOf hs ⟨first, last⟩⟩
  · rintro ⟨number, near⟩
    exact eq_rcvdCountOf_of_inWindow number near

/-! ### Stale and duplicate PDUs (40_reception R115) -/

/-- A PDU whose verdict is good reaches step 4 (R114). -/
theorem receive_of_authentic {c : Crypto} {s : State} {pdu : Octets} {w : SnWidth} {sn : Word}
    (parses : s.Parses pdu w sn) (authentic : rxAuthentic c w s pdu (rcvdCountOf w sn s.rxDeliv) = true) :
    s.receive c pdu = ((s.withWork (workOf pdu w sn s.rxDeliv)).discardOrAccept w
      (rxPayload c w s pdu (rcvdCountOf w sn s.rxDeliv))).closeStore := by
  rw [receive_of_parses c parses, verifyAndAccept_withWork]
  exact congrArg State.closeStore (if_pos authentic)

theorem receive_of_stale {c : Crypto} {s : State} {pdu : Octets} {w : SnWidth} {sn : Word}
    (parses : s.Parses pdu w sn) (authentic : rxAuthentic c w s pdu (rcvdCountOf w sn s.rxDeliv) = true)
    (stale : rcvdCountOf w sn s.rxDeliv < s.rxDeliv) : s.receive c pdu = (s.raise .stale).closeStore := by
  rw [receive_of_authentic parses authentic, discardOrAccept_withWork, ← raise_withWork_closeStore]
  exact congrArg State.closeStore (if_pos stale)

theorem receive_of_duplicate {c : Crypto} {s : State} {pdu : Octets} {w : SnWidth} {sn : Word}
    (parses : s.Parses pdu w sn) (authentic : rxAuthentic c w s pdu (rcvdCountOf w sn s.rxDeliv) = true)
    (fresh : ¬ rcvdCountOf w sn s.rxDeliv < s.rxDeliv) (held : ∃ e ∈ s.buf, e.1 = rcvdCountOf w sn s.rxDeliv) :
    s.receive c pdu = (s.raise .duplicate).closeStore := by
  rw [receive_of_authentic parses authentic, discardOrAccept_withWork, ← raise_withWork_closeStore]
  exact congrArg State.closeStore ((if_neg fresh).trans (if_pos (Buffer.holds_iff.2 held)))

/-- Settles O21: both classes have no side effect (60_exceptions R282). -/
theorem staleAndDuplicatePdusAreDropped : Obligations.StaleAndDuplicatePdusAreDropped := by
  intro i pdu s w sn hp parses authentic
  rw [exec_of_pdu hp]
  refine ⟨fun stale => ?_, fun fresh held => ?_⟩
  · rw [receive_of_stale parses authentic stale]
    exact ⟨_, _, rfl⟩
  · rw [receive_of_duplicate parses authentic fresh held]
    exact ⟨_, _, rfl⟩

/-! ### Acceptance and timer management (40_reception R116 to R118) -/

/-- Settles O23, as O24 and O25: the PDU runs steps 5 to 7. -/
theorem rxPduAcceptsAndDelivers : Obligations.RxPduAcceptsAndDelivers :=
  fun _ _ _ _ parses admits => exec_of_admits rfl parses admits

/-- Settles O39, by what steps 7a and 7b can do. -/
theorem timerManagementFollowsTheRule : Obligations.TimerManagementFollowsTheRule := timerRun_timerManagement

/-! ### An infinite duration (40_reception R118, R124 (h)) -/

@[simp] theorem State.drainIfNext_rxNext (s : State) : s.drainIfNext.rxNext = s.rxNext := by
  unfold State.drainIfNext; split <;> simp

@[simp] theorem State.drainIfNext_timerRunning (s : State) : s.drainIfNext.timerRunning = s.timerRunning := by
  unfold State.drainIfNext; split <;> simp

/-- Step 7a stops no stopped timer. -/
theorem stopIfDue_of_stopped {s : State} (stopped : s.timerRunning = false) : s.stopIfDue = s := by
  rcases stopIfDue_cases s with ⟨running, _, _⟩ | ⟨_, e⟩
  · rw [stopped] at running; cases running
  · exact e

/-- With a stopped timer and an infinite duration steps 7a and 7b do nothing. -/
theorem timerManagement_of_infinite {s : State} (infinite : s.tReord = Config.timerInfinite)
    (stopped : s.timerRunning = false) : s.timerManagement = (s, .ok) := by
  rw [State.timerManagement, stopIfDue_of_stopped stopped, State.startIfNeeded, if_pos infinite]

/-- An accepted PDU then leaves the timer alone. -/
theorem acceptPdu_timer_of_infinite {s : State} (infinite : s.tReord = Config.timerInfinite)
    (stopped : s.timerRunning = false) (payload : Octets) :
    (s.acceptPdu payload).timerRunning = false ∧ (s.acceptPdu payload).timerCmd = s.timerCmd := by
  have duration : (s.insertPdu payload).drainIfNext.tReord = s.tReord := (sameConfig_drainIfNext _).tReord
  have kept := timerManagement_of_infinite (duration.trans infinite) (by simpa using stopped)
  rw [State.acceptPdu, kept]
  simpa using stopped

theorem exec_tExpire_of_stopped {s : State} (stopped : s.timerRunning = false) :
    exec .tExpire s = .next (s.raise .ignored) := by
  show Host.Outcome.next s.expire = _
  simp [State.expire, stopped]

/-- Settles O43, by the ways in which an instruction runs: a stopped timer owes no expiry and no `STOP`. -/
theorem infiniteDurationStartsNoTimer : Obligations.InfiniteDurationStartsNoTimer := by
  intro i s t live infinite stopped h
  cases runs_of_exec h with
  | refused e _ => exact ⟨by simpa using stopped, by simp⟩
  | read _ _ _ _ => exact ⟨stopped, rfl⟩
  | written _ _ _ idle => rw [live] at idle; cases idle
  | created _ idle _ => rw [live] at idle; cases idle
  | released _ _ => simp [stopped]
  | expired hi _ _ _ =>
    subst hi
    rw [Host.Outcome.next.inj (h.symm.trans (exec_tExpire_of_stopped stopped))]
    exact ⟨by simpa using stopped, by simp⟩
  | rejected _ _ _ e k => exact ⟨by simpa using stopped, by simp⟩
  | accepted _ _ _ k payload => exact acceptPdu_timer_of_infinite (s := s.withWork k) infinite stopped payload

/-! ### Delivery in order, exactly once (40_reception R121 (P1)) -/

theorem inOrder_of_invariants {s : State} (sound : s.Sound) (ordered : s.Ordered) : InOrder s :=
  ⟨sound.canonical, ordered.delivNext, ordered.keys⟩

theorem ErrorClass.result_ne_ok (e : ErrorClass) : e.result ≠ .ok := by cases e <;> decide

/-- A PDU is accepted, or it ends with an error and nothing is delivered or stored (R110). -/
theorem receive_accepts_or_keeps (c : Crypto) (s : State) (pdu : Octets) :
    (∃ w sn payload, Accepts c s pdu w sn payload) ∨
    ((s.receive c pdu).result ≠ .ok ∧ (s.receive c pdu).ulData = s.ulData ∧ (s.receive c pdu).buf = s.buf ∧
      (s.receive c pdu).rxDeliv = s.rxDeliv) := by
  rcases receive_cases c pdu s with ⟨_, e⟩ | ⟨_, _, e⟩ | ⟨err, k, _, _, _, e⟩ | ⟨w, sn, payload, a, _⟩
  · exact .inr (by simp [e, ErrorClass.result_ne_ok])
  · exact .inr (by simp [e, ErrorClass.result_ne_ok])
  · exact .inr (by simp [e, ErrorClass.result_ne_ok])
  · exact .inl ⟨w, sn, payload, a⟩

/-- What an accepted PDU leads to, over any `KS` and `MAC` (R116 to R118). -/
theorem receive_managed {c : Crypto} {s : State} {pdu : Octets} {w : SnWidth} {sn : Word} {payload : Octets}
    (sound : s.Sound) (ordered : s.Ordered) (noWrap : s.NoWrap pdu) (a : Accepts c s pdu w sn payload) :
    Managed w s (s.receive c pdu) [(rcvdCountOf w sn s.rxDeliv, payload)] ∧ (s.receive c pdu).result = .ok := by
  rw [receive_of_accepts a]
  exact acceptPdu_managed sound ordered noWrap a

/-- What step d of the expiry body does comes after every delivery (41_timer_expiry R141). -/
theorem expiryBody_delivers {s : State} (m : InOrder s) (low : s.rxDeliv ≤ s.rxReord) (high : s.rxReord ≤ s.rxNext) :
    ∃ out, DeliversInOrder s s.expiryBody.1 [] out := by
  obtain ⟨_, _, out, delivers⟩ := expiryDrain_delivers m low high
  refine ⟨out, ?_⟩
  rcases expiryBody_cases s with ⟨_, e⟩ | ⟨_, _, e⟩ | ⟨_, _, e⟩ <;> rw [e]
  · exact delivers
  · exact deliversInOrder_congr delivers rfl rfl rfl
  · exact deliversInOrder_congr delivers rfl rfl rfl

theorem expire_of_running {s : State} (active : s.lc = .active) (running : s.timerRunning = true) :
    s.expire = ({ s with timerRunning := false } : State).expiryBody.1.complete
      ({ s with timerRunning := false } : State).expiryBody.2 := by
  simp [State.expire, active, running]

/-- A `T_EXPIRE` delivers what the expired timer was waiting for, or nothing (41_timer_expiry R140). -/
theorem expire_delivers {s : State} (sound : s.Sound) (ordered : s.Ordered) (active : s.lc = .active) :
    ∃ out, DeliversInOrder s s.expire [] out := by
  have inOrder := inOrder_of_invariants sound ordered
  cases running : s.timerRunning with
  | false =>
    have ignored : s.expire = s.raise .ignored := Host.Outcome.next.inj (exec_tExpire_of_stopped running)
    rw [ignored]
    exact ⟨[], deliversInOrder_congr (deliversInOrder_refl inOrder) (by simp) (by simp) (by simp)⟩
  | true =>
    obtain ⟨below, within⟩ := ordered.timer running
    obtain ⟨out, delivers⟩ := expiryBody_delivers (s := { s with timerRunning := false })
      ⟨inOrder.canonical, inOrder.delivNext, inOrder.keys⟩ (BitVec.le_of_lt below) within
    rw [expire_of_running active running]
    exact ⟨out, delivers.pushed, delivers.ascending, delivers.inRange, delivers.waiting, delivers.forward,
      delivers.conserved⟩

/-- Settles O59: an accepted PDU by what steps 5 to 7 deliver, an expiry by what its body delivers. -/
theorem deliveryIsInOrderAndExactlyOnce : Obligations.DeliveryIsInOrderAndExactlyOnce := by
  refine ⟨fun c s pdu sound ordered noWrap _ => ?_, fun s t sound ordered h active => ?_⟩
  · rcases receive_accepts_or_keeps c s pdu with ⟨w, sn, payload, a⟩ | ⟨rejected, data, buf, deliv⟩
    · obtain ⟨managed, ok⟩ := receive_managed sound ordered noWrap a
      obtain ⟨parses, admits, rfl⟩ := accepts_iff.2 a
      exact .inl ⟨w, sn, parses, admits, ok, managed.delivers⟩
    · have nothing := deliversInOrder_refl (inOrder_of_invariants sound ordered)
      exact .inr ⟨rejected, deliversInOrder_congr nothing data buf deliv⟩
  · obtain rfl : s.expire = t := Host.Outcome.next.inj h
    exact expire_delivers sound ordered active

/-! ### A PDU submitted again (40_reception R121 (P2)) -/

/-- The Security Engine reads the configuration alone (42_security_engine R150, R151). -/
theorem SameConfig.rxAuthentic_eq {s t : State} (same : SameConfig s t) (c : Crypto) (w : SnWidth) (pdu : Octets)
    (count : Word) : rxAuthentic c w t pdu count = rxAuthentic c w s pdu count := by
  have cipherKey : t.cipherKey = s.cipherKey := by
    rw [State.cipherKey, State.cipherKey, same.cfg, same.kCpEnc, same.kUpEnc]
  have integrityKey : t.integrityKey = s.integrityKey := by
    rw [State.integrityKey, State.integrityKey, same.cfg, same.kCpInt, same.kUpInt]
  have body : plainBody c w t pdu count = plainBody c w s pdu count := by
    unfold plainBody decipher
    rw [same.cfg, cipherKey]
  unfold rxAuthentic rxPayload verifyIntegrity
  rw [same.cfg, integrityKey, body]

/-- Steps 0 and 1 read the lifecycle and the configuration alone (R110, R111). -/
theorem SameConfig.parses {s t : State} (same : SameConfig s t) (lc : t.lc = s.lc) {pdu : Octets} {w : SnWidth}
    {sn : Word} (h : s.Parses pdu w sn) : t.Parses pdu w sn := by
  rw [parses_iff] at h ⊢
  rwa [same.params, lc, same.cfg]

theorem sameConfig_receive_of_accepts {c : Crypto} {s : State} {pdu : Octets} {w : SnWidth} {sn : Word}
    {payload : Octets} (a : Accepts c s pdu w sn payload) : SameConfig s (s.receive c pdu) := by
  rw [receive_of_accepts a]
  exact ((sameConfig_withWork s _).trans (sameConfig_acceptPdu _ payload)).trans (sameConfig_closeStore _)

@[simp] theorem State.stopIfDue_rxNext (s : State) : s.stopIfDue.rxNext = s.rxNext := by
  rcases stopIfDue_cases s with ⟨_, _, e⟩ | ⟨_, e⟩ <;> simp [e]

@[simp] theorem State.startIfNeeded_rxNext (s : State) : s.startIfNeeded.1.rxNext = s.rxNext := by
  rcases startIfNeeded_cases s with ⟨_, e⟩ | ⟨_, e⟩ | ⟨_, _, _, _, e⟩ | ⟨_, _, _, e⟩ <;> simp [e]

/-- Of steps 5 to 7 only step 5 writes `RX_NEXT` (R116). -/
theorem receive_rxNext_of_accepts {c : Crypto} {s : State} {pdu : Octets} {w : SnWidth} {sn : Word} {payload : Octets}
    (a : Accepts c s pdu w sn payload) :
    (s.receive c pdu).rxNext = maxCount s.rxNext (rcvdCountOf w sn s.rxDeliv + 1) := by
  rw [receive_of_accepts a]
  show ((s.withWork (workOf pdu w sn s.rxDeliv)).insertPdu payload).drainIfNext.stopIfDue.startIfNeeded.1.rxNext = _
  rw [State.startIfNeeded_rxNext, State.stopIfDue_rxNext, State.drainIfNext_rxNext]
  rfl

/-- An accepted COUNT waits in the buffer or lies below the new `RX_DELIV`, and is in the window around it: what is
outstanding spans one window at most, before the PDU and after it (44_reception_buffer R196). -/
theorem accepted_count_after {c : Crypto} {s : State} {pdu : Octets} {w : SnWidth} {sn : Word} {payload : Octets}
    (sound : s.Sound) (ordered : s.Ordered) (noWrap : s.NoWrap pdu) (a : Accepts c s pdu w sn payload) :
    InWindow w (s.receive c pdu).rxDeliv (rcvdCountOf w sn s.rxDeliv) ∧
      (rcvdCountOf w sn s.rxDeliv < (s.receive c pdu).rxDeliv ∨
        ∃ e ∈ (s.receive c pdu).buf, e.1 = rcvdCountOf w sn s.rxDeliv) := by
  obtain ⟨managed, _⟩ := receive_managed sound ordered noWrap a
  obtain ⟨out, delivers⟩ := managed.delivers
  have next := receive_rxNext_of_accepts a
  have width : s.width = some w := checkWellformed_width a.wellformed
  have spanBefore := ordered.near w width
  have spanAfter := managed.near
  have delivNext : (s.receive c pdu).rxDeliv.toNat ≤ (s.receive c pdu).rxNext.toNat := managed.inOrder.delivNext
  have notStale : s.rxDeliv.toNat ≤ (rcvdCountOf w sn s.rxDeliv).toNat := Nat.not_lt.1 a.notStale
  obtain ⟨_, notLast⟩ := noWrap w sn width a.header
  generalize s.receive c pdu = t at *
  generalize rcvdCountOf w sn s.rxDeliv = count at *
  have succ : (count + 1).toNat = count.toNat + 1 := by bv_omega
  have positive : 0 < window w := Nat.two_pow_pos _
  have upper : count.toNat < t.rxNext.toNat := by rw [next, maxCount]; split <;> bv_omega
  have lower : t.rxNext.toNat ≤ count.toNat + window w := by rw [next, maxCount]; split <;> omega
  refine ⟨⟨by omega, by omega⟩, ?_⟩
  rcases (delivers.conserved (count, payload)).2 (.inr List.mem_cons_self) with gone | waits
  · exact .inl (delivers.inRange _ gone).2
  · exact .inr ⟨_, waits, rfl⟩

/-- The same PDU directly after it was accepted: it forms the same COUNT again, now stale or held. -/
theorem receive_after_accepts {c : Crypto} {s : State} {pdu : Octets} {w : SnWidth} {sn : Word} {payload : Octets}
    (sound : s.Sound) (ordered : s.Ordered) (noWrap : s.NoWrap pdu) (a : Accepts c s pdu w sn payload) :
    ∃ e, (e = .stale ∨ e = .duplicate) ∧
      (s.receive c pdu).receive c pdu = ((s.receive c pdu).raise e).closeStore := by
  obtain ⟨parsed, admits, _⟩ := accepts_iff.2 a
  obtain ⟨managed, _⟩ := receive_managed sound ordered noWrap a
  obtain ⟨near, goneOrHeld⟩ := accepted_count_after sound ordered noWrap a
  have same := sameConfig_receive_of_accepts a
  have parses := same.parses managed.lc parsed
  have number := countSn_rcvdCountOf s.rxDeliv (parseHeader_lt parsed.width parsed.number)
  have again := eq_rcvdCountOf_of_inWindow number near
  have authentic := (same.rxAuthentic_eq c w pdu _).trans admits.authentic
  rw [again] at authentic goneOrHeld
  by_cases stale : rcvdCountOf w sn (s.receive c pdu).rxDeliv < (s.receive c pdu).rxDeliv
  · exact ⟨.stale, .inl rfl, receive_of_stale parses authentic stale⟩
  · exact ⟨.duplicate, .inr rfl, receive_of_duplicate parses authentic stale (goneOrHeld.resolve_left stale)⟩

/-- Settles O60: only an accepted PDU ends OK, and its COUNT stays the nearest one to the new `RX_DELIV`. -/
theorem resubmissionIsNeverDelivered : Obligations.ResubmissionIsNeverDelivered := by
  rintro c s _ _ pdu sound ordered noWrap rfl ok rfl
  rcases receive_accepts_or_keeps c s pdu with ⟨w, sn, payload, a⟩ | ⟨rejected, _⟩
  · obtain ⟨e, he, dropped⟩ := receive_after_accepts sound ordered noWrap a
    rw [dropped]
    rcases he with rfl | rfl <;> simp [ErrorClass.result]
  · exact absurd ok rejected

end Sys2Proof.Machine

namespace Sys2Proof.Machine

/-! ### The expiry body and `T_EXPIRE` (41_timer_expiry R140, R141) -/

/-- Settles O40, by what the expiry body can do. -/
theorem expiryBodyFollowsTheRule : Obligations.ExpiryBodyFollowsTheRule := expiryRun_expiryBody

theorem exec_tExpire_of_not_active {s : State} (inactive : s.lc ≠ .active) :
    exec .tExpire s = .next (s.raise .ignored) :=
  congrArg Host.Outcome.next (if_pos inactive)

/-- Settles O41: the two gates of `T_EXPIRE` come before its body. -/
theorem timerExpiryRunsTheBody : Obligations.TimerExpiryRunsTheBody := by
  refine fun s => ⟨?_, fun ⟨active, running⟩ => ?_⟩
  · rintro (inactive | stopped)
    · exact exec_tExpire_of_not_active inactive
    · exact exec_tExpire_of_stopped stopped
  · exact ⟨_, _, expiryRun_expiryBody _, congrArg Host.Outcome.next (expire_of_running active running)⟩

/-! ### The zero-duration path (41_timer_expiry R142; 40_reception R124 (g)) -/

/-- What waits in `BUF` lies between `RX_DELIV` and `RX_NEXT` (10_state R23 (c), (d)). -/
theorem InOrder.buf_eq_nil {s : State} (m : InOrder s) (settled : s.rxDeliv = s.rxNext) : s.buf = [] := by
  refine List.eq_nil_iff_forall_not_mem.2 fun e he => ?_
  obtain ⟨low, high⟩ := m.keys e he
  rw [← settled] at high
  exact absurd low (BitVec.not_le.2 high)

/-- Settles O44: the body runs with `RX_REORD = RX_NEXT`, so it leaves nothing outstanding. -/
theorem zeroDurationSettlesAtOnce : Obligations.ZeroDurationSettlesAtOnce := by
  rintro c s pdu sound ordered noWrap zero ⟨w, sn, parses, admits⟩
  obtain ⟨managed, ok⟩ := receive_managed sound ordered noWrap (accepts_iff.1 ⟨parses, admits, rfl⟩)
  obtain ⟨settled, noRequest⟩ := managed.zero zero
  have stopped : (s.receive c pdu).timerRunning = false :=
    Bool.eq_false_iff.2 fun running => (managed.finite running).1 (managed.tReord.trans zero)
  exact ⟨ok, settled, managed.inOrder.buf_eq_nil settled, stopped, noRequest⟩

/-! ### Room in the Reception Buffer (44_reception_buffer R196) -/

/-- Strictly rising keys between `low` and `high` are at most `high - low` many. -/
theorem Buffer.length_le_of_keys_between {b : Buffer} (canonical : Buffer.wf b) {low high : Nat}
    (keys : ∀ e ∈ b, low ≤ e.1.toNat ∧ e.1.toNat < high) : b.length ≤ high - low := by
  induction b generalizing low with
  | nil => exact Nat.zero_le _
  | cons e b ih =>
    obtain ⟨rises, canonicalRest⟩ := List.pairwise_cons.1 canonical
    obtain ⟨above, below⟩ := keys e List.mem_cons_self
    have rest : b.length ≤ high - (e.1.toNat + 1) :=
      ih canonicalRest fun f hf => ⟨rises f hf, (keys f (List.mem_cons_of_mem _ hf)).2⟩
    rw [List.length_cons]
    omega

/-- `BUF` and one more COUNT of the window, not in `BUF`, still fit in one window. -/
theorem length_buf_lt_window {s : State} {w : SnWidth} {count : Word} (m : InOrder s)
    (near : s.rxNext.toNat ≤ s.rxDeliv.toNat + window w) (fresh : s.rxDeliv ≤ count)
    (within : count.toNat < s.rxDeliv.toNat + window w) (unbuffered : Buffer.holds s.buf count = false) :
    s.buf.length < window w := by
  have keys : ∀ e ∈ Buffer.insert s.buf count [],
      s.rxDeliv.toNat ≤ e.1.toNat ∧ e.1.toNat < s.rxDeliv.toNat + window w := by
    intro e he
    rcases Buffer.mem_insert.1 he with rfl | old
    · exact ⟨fresh, within⟩
    · obtain ⟨low, high⟩ := m.keys e old
      exact ⟨low, Nat.lt_of_lt_of_le high near⟩
  have fits := Buffer.length_le_of_keys_between (Buffer.wf_insert m.canonical unbuffered) keys
  rw [Buffer.length_insert] at fits
  omega

/-! ### No InternalFault without a wrap (41_timer_expiry R142, 60_exceptions R285) -/

/-- Only a zero duration lets the expiry body fault (R141). -/
theorem expiryBody_result_of_nonzero {s : State} (nonzero : s.tReord ≠ Config.timerZero) :
    s.expiryBody.2 = .ok := by
  rcases expiryBody_cases s with ⟨_, e⟩ | ⟨_, zero, _⟩ | ⟨_, _, e⟩
  · rw [e]
  · exact absurd zero nonzero
  · rw [e]

/-- A timer runs only with a duration that is not zero (60_exceptions R288). -/
theorem expire_result_ne_internalFault {s : State} (sound : s.Sound) : s.expire.result ≠ .internalFault := by
  unfold State.expire
  split_ifs with _ stopped
  · simp [ErrorClass.result]
  · simp [ErrorClass.result]
  · have running : s.timerRunning = true := by simpa using stopped
    have ok : ({ s with timerRunning := false } : State).expiryBody.2 = .ok :=
      expiryBody_result_of_nonzero (sound.timerFinite running).1
    simp [ok]

/-- Steps 0 and 1 raise no InternalFault (40_reception R110, R111). -/
theorem result_ne_internalFault_or_parses (c : Crypto) (s : State) (pdu : Octets) :
    (s.receive c pdu).result ≠ .internalFault ∨ ∃ w sn, s.Parses pdu w sn := by
  by_cases long : s.params.maxPduLen.toNat < pdu.length
  · exact .inl (by simp [receive_of_oversized c long, ErrorClass.result])
  have fits : pdu.length ≤ s.params.maxPduLen.toNat := Nat.not_lt.1 long
  by_cases inactive : s.lc ≠ .active
  · exact .inl (by simp [receive_of_not_active c fits inactive, ErrorClass.result])
  have active : s.lc = .active := not_not.1 inactive
  cases wellformed : checkWellformed s.cfg pdu.length with
  | none => exact .inl (by simp [receive_of_malformed c fits active wellformed, ErrorClass.result])
  | some w =>
    obtain ⟨sn, number⟩ := exists_number_of_wellformed wellformed
    exact .inr ⟨w, sn, parses_iff.2 ⟨fits, active, wellformed, number⟩⟩

theorem receive_of_not_authentic {c : Crypto} {s : State} {pdu : Octets} {w : SnWidth} {sn : Word}
    (parses : s.Parses pdu w sn) (forged : rxAuthentic c w s pdu (rcvdCountOf w sn s.rxDeliv) = false) :
    s.receive c pdu = (s.raise .integrityFailure).closeStore := by
  rw [receive_of_parses c parses, verifyAndAccept_withWork, ← raise_withWork_closeStore]
  exact congrArg State.closeStore (if_neg (Bool.eq_false_iff.1 forged))

/-- A parsed PDU that step 3 or 4 rejects raises no InternalFault (40_reception R114, R115). -/
theorem result_ne_internalFault_or_fresh {c : Crypto} {s : State} {pdu : Octets} {w : SnWidth} {sn : Word}
    (parses : s.Parses pdu w sn) :
    (s.receive c pdu).result ≠ .internalFault ∨ (rxAuthentic c w s pdu (rcvdCountOf w sn s.rxDeliv) = true ∧
      s.rxDeliv ≤ rcvdCountOf w sn s.rxDeliv ∧ Buffer.holds s.buf (rcvdCountOf w sn s.rxDeliv) = false) := by
  cases authentic : rxAuthentic c w s pdu (rcvdCountOf w sn s.rxDeliv) with
  | false => exact .inl (by simp [receive_of_not_authentic parses authentic, ErrorClass.result])
  | true =>
    by_cases stale : rcvdCountOf w sn s.rxDeliv < s.rxDeliv
    · exact .inl (by simp [receive_of_stale parses authentic stale, ErrorClass.result])
    by_cases held : Buffer.holds s.buf (rcvdCountOf w sn s.rxDeliv) = true
    · have dropped := receive_of_duplicate parses authentic stale (Buffer.holds_iff.1 held)
      exact .inl (by simp [dropped, ErrorClass.result])
    · exact .inr ⟨rfl, BitVec.not_lt.1 stale, Bool.eq_false_iff.2 held⟩

/-- The buffer has room for every PDU that reaches step 5, and timer management does not fault (R118, R142). -/
theorem receive_result_ne_internalFault {s : State} {pdu : Octets} (c : Crypto) (sound : s.Sound)
    (ordered : s.Ordered) (noWrap : s.NoWrap pdu) : (s.receive c pdu).result ≠ .internalFault := by
  rcases result_ne_internalFault_or_parses c s pdu with done | ⟨w, sn, parses⟩
  · exact done
  rcases result_ne_internalFault_or_fresh (c := c) parses with done | ⟨authentic, fresh, unbuffered⟩
  · exact done
  obtain ⟨noBorrow, _⟩ := noWrap w sn parses.width parses.number
  have within := rcvdCountOf_lt_window (parseHeader_lt parses.width parses.number) noBorrow fresh
  have room := length_buf_lt_window (inOrder_of_invariants sound ordered) (ordered.near w parses.width) fresh within
    unbuffered
  have admits : s.Admits c pdu w (rcvdCountOf w sn s.rxDeliv) :=
    ⟨authentic, fresh, Buffer.not_holds_iff.1 unbuffered, room⟩
  obtain ⟨_, ok⟩ := receive_managed sound ordered noWrap (accepts_iff.1 ⟨parses, admits, rfl⟩)
  rw [ok]
  decide

/-- `CSRR` ends OK or ILLEGAL_CMD (45_lifecycle R206). -/
theorem exec_csrr_result_ne_internalFault {n : BitVec 8} {s t : State} (h : exec (.csrr n) s = .next t) :
    t.result ≠ .internalFault := by
  have run : execCsrr n s = .next t := h
  unfold execCsrr at run
  split_ifs at run <;> cases run <;> simp

/-- No instruction of a live entity ends INTERNAL_FAULT while no COUNT wraps. -/
theorem exec_result_ne_internalFault {i : Instr} {s t : State} (sound : s.Sound) (ordered : s.Ordered)
    (live : s.lc = .active) (noWrap : ∀ pdu, i.pdu? = some pdu → s.NoWrap pdu) (h : exec i s = .next t) :
    t.result ≠ .internalFault := by
  have ofPdu (pdu : Octets) (hp : i.pdu? = some pdu) : t.result ≠ .internalFault := by
    obtain rfl : s.receive machineCrypto pdu = t := Host.Outcome.next.inj ((exec_of_pdu hp s).symm.trans h)
    exact receive_result_ne_internalFault machineCrypto sound ordered (noWrap pdu hp)
  cases runs_of_exec h with
  | refused e he => rcases he with rfl | rfl <;> simp [ErrorClass.result]
  | read n hi _ _ =>
    subst hi
    exact exec_csrr_result_ne_internalFault h
  | written _ _ _ idle => rw [live] at idle; cases idle
  | created _ idle _ => rw [live] at idle; cases idle
  | released _ _ => simp
  | expired hi _ _ _ =>
    subst hi
    rw [← Host.Outcome.next.inj (h : Host.Outcome.next s.expire = _)]
    exact expire_result_ne_internalFault sound
  | rejected pdu hp _ _ _ => exact ofPdu pdu hp
  | accepted pdu hp _ _ _ => exact ofPdu pdu hp

/-- An ACTIVE entity becomes FAULTED only by an InternalFault, which is then the result (10_state R27). -/
theorem exec_lc_ne_faulted {i : Instr} {s t : State} (live : s.lc = .active) (h : exec i s = .next t)
    (result : t.result ≠ .internalFault) : t.lc ≠ .faulted := by
  intro faulted
  rcases lifecycleTransitions i s t h with same | ⟨_, _, lc⟩ | ⟨_, _, lc⟩ | ⟨_, _, internalFault, _⟩
  · rw [live, faulted] at same; cases same
  · rw [faulted] at lc; cases lc
  · rw [faulted] at lc; cases lc
  · exact result internalFault

/-- Settles O57: a step runs one command, rejects a reserved opcode or holds the state. -/
theorem noInternalFaultWithoutWrap : Obligations.NoInternalFaultWithoutWrap := by
  intro s t sound ordered fits hs live
  rcases step_cases s with ⟨i, rest, hd, e⟩ | ⟨opc, rest, _, e⟩ | ⟨hd, e⟩
  · have same := sameEntity_accept s rest
    have run : exec i (s.accept rest) = .next t := e.symm.trans hs
    have noWrap : ∀ pdu, i.pdu? = some pdu → (s.accept rest).NoWrap pdu :=
      fun pdu hp => fits pdu rest (eq_rxPdu_of_decode hd hp ▸ hd)
    have liveNow : (s.accept rest).lc = .active := live
    have result := exec_result_ne_internalFault (same.sound sound) (same.ordered ordered) liveNow noWrap run
    exact ⟨exec_lc_ne_faulted liveNow run result, fun _ => result⟩
  · obtain rfl := Host.Outcome.next.inj (e.symm.trans hs)
    have lc : ((s.accept rest).raise .illegalCommand).lc = .active := live
    exact ⟨by rw [lc]; decide, fun _ => by simp [ErrorClass.result]⟩
  · obtain rfl := Host.Outcome.next.inj (e.symm.trans hs)
    exact ⟨by rw [live]; decide, fun whole => absurd hd whole⟩

end Sys2Proof.Machine

namespace Sys2Proof.Machine

/-! ### Octet-wise exclusive or (00_scope R14) -/

theorem length_xorOctets {s t : Octets} (same : t.length = s.length) : (xorOctets s t).length = s.length := by
  rw [xorOctets, List.length_zipWith, same, Nat.min_self]

theorem octetAt_eq_getElem {s : Octets} {j : Nat} (h : j < s.length) : octetAt s j = s[j] := by
  rw [octetAt, List.getD_eq_getElem s _ h]

theorem octetAt_xorOctets {s t : Octets} {j : Nat} (hs : j < s.length) (ht : j < t.length) :
    octetAt (xorOctets s t) j = octetAt s j ^^^ octetAt t j := by
  have bound : j < (xorOctets s t).length := by
    rw [xorOctets, List.length_zipWith]
    exact Nat.lt_min.2 ⟨hs, ht⟩
  rw [octetAt_eq_getElem bound, octetAt_eq_getElem hs, octetAt_eq_getElem ht]
  exact List.getElem_zipWith

/-- Adding a keystream twice cancels it. -/
theorem xorOctets_cancel {s t : Octets} (same : t.length = s.length) : xorOctets (xorOctets s t) t = s := by
  refine List.ext_getElem (by rw [length_xorOctets (by rw [length_xorOctets same, same]), length_xorOctets same])
    fun j _ _ => ?_
  simp only [xorOctets, List.getElem_zipWith]
  rw [BitVec.xor_assoc, BitVec.xor_self, BitVec.xor_zero]

/-! ### `decipher` (42_security_engine R151, R152, R157) -/

theorem cipherKey_eq (s : State) : s.cipherKey = if cfgBearerType s.cfg = 0#1 then s.kCpEnc else s.kUpEnc := by
  simp only [State.cipherKey, controlPlane, decide_eq_true_iff]

theorem integrityKey_eq (s : State) : s.integrityKey = if cfgBearerType s.cfg = 0#1 then s.kCpInt else s.kUpInt := by
  simp only [State.integrityKey, controlPlane, decide_eq_true_iff]

/-- The keystream `decipher` adds to `n` octets under algorithm `a` (R152). -/
def State.keystream (c : Crypto) (s : State) (a : Alg) (count : Word) (n : Nat) : Octets :=
  c.ks a s.cipherKey count (cfgBearer s.cfg) (cfgDirection s.cfg) n

theorem length_keystream {c : Crypto} (lawful : c.Lawful) (s : State) (a : Alg) (count : Word) (n : Nat) :
    (s.keystream c a count n).length = n := lawful.length ..

theorem decipher_of_null (c : Crypto) {s : State} (null : algOf (cfgCiphAlg s.cfg) = none) (region : Octets)
    (count : Word) : decipher c s region count = region := by
  rw [decipher, null]

theorem decipher_of_alg (c : Crypto) {s : State} {a : Alg} (alg : algOf (cfgCiphAlg s.cfg) = some a)
    (region : Octets) (count : Word) :
    decipher c s region count = xorOctets region (s.keystream c a count region.length) := by
  rw [decipher, alg, State.keystream]

theorem length_decipher {c : Crypto} (lawful : c.Lawful) (s : State) (region : Octets) (count : Word) :
    (decipher c s region count).length = region.length := by
  cases alg : algOf (cfgCiphAlg s.cfg) with
  | none => rw [decipher_of_null c alg]
  | some a => rw [decipher_of_alg c alg, length_xorOctets (length_keystream lawful s a count _)]

/-- The keystream depends on the length of the region alone, so the second pass adds the same one. -/
theorem decipher_decipher {c : Crypto} (lawful : c.Lawful) (s : State) (region : Octets) (count : Word) :
    decipher c s (decipher c s region count) count = region := by
  cases alg : algOf (cfgCiphAlg s.cfg) with
  | none => rw [decipher_of_null c alg, decipher_of_null c alg]
  | some a =>
    rw [decipher_of_alg c alg (decipher c s region count), length_decipher lawful, decipher_of_alg c alg]
    exact xorOctets_cancel (length_keystream lawful s a count _)

theorem octetAt_decipher {c : Crypto} (lawful : c.Lawful) {s : State} {a : Alg}
    (alg : algOf (cfgCiphAlg s.cfg) = some a) {region : Octets} {j : Nat} (h : j < region.length) (count : Word) :
    octetAt (decipher c s region count) j =
      octetAt region j ^^^ octetAt (s.keystream c a count region.length) j := by
  rw [decipher_of_alg c alg]
  exact octetAt_xorOctets h (by rwa [length_keystream lawful])

/-- Settles O29. -/
theorem decipherIsAnAdditiveStream : Obligations.DecipherIsAnAdditiveStream := by
  intro c s region count lawful
  refine ⟨length_decipher lawful s region count, decipher_decipher lawful s region count,
    fun null => decipher_of_null c null region count, fun a alg j h => ?_⟩
  rw [octetAt_decipher lawful alg h, State.keystream, cipherKey_eq]

/-! ### `verify_integrity` (42_security_engine R151, R153, R157, R158) -/

/-- The difference of R153 vanishes exactly when no octet differs. -/
theorem tagDiff_eq_zero_iff {x y : Tag} : tagDiff x y = 0#8 ↔ x = y := by
  obtain ⟨x0, x1, x2, x3⟩ := x
  obtain ⟨y0, y1, y2, y3⟩ := y
  simp only [tagDiff, BitVec.or_eq_zero_iff, BitVec.xor_eq_zero_iff, Tag.mk.injEq, and_assoc]

/-- Only the number 0 names the null algorithm (R156). -/
theorem algOf_eq_none_iff {n : BitVec 2} : algOf n = none ↔ n = 0#2 := by
  revert n
  decide

theorem verifyIntegrity_of_null (c : Crypto) {s : State} (null : algOf (cfgIntAlg s.cfg) = none) (message : Octets)
    (count : Word) (tag : Tag) : verifyIntegrity c s message count tag = true := by
  rw [verifyIntegrity, null]

theorem verifyIntegrity_of_alg (c : Crypto) {s : State} {a : Alg} (alg : algOf (cfgIntAlg s.cfg) = some a)
    (message : Octets) (count : Word) (tag : Tag) :
    verifyIntegrity c s message count tag = true ↔
      c.mac a s.integrityKey count (cfgBearer s.cfg) (cfgDirection s.cfg) message = tag := by
  rw [verifyIntegrity, alg]
  exact decide_eq_true_iff.trans tagDiff_eq_zero_iff

/-- Settles O30, by whether the configured algorithm is the null one. -/
theorem integrityVerdictComparesAllOctets : Obligations.IntegrityVerdictComparesAllOctets := by
  intro c s message count tag
  rw [← integrityKey_eq, ← algOf_eq_none_iff]
  cases alg : algOf (cfgIntAlg s.cfg) with
  | none => simp [verifyIntegrity_of_null c alg]
  | some a => simp [verifyIntegrity_of_alg c alg]

/-! ### `security_rx` (42_security_engine R150, R154, R155; 43_header_codec R182, R183) -/

theorem length_headerOctets {w : SnWidth} {pdu : Octets} (long : hdrLen w ≤ pdu.length) :
    (headerOctets w pdu).length = hdrLen w := List.length_take_of_le long

theorem stripHeader_eq_drop (w : SnWidth) (pdu : Octets) : stripHeader w pdu = pdu.drop (hdrLen w) :=
  List.take_of_length_le (List.length_drop ..).le

/-- The codec loses no octet between the header and the body (R182). -/
theorem headerOctets_append_stripHeader (w : SnWidth) (pdu : Octets) :
    headerOctets w pdu ++ stripHeader w pdu = pdu := by
  rw [stripHeader_eq_drop]
  exact List.take_append_drop (hdrLen w) pdu

theorem length_plainBody {c : Crypto} (lawful : c.Lawful) (w : SnWidth) (s : State) (pdu : Octets) (count : Word) :
    (plainBody c w s pdu count).length = pdu.length - hdrLen w := by
  have body : (stripHeader w pdu).length = pdu.length - hdrLen w := by
    rw [stripHeader_eq_drop, List.length_drop]
  unfold plainBody
  split_ifs
  · rw [length_decipher lawful, body]
  · exact body

theorem octetAt_four {t : Octets} (four : t.length = 4) : [octetAt t 0, octetAt t 1, octetAt t 2, octetAt t 3] = t := by
  obtain ⟨a, b, c, d, rfl⟩ := List.length_eq_four.1 four
  rfl

/-- `strip_integrity_tag` loses no octet between the payload and the tag (R183). -/
theorem stripTag_append_receivedTag {body : Octets} (long : 4 ≤ body.length) :
    stripTag body ++ [(receivedTag body).o0, (receivedTag body).o1, (receivedTag body).o2, (receivedTag body).o3] =
      body := by
  have tail : (body.drop (body.length - 4)).length = 4 := by rw [List.length_drop, Nat.sub_sub_self long]
  have tag : sub body (body.length - 4) 4 = body.drop (body.length - 4) := List.take_of_length_le tail.le
  have octets := octetAt_four (t := sub body (body.length - 4) 4) (by rw [tag, tail])
  calc stripTag body ++ [(receivedTag body).o0, (receivedTag body).o1, (receivedTag body).o2, (receivedTag body).o3]
      = stripTag body ++ sub body (body.length - 4) 4 := congrArg (stripTag body ++ ·) octets
    _ = body.take (body.length - 4) ++ body.drop (body.length - 4) := congrArg (stripTag body ++ ·) tag
    _ = body := List.take_append_drop ..

theorem securityRx_of_tagless (c : Crypto) (w : SnWidth) {s : State} (tagless : tagPresent s.cfg = false)
    (pdu : Octets) (count : Word) : securityRx c w s pdu count = (true, plainBody c w s pdu count) := by
  simp [securityRx, rxAuthentic, rxPayload, tagless]

theorem securityRx_of_tagged (c : Crypto) (w : SnWidth) {s : State} (tagged : tagPresent s.cfg = true)
    (pdu : Octets) (count : Word) :
    securityRx c w s pdu count =
      (verifyIntegrity c s (headerOctets w pdu ++ stripTag (plainBody c w s pdu count)) count
        (receivedTag (plainBody c w s pdu count)), stripTag (plainBody c w s pdu count)) := by
  simp [securityRx, rxAuthentic, rxPayload, tagged]

/-- Settles O31, by whether a tag is present; R111's length check makes the tag whole. -/
theorem securityRxSplitsAndVerifies : Obligations.SecurityRxSplitsAndVerifies := by
  intro c w s pdu count lawful long whole
  refine ⟨headerOctets w pdu, stripHeader w pdu, plainBody c w s pdu count,
    (headerOctets_append_stripHeader w pdu).symm, length_headerOctets long.le, rfl, ?_, fun tag => ?_⟩
  · rintro ⟨user, off⟩
    exact securityRx_of_tagless c w (tagPresent_eq_false user off) pdu count
  · have room : 4 ≤ (plainBody c w s pdu count).length := by
      rw [length_plainBody lawful]
      exact Nat.le_sub_of_add_le' (whole tag)
    exact ⟨stripTag (plainBody c w s pdu count), receivedTag (plainBody c w s pdu count),
      (stripTag_append_receivedTag room).symm,
      securityRx_of_tagged c w ((tagPresent_iff s.cfg).2 tag) pdu count⟩

/-! ### Keystreams made of chunks of one size (42_security_engine R159)

The three annex algorithms produce octets a block or a word at a time and cut the last one. -/

/-- The first `m` chunks, one behind the other. -/
def chunks (chunk : Nat → Octets) (m : Nat) : Octets := (List.range m).flatMap chunk

theorem chunks_succ (chunk : Nat → Octets) (m : Nat) :
    chunks chunk (m + 1) = chunk 0 ++ chunks (fun i => chunk (i + 1)) m := by
  rw [chunks, List.range_succ_eq_map, List.flatMap_cons, List.flatMap_map]
  rfl

theorem length_chunks {chunk : Nat → Octets} {size : Nat} (uniform : ∀ i, (chunk i).length = size) (m : Nat) :
    (chunks chunk m).length = m * size := by
  simp [chunks, List.length_flatMap, uniform]

theorem chunks_add (chunk : Nat → Octets) (m n : Nat) :
    chunks chunk (m + n) = chunks chunk m ++ chunks (fun i => chunk (m + i)) n := by
  rw [chunks, List.range_add, List.flatMap_append, List.flatMap_map]
  rfl

/-- What R159 asks of `KS` at one choice of its other arguments. -/
structure KeystreamLaws (ks : Nat → Octets) : Prop where
  length : ∀ n, (ks n).length = n
  stable : ∀ n m, n ≤ m → (ks m).take n = ks n

/-- Enough chunks for `n` octets: the quotient the annex rounds up. -/
theorem le_roundedUp_mul {size : Nat} (positive : 0 < size) (n : Nat) : n ≤ (n + (size - 1)) / size * size := by
  have bound : n ≤ size • (n ⌈/⌉ size) := le_smul_ceilDiv positive
  rwa [Nat.ceilDiv_eq_add_pred_div, Nat.add_sub_assoc positive, smul_eq_mul, Nat.mul_comm] at bound

/-- As many chunks as `n` octets need, cut to `n` octets. -/
theorem keystreamLaws_of_chunks {chunk : Nat → Octets} {size : Nat} (positive : 0 < size)
    (uniform : ∀ i, (chunk i).length = size) :
    KeystreamLaws fun n => (chunks chunk ((n + (size - 1)) / size)).take n := by
  have enough (n : Nat) : n ≤ (chunks chunk ((n + (size - 1)) / size)).length := by
    rw [length_chunks uniform]
    exact le_roundedUp_mul positive n
  refine ⟨fun n => List.length_take_of_le (enough n), fun n m h => ?_⟩
  obtain ⟨further, more⟩ := Nat.exists_eq_add_of_le
    (Nat.div_le_div_right (c := size) (Nat.add_le_add_right h (size - 1)))
  rw [List.take_take, Nat.min_eq_left h, more, chunks_add, List.take_append_of_le_length (enough n)]

/-! ### The annex keystreams (46_alg_aes R225, 47_alg_snow3g R249, 48_alg_zuc R268; log 1) -/

theorem length_blockOctets (x : BitVec 128) : (blockOctets x).length = 16 := by
  rw [blockOctets, List.length_map, List.length_range]

theorem Aes.keystreamBlocks_eq_chunks (k : Key128) (count : Word) (bearer : BitVec 5) (dir : BitVec 1) (m j : Nat) :
    Aes.keystreamBlocks k count bearer dir m j =
      chunks (fun i => blockOctets (Aes.encrypt k (Aes.counterBlock count bearer dir (j + i)))) m := by
  induction m generalizing j with
  | zero => rfl
  | succ m ih =>
    rw [Aes.keystreamBlocks, ih, chunks_succ]
    simp only [Nat.add_zero, Nat.add_assoc, Nat.add_comm 1]

/-- SNOW 3G's word after `i` keystream clocks. -/
theorem Snow3g.keystreamWords_eq_chunks (m : Nat) (g : Snow3g.Gen) :
    (Snow3g.keystreamWords m g).flatMap wordOctets =
      chunks (fun i => wordOctets (Snow3g.fsmOutput (Snow3g.keystreamClock^[i] g) ^^^
        Snow3g.cell (Snow3g.keystreamClock^[i] g) 0)) m := by
  induction m generalizing g with
  | zero => rfl
  | succ m ih =>
    rw [Snow3g.keystreamWords, List.flatMap_cons, ih, chunks_succ]
    rfl

/-- ZUC's word after `i` work rounds. -/
theorem Zuc.keystreamWords_eq_chunks (m : Nat) (g : Zuc.Gen) :
    (Zuc.keystreamWords m g).flatMap wordOctets =
      chunks (fun i => wordOctets (Zuc.fOutput (Zuc.workRound^[i] g) ^^^ Zuc.x3 (Zuc.workRound^[i] g))) m := by
  induction m generalizing g with
  | zero => rfl
  | succ m ih =>
    rw [Zuc.keystreamWords, List.flatMap_cons, ih, chunks_succ]
    rfl

theorem Aes.ks_keystreamLaws (k : Key128) (count : Word) (bearer : BitVec 5) (dir : BitVec 1) :
    KeystreamLaws (Aes.ks k count bearer dir) := by
  unfold Aes.ks
  simp only [Aes.keystreamBlocks_eq_chunks]
  exact keystreamLaws_of_chunks (size := 16) (by decide) fun _ => length_blockOctets _

theorem Snow3g.ks_keystreamLaws (k : Key128) (count : Word) (bearer : BitVec 5) (dir : BitVec 1) :
    KeystreamLaws (Snow3g.ks k count bearer dir) := by
  unfold Snow3g.ks
  simp only [Snow3g.keystreamWords_eq_chunks]
  exact keystreamLaws_of_chunks (size := 4) (by decide) fun _ => rfl

theorem Zuc.ks_keystreamLaws (k : Key128) (count : Word) (bearer : BitVec 5) (dir : BitVec 1) :
    KeystreamLaws (Zuc.ks k count bearer dir) := by
  unfold Zuc.ks
  simp only [Zuc.keystreamWords_eq_chunks]
  exact keystreamLaws_of_chunks (size := 4) (by decide) fun _ => rfl

theorem annexKs_keystreamLaws (a : Alg) (k : Key128) (count : Word) (bearer : BitVec 5) (dir : BitVec 1) :
    KeystreamLaws (annexKs a k count bearer dir) := by
  cases a with
  | alg1 => exact Snow3g.ks_keystreamLaws k count bearer dir
  | alg2 => exact Aes.ks_keystreamLaws k count bearer dir
  | alg3 => exact Zuc.ks_keystreamLaws k count bearer dir

/-- Settles O33, algorithm by algorithm. -/
theorem annexKeystreamsAreLawful : Obligations.AnnexKeystreamsAreLawful where
  length a k count b d := (annexKs_keystreamLaws a k count b d).length
  stable a k count b d := (annexKs_keystreamLaws a k count b d).stable

end Sys2Proof.Machine

namespace Sys2Proof.Machine

/-! ### The equivalent form of `parse_header` (43_header_codec R180) -/

/-- A bit vector with an octet behind it, read as one step of `be` (00_scope R14). -/
theorem toNat_append_octet {k : Nat} (x : BitVec k) (o : Octet) : (x ++ o).toNat = x.toNat * 256 + o.toNat := by
  rw [BitVec.toNat_append, ← Nat.shiftLeft_add_eq_or_of_lt o.isLt, Nat.shiftLeft_eq]

/-- The low bits of octet 0 and the octet behind it are the big-endian number modulo `2 ^ 12`. -/
theorem toNat_sn12_fields (o0 o1 : Octet) : (o0.extractLsb' 0 4 ++ o1).toNat = be [o0, o1] % 2 ^ 12 := by
  have low : (o0.extractLsb' 0 4).toNat = o0.toNat % 2 ^ 4 := by simp
  have number : be [o0, o1] = o0.toNat * 256 + o1.toNat := by simp [be]
  have bound : o1.toNat < 256 := o1.isLt
  rw [toNat_append_octet, low, number]
  omega

theorem toNat_sn18_fields (o0 o1 o2 : Octet) :
    (o0.extractLsb' 0 2 ++ o1 ++ o2).toNat = be [o0, o1, o2] % 2 ^ 18 := by
  have low : (o0.extractLsb' 0 2).toNat = o0.toNat % 2 ^ 2 := by simp
  have number : be [o0, o1, o2] = (o0.toNat * 256 + o1.toNat) * 256 + o2.toNat := by simp [be]
  have bounds : o1.toNat < 256 ∧ o2.toNat < 256 := ⟨o1.isLt, o2.isLt⟩
  rw [toNat_append_octet, toNat_append_octet, low, number]
  omega

/-- The masks and shifts of R180 give the same SN as its equivalent form, on a header that is there. -/
theorem sn12_eq_be {pdu : Octets} (long : 2 < pdu.length) :
    sn12 pdu = BitVec.ofNat 32 (be (sub pdu 0 2) % 2 ^ 12) := by
  match pdu, long with
  | o0 :: o1 :: body, _ =>
    calc sn12 ([o0, o1] ++ body)
        = (o0.extractLsb' 0 4 ++ o1).setWidth 32 := by rw [← header12_fields, sn12_header12]
      _ = BitVec.ofNat 32 (be [o0, o1] % 2 ^ 12) := by rw [← toNat_sn12_fields, BitVec.ofNat_toNat]

theorem sn18_eq_be {pdu : Octets} (long : 3 < pdu.length) :
    sn18 pdu = BitVec.ofNat 32 (be (sub pdu 0 3) % 2 ^ 18) := by
  match pdu, long with
  | o0 :: o1 :: o2 :: body, _ =>
    calc sn18 ([o0, o1, o2] ++ body)
        = (o0.extractLsb' 0 2 ++ o1 ++ o2).setWidth 32 := by rw [← header18_fields, sn18_header18]
      _ = BitVec.ofNat 32 (be [o0, o1, o2] % 2 ^ 18) := by rw [← toNat_sn18_fields, BitVec.ofNat_toNat]

/-- Settles O4: both forms fail on the same widths and lengths, and on a long enough PDU read the same SN. -/
theorem parseHeaderReadsLowBits : Obligations.ParseHeaderReadsLowBits := by
  intro field pdu
  unfold parseHeader
  split_ifs with w12 short w18 short
  · rfl
  · rw [sn12_eq_be (Nat.not_le.1 short)]
  · rfl
  · rw [sn18_eq_be (Nat.not_le.1 short)]
  · rfl

end Sys2Proof.Machine

namespace Sys2Proof.Machine

/-! ### The operations of the Reception Buffer (44_reception_buffer R191 to R194) -/

/-- Settles O34, by the laws of an insert of an absent key. -/
theorem bufferInsertAddsOneEntry : Obligations.BufferInsertAddsOneEntry :=
  fun b k p canonical absent =>
    ⟨Buffer.wf_insert canonical absent, Buffer.length_insert b k p, Buffer.find_insert_self absent,
      fun _ other => Buffer.find_insert_other other⟩

/-- The loop of R193 leads to one state only, the one the drain computes. -/
theorem DrainLoop.eq_consecutiveDrain {s t : State} (run : DrainLoop s t) : t = s.consecutiveDrain := by
  induction run with
  | stop s gap => exact (consecutiveDrain_stop (Buffer.find_none_iff.2 gap)).symm
  | turn s t p found _ ih => exact ih.trans (consecutiveDrain_round found).symm

/-- Settles O36: the drain is a run of the loop, and every run of the loop ends where the drain does. -/
theorem consecutiveDrainIsTheLoop : Obligations.ConsecutiveDrainIsTheLoop := by
  intro s t
  constructor
  · rintro rfl
    exact drainLoop_consecutiveDrain s
  · exact DrainLoop.eq_consecutiveDrain

/-- Settles O37: the threshold cuts `BUF` into what is pushed and what stays, both in the order of `BUF`. -/
theorem drainBelowDeliversAscending : Obligations.DrainBelowDeliversAscending := by
  intro s t canonical
  have stays : ∀ e, e ∈ Buffer.above s.buf t ↔ e ∈ s.buf ∧ t ≤ e.1 :=
    fun _ => Buffer.mem_above.trans (and_congr_right' BitVec.not_lt)
  exact ⟨Buffer.below s.buf t, Buffer.wf_below canonical t, fun _ => Buffer.mem_below,
    Buffer.above s.buf t, Buffer.wf_above canonical t, stays, rfl⟩

/-! ### Room in the Reception Buffer, and none (44_reception_buffer R196; 93 U10, log 10) -/

/-- Settles O38: `BUF` and the new key are distinct COUNTs of one window. -/
theorem bufferIsNeverFullAtAnInsert : Obligations.BufferIsNeverFullAtAnInsert :=
  fun _ w _ sound ordered width fresh within unbuffered =>
    length_buf_lt_window (inOrder_of_invariants sound ordered) (ordered.near w width) fresh within
      (Buffer.not_holds_iff.2 unbuffered)

/-- A PDU that passes step 4 and finds `BUF` full is an InternalFault (log 10). -/
theorem receive_of_full {c : Crypto} {s : State} {pdu : Octets} {w : SnWidth} {sn : Word}
    (parses : s.Parses pdu w sn) (authentic : rxAuthentic c w s pdu (rcvdCountOf w sn s.rxDeliv) = true)
    (fresh : ¬ rcvdCountOf w sn s.rxDeliv < s.rxDeliv)
    (unbuffered : ¬ Buffer.holds s.buf (rcvdCountOf w sn s.rxDeliv) = true) (full : Buffer.full w s.buf = true) :
    s.receive c pdu = (s.raise .internalFault).closeStore := by
  rw [receive_of_authentic parses authentic, discardOrAccept_withWork, ← raise_withWork_closeStore]
  exact congrArg State.closeStore ((if_neg fresh).trans ((if_neg unbuffered).trans (if_pos full)))

/-- Settles O22: the fault writes `LC` and leaves `BUF` and the timer alone (60_exceptions R280). -/
theorem fullBufferIsAnInternalFault : Obligations.FullBufferIsAnInternalFault := by
  intro i pdu s w sn hp parses authentic fresh unbuffered full
  have absent := Bool.eq_false_iff.1 (Buffer.not_holds_iff.2 unbuffered)
  rw [exec_of_pdu hp, receive_of_full parses authentic (BitVec.not_lt.2 fresh) absent (decide_eq_true full)]
  exact ⟨_, _, rfl⟩

end Sys2Proof.Machine

namespace Sys2Proof.Machine

/-! ### Commands that are turned away (00_scope R17; 45_lifecycle R200, R201, R203) -/

/-- An IGNORED command has no side effect (60_exceptions R280). -/
theorem raise_ignored_eq_answered (s : State) : s.raise .ignored = s.answered .ignored none := rfl

/-- An ILLEGAL_CMD command has no side effect (60_exceptions R280). -/
theorem raise_illegalCommand_eq_answered (s : State) : s.raise .illegalCommand = s.answered .illegalCmd none := rfl

/-- Settles O18: the lifecycle gate of `RX_PDU` stands behind the length gate alone. -/
theorem pduWithoutEntityIsIgnored : Obligations.PduWithoutEntityIsIgnored := by
  intro i pdu s hp fits inactive
  rw [exec_of_pdu hp, receive_of_not_active machineCrypto fits inactive, raise_ignored_eq_answered]

/-! ### `CREATE` (45_lifecycle R201, R202) -/

theorem exec_create_of_not_idle {s : State} (live : s.lc ≠ .idle) : exec .create s = .next (s.raise .ignored) :=
  if_pos live

/-- Settles O10: past the gate `CREATE` is one update of the state, and its warning is the condition of R202. -/
theorem createStartsAnEntity : Obligations.CreateStartsAnEntity := by
  refine fun s => ⟨fun live => ?_, fun idle warn hwarn => ?_⟩
  · rw [exec_create_of_not_idle live, raise_ignored_eq_answered]
  · obtain rfl : warn = s.configMismatch := Bool.eq_iff_iff.2 (hwarn.trans (configMismatch_iff s).symm)
    exact exec_create_of_idle idle

/-! ### `RELEASE` and the expiry that comes too late (45_lifecycle R203, R204) -/

theorem exec_release_of_idle {s : State} (idle : s.lc = .idle) : exec .release s = .next (s.raise .ignored) :=
  if_pos idle

theorem exec_release_of_not_idle {s : State} (live : s.lc ≠ .idle) :
    exec .release s = .next (s.releaseEntity.complete .ok) := if_neg live

/-- The only push of a `RELEASE` is the `STOP` of a running timer (R203 step 1). -/
theorem stopIfRunning_eq (s : State) : s.stopIfRunning = { s with
    timerCmd := if s.timerRunning then s.timerCmd ++ [.stop] else s.timerCmd
    trace := if s.timerRunning then s.trace ++ [.timer .stop] else s.trace
    timerRunning := false } := by
  by_cases running : s.timerRunning = true
  · simp only [State.stopIfRunning, if_pos running]
    rfl
  · simp only [State.stopIfRunning, if_neg running]
    exact congrArg (fun r => { s with timerRunning := r }) (Bool.eq_false_iff.2 running)

/-- Settles O11: past the gate `RELEASE` asks for the stop and then writes the entity's initial values. -/
theorem releaseEndsTheEntity : Obligations.ReleaseEndsTheEntity := by
  refine fun s => ⟨fun idle => ?_, fun live => ?_⟩
  · rw [exec_release_of_idle idle, raise_ignored_eq_answered]
  · rw [exec_release_of_not_idle live, State.releaseEntity, stopIfRunning_eq]
    rfl

/-- After a `RELEASE`, an ignored one too, there is no entity. -/
theorem exec_release_lc {s t : State} (h : exec .release s = .next t) : t.lc = .idle := by
  by_cases idle : s.lc = .idle
  · rw [← Host.Outcome.next.inj ((exec_release_of_idle idle).symm.trans h)]
    exact idle
  · rw [← Host.Outcome.next.inj ((exec_release_of_not_idle idle).symm.trans h)]
    rfl

/-- Settles O12: the expiry finds no entity, and `T_EXPIRE` needs an ACTIVE one (41_timer_expiry R140). -/
theorem expiryAfterReleaseIsDiscarded : Obligations.ExpiryAfterReleaseIsDiscarded := by
  intro s t h
  have inactive : t.lc ≠ .active := by simp [exec_release_lc h]
  rw [exec_tExpire_of_not_active inactive, raise_ignored_eq_answered]

/-! ### `CSRW`: its gates and its three kinds of register (45_lifecycle R205; 10_state R30, R33) -/

theorem exec_csrw_of_reserved {n : BitVec 8} (reserved : 24 ≤ n.toNat) (v : Word) (s : State) :
    exec (.csrw n v) s = .next (s.raise .illegalCommand) := if_pos reserved

theorem exec_csrw_of_readOnly {n : BitVec 8} (inSpace : n.toNat < 24) (readOnly : 18 ≤ n.toNat) (v : Word) (s : State) :
    exec (.csrw n v) s = .next (s.raise .ignored) :=
  (if_neg (Nat.not_le.2 inSpace)).trans (if_pos readOnly)

theorem exec_csrw_of_not_idle {n : BitVec 8} (writable : n.toNat < 18) {s : State} (live : s.lc ≠ .idle) (v : Word) :
    exec (.csrw n v) s = .next (s.raise .ignored) := by
  have inSpace : ¬ 24 ≤ n.toNat := by omega
  exact (if_neg inSpace).trans ((if_neg (Nat.not_le.2 writable)).trans (if_pos live))

theorem writeCsr_cfg (s : State) (v : Word) : s.writeCsr 0 v = { s with cfg := v &&& 0x000FFFFF#32 } := rfl

theorem writeCsr_tReord (s : State) (v : Word) : s.writeCsr 1 v = { s with tReord := v } := rfl

theorem writeCsr_keyWord {n : Nat} (key : 2 ≤ n) (s : State) (v : Word) :
    s.writeCsr n v = s.writeKey ((n - 2) / 4) ((n - 2) % 4) v := by
  have notCfg : n ≠ 0 := by omega
  have notTimer : n ≠ 1 := by omega
  rw [State.writeCsr, if_neg notCfg, if_neg notTimer]

/-- A word written into a key is read back, and the key's other words stay (10_state R33). -/
theorem keyWord_setKeyWord (k : Key128) {j m : Nat} (hj : j < 4) (hm : m < 4) (v : Word) :
    keyWord (setKeyWord k j v) m = if m = j then v else keyWord k m := by
  have words (a b c d : Word) : keyWord (a ++ b ++ c ++ d) m = [a, b, c, d][m] := by
    interval_cases m
    · exact keyWord_append_zero a b c d
    · exact keyWord_append_one a b c d
    · exact keyWord_append_two a b c d
    · exact keyWord_append_three a b c d
  interval_cases j <;> simp only [setKeyWord, words] <;> interval_cases m <;> rfl

/-- One of the sixteen key words is written, the other fifteen stay. -/
theorem keyWord_keyReg_writeKey (s : State) {i j a b : Nat} (hi : i < 4) (hj : j < 4) (ha : a < 4) (hb : b < 4)
    (v : Word) :
    keyWord ((s.writeKey a b v).keyReg i) j = if i = a ∧ j = b then v else keyWord (s.keyReg i) j := by
  rw [keyReg_writeKey s ha hi, ite_and]
  split
  · exact keyWord_setKeyWord _ hb hj v
  · rfl

/-- Settles O13: past the gates `CSRW` is one register write, and a key register is its four words. -/
theorem csrwWritesOneRegister : Obligations.CsrwWritesOneRegister := by
  intro s n v
  refine ⟨fun reserved => ?_, fun ⟨readOnly, inSpace⟩ => ?_, fun ⟨writable, live⟩ => ?_, fun ⟨zero, idle⟩ => ?_,
    fun ⟨one, idle⟩ => ?_, fun ⟨key, writable, idle⟩ => ?_⟩
  · rw [exec_csrw_of_reserved reserved, raise_illegalCommand_eq_answered]
  · rw [exec_csrw_of_readOnly inSpace readOnly, raise_ignored_eq_answered]
  · rw [exec_csrw_of_not_idle writable live, raise_ignored_eq_answered]
  · rw [exec_csrw_of_idle idle (by omega), zero, writeCsr_cfg]
    rfl
  · rw [exec_csrw_of_idle idle (by omega), one, writeCsr_tReord]
    rfl
  · have register : (n.toNat - 2) / 4 < 4 := by omega
    have word : (n.toNat - 2) % 4 < 4 := by omega
    obtain ⟨k0, k1, k2, k3, frame⟩ : ∃ k0 k1 k2 k3 : Key128,
        s.writeKey ((n.toNat - 2) / 4) ((n.toNat - 2) % 4) v = s.withKeys k0 k1 k2 k3 :=
      ⟨_, _, _, _, writeKey_frame s _ _ v⟩
    refine ⟨k0, k1, k2, k3, ?_, fun i j hi hj => ?_⟩
    · rw [exec_csrw_of_idle idle writable, writeCsr_keyWord key, frame]
      rfl
    · rw [← frame]
      exact keyWord_keyReg_writeKey s hi hj register word v

/-! ### `CSRR` (45_lifecycle R206; 10_state R30, R34) -/

/-- A number outside the CSR space is answered with a data word of 0. -/
theorem exec_csrr_of_reserved {n : BitVec 8} (reserved : 24 ≤ n.toNat) (s : State) :
    exec (.csrr n) s = .next (s.answered .illegalCmd (some 0)) := if_pos reserved

/-- The value is that of the state before `RESULT` is overwritten. -/
theorem exec_csrr_of_lt {n : BitVec 8} (inSpace : n.toNat < 24) (s : State) :
    exec (.csrr n) s = .next (s.answered .ok (some (s.readCsr n.toNat))) := if_neg (Nat.not_le.2 inSpace)

theorem exec_csrr_of_readCsr_eq {n : BitVec 8} {s : State} {r : Nat} {v : Word} (inSpace : r < 24)
    (value : s.readCsr r = v) (hn : n.toNat = r) : exec (.csrr n) s = .next (s.answered .ok (some v)) := by
  rw [exec_csrr_of_lt (hn ▸ inSpace), hn, value]

/-- Key words cannot be read (R30). -/
theorem readCsr_keyWord {n : Nat} (low : 2 ≤ n) (high : n < 18) (s : State) : s.readCsr n = 0 := by
  unfold State.readCsr
  repeat rw [if_neg (by omega)]

/-- The fields of `STATUS` as the digits of a number (R34). -/
theorem statusWord_eq_ofNat (s : State) :
    s.statusWord =
      BitVec.ofNat 32 (s.lc.code.toNat + (if s.timerRunning then 4 else 0) + (if s.cfgWarn then 8 else 0)) := by
  unfold State.statusWord
  cases s.lc <;> cases s.timerRunning <;> cases s.cfgWarn <;> rfl

/-- Settles O14: each number in the CSR space is answered with the value read from its register. -/
theorem csrrReturnsTheRegister : Obligations.CsrrReturnsTheRegister := by
  intro s n
  have result : s.readCsr 23 = BitVec.ofNat 32 s.result.code.toNat := (BitVec.ofNat_toNat 32 s.result.code).symm
  exact ⟨fun reserved => exec_csrr_of_reserved reserved s,
    fun ⟨low, high⟩ => exec_csrr_of_readCsr_eq (Nat.lt_trans high (by decide)) (readCsr_keyWord low high s) rfl,
    exec_csrr_of_readCsr_eq (by decide) rfl, exec_csrr_of_readCsr_eq (by decide) rfl,
    exec_csrr_of_readCsr_eq (by decide) (statusWord_eq_ofNat s), exec_csrr_of_readCsr_eq (by decide) rfl,
    exec_csrr_of_readCsr_eq (by decide) rfl, exec_csrr_of_readCsr_eq (by decide) rfl,
    exec_csrr_of_readCsr_eq (by decide) rfl, exec_csrr_of_readCsr_eq (by decide) result⟩

end Sys2Proof.Machine

namespace Sys2Proof.Machine

/-! ### How a command ends (00_scope R17; 60_exceptions R280, R291) -/

/-- The expiry body ends OK, or faults (41_timer_expiry R141). -/
theorem expiryBody_result_cases (s : State) : s.expiryBody.2 = .ok ∨ s.expiryBody.2 = .internalFault := by
  rcases expiryBody_cases s with ⟨_, e⟩ | ⟨_, _, e⟩ | ⟨_, _, e⟩ <;> rw [e]
  · exact .inl rfl
  · exact .inr rfl
  · exact .inl rfl

theorem startIfNeeded_result_cases (s : State) : s.startIfNeeded.2 = .ok ∨ s.startIfNeeded.2 = .internalFault := by
  rcases startIfNeeded_cases s with ⟨_, e⟩ | ⟨_, e⟩ | ⟨_, _, _, _, e⟩ | ⟨_, _, _, e⟩ <;> rw [e]
  · exact .inl rfl
  · exact expiryBody_result_cases _
  · exact .inl rfl
  · exact .inl rfl

/-- An accepted PDU ends with the code of its timer management (40_reception R118). -/
theorem acceptPdu_result_cases (s : State) (payload : Octets) :
    (s.acceptPdu payload).result = .ok ∨ (s.acceptPdu payload).result = .internalFault :=
  startIfNeeded_result_cases (s.insertPdu payload).drainIfNext.stopIfDue

/-- The code of a command that was carried out, to its end or to an InternalFault. -/
def ResultCode.CarriedOut (r : ResultCode) : Prop := r = .ok ∨ r = .okCfgWarn ∨ r = .internalFault

/-- How an instruction ends, as its result code tells (`ends_of_exec`). -/
inductive Ends (i : Instr) (s t : State) : Prop where
  | carriedOut (code : t.result.CarriedOut)
  /-- Turned away before it touches the entity: IGNORED or ILLEGAL_CMD. -/
  | turnedAway (r : ResultCode) (d : Option Word) (code : r = .ignored ∨ r = .illegalCmd) (ht : t = s.answered r d)
  /-- A PDU that steps 1 to 4 reject, or that finds the buffer full. -/
  | discarded (pdu : Octets) (hp : i.pdu? = some pdu) (e : ErrorClass) (ht : t = (s.raise e).closeStore)

theorem ends_create {s t : State} (h : exec .create s = .next t) : Ends .create s t := by
  by_cases idle : s.lc = .idle
  · obtain rfl := Host.Outcome.next.inj ((exec_create_of_idle idle).symm.trans h)
    refine .carriedOut ?_
    cases s.configMismatch
    · exact .inl rfl
    · exact .inr (.inl rfl)
  · obtain rfl := Host.Outcome.next.inj ((exec_create_of_not_idle idle).symm.trans h)
    exact .turnedAway _ _ (.inl rfl) rfl

theorem ends_csrr {n : BitVec 8} {s t : State} (h : exec (.csrr n) s = .next t) : Ends (.csrr n) s t := by
  by_cases reserved : 24 ≤ n.toNat
  · obtain rfl := Host.Outcome.next.inj ((exec_csrr_of_reserved reserved s).symm.trans h)
    exact .turnedAway _ _ (.inr rfl) rfl
  · obtain rfl := Host.Outcome.next.inj ((exec_csrr_of_lt (Nat.not_le.1 reserved) s).symm.trans h)
    exact .carriedOut (.inl rfl)

theorem ends_of_exec {i : Instr} {s t : State} (h : exec i s = .next t) : Ends i s t := by
  cases runs_of_exec h with
  | refused e he =>
    rcases he with rfl | rfl
    · exact .turnedAway _ _ (.inl rfl) (raise_ignored_eq_answered s)
    · exact .turnedAway _ _ (.inr rfl) (raise_illegalCommand_eq_answered s)
  | read n hi _ _ =>
    subst hi
    exact ends_csrr h
  | written _ _ _ _ => exact .carriedOut (.inl rfl)
  | created hi _ _ =>
    subst hi
    exact ends_create h
  | released _ _ => exact .carriedOut (.inl rfl)
  | expired _ _ x _ => exact .carriedOut ((expiryBody_result_cases x).imp_right .inr)
  | rejected pdu hp _ e k => exact .discarded pdu hp e (raise_withWork_closeStore s k e)
  | accepted _ _ _ k payload =>
    exact .carriedOut ((acceptPdu_result_cases (s.withWork k) payload).imp_right .inr)

/-! ### Malformed PDUs (43_header_codec R181, 60_exceptions R281) -/

theorem discardOrAccept_result_ne_malformed (s : State) (w : SnWidth) (payload : Octets) :
    (s.discardOrAccept w payload).result ≠ .malformed := by
  unfold State.discardOrAccept
  split_ifs
  · simp [ErrorClass.result]
  · simp [ErrorClass.result]
  · simp [ErrorClass.result]
  · rcases acceptPdu_result_cases s payload with e | e <;> simp [e]

/-- Steps 2 to 7 do not ask how the PDU is formed (40_reception R112 to R118). -/
theorem receive_result_ne_malformed_of_parses {c : Crypto} {s : State} {pdu : Octets} {w : SnWidth} {sn : Word}
    (parses : s.Parses pdu w sn) : (s.receive c pdu).result ≠ .malformed := by
  rw [receive_of_parses c parses, verifyAndAccept_withWork]
  split
  · exact discardOrAccept_result_ne_malformed _ w _
  · simp [ErrorClass.result]

theorem malformed_of_receive_result {c : Crypto} {s : State} {pdu : Octets}
    (h : (s.receive c pdu).result = .malformed) :
    pdu.length ≤ s.params.maxPduLen.toNat ∧ s.lc = .active ∧ s.Malformed pdu := by
  by_cases fits : pdu.length ≤ s.params.maxPduLen.toNat
  case neg => simp [receive_of_oversized c (Nat.not_le.1 fits), ErrorClass.result] at h
  by_cases active : s.lc = .active
  case neg => simp [receive_of_not_active c fits active, ErrorClass.result] at h
  cases wellformed : checkWellformed s.cfg pdu.length with
  | none => exact ⟨fits, active, malformed_iff.2 wellformed⟩
  | some w =>
    obtain ⟨sn, number⟩ := exists_number_of_wellformed wellformed
    exact absurd h (receive_result_ne_malformed_of_parses (parses_iff.2 ⟨fits, active, wellformed, number⟩))

/-- Settles O19: step 1 is the only way to MALFORMED, and that class has no side effect. -/
theorem malformedPduIsDropped : Obligations.MalformedPduIsDropped := by
  refine ⟨fun i pdu s hp fits active malformed => ?_, fun i s t h result => ?_⟩
  · rw [exec_of_pdu hp, receive_of_malformed machineCrypto fits active (malformed_iff.1 malformed)]
    exact ⟨_, _, rfl⟩
  · cases ends_of_exec h with
    | carriedOut code => simp [ResultCode.CarriedOut, result] at code
    | turnedAway r d code ht =>
      subst ht
      rcases code with rfl | rfl <;> cases result
    | discarded pdu hp e _ =>
      obtain rfl : s.receive machineCrypto pdu = t := Host.Outcome.next.inj ((exec_of_pdu hp s).symm.trans h)
      exact ⟨pdu, hp, malformed_of_receive_result result⟩

/-! ### Integrity failures (40_reception R114, 60_exceptions R283) -/

/-- What an integrity failure leaves behind: one notification with its trace record, and the store open (R283). -/
theorem raise_integrityFailure_closeStore (s : State) :
    ∃ k n, (s.raise .integrityFailure).closeStore = State.answered .integFail none { s.scratched k n with
      ulCtrl := s.ulCtrl ++ [.integrityFailure]
      trace := s.trace ++ [.ctrl .integrityFailure] } := ⟨_, _, rfl⟩

/-- Settles O20: the verdict comes before the COUNT is compared with anything (R114, R115). -/
theorem integrityFailureIsNotified : Obligations.IntegrityFailureIsNotified := by
  intro i pdu s w sn hp parses forged
  rw [exec_of_pdu hp, receive_of_not_authentic parses forged]
  obtain ⟨k, n, e⟩ := raise_integrityFailure_closeStore s
  exact ⟨k, n, congrArg _ e⟩

/-! ### Rejections are precise (60_exceptions R280, R291) -/

/-- A class without a side effect leaves the store open and changes nothing else (R280). -/
theorem raise_closeStore_of_silent {e : ErrorClass} (notify : e ≠ .integrityFailure) (fault : e ≠ .internalFault)
    (s : State) : ∃ k n, (s.raise e).closeStore = (s.scratched k n).answered e.result none := by
  cases e
  case integrityFailure => exact absurd rfl notify
  case internalFault => exact absurd rfl fault
  all_goals exact ⟨_, _, rfl⟩

theorem ErrorClass.eq_of_result_integFail {e : ErrorClass} (h : e.result = .integFail) : e = .integrityFailure := by
  cases e
  case integrityFailure => rfl
  all_goals cases h

/-- Settles O51: a rejected command was turned away at its gates, or is a PDU discarded for its error class. -/
theorem rejectionsArePrecise : Obligations.RejectionsArePrecise := by
  intro i s t h
  cases ends_of_exec h with
  | carriedOut code => rcases code with e | e | e <;> simp [e]
  | turnedAway r d code ht =>
    subst ht
    refine ⟨fun _ => ⟨s.work, s.staleIndex, d, rfl⟩, fun integ => ?_⟩
    rcases code with rfl | rfl <;> cases integ
  | discarded pdu hp e ht =>
    subst ht
    by_cases notify : e = .integrityFailure
    · subst notify
      exact ⟨by simp [ErrorClass.result], fun _ => raise_integrityFailure_closeStore s⟩
    by_cases fault : e = .internalFault
    · subst fault
      exact ⟨by simp [ErrorClass.result], by simp [ErrorClass.result]⟩
    obtain ⟨k, n, silent⟩ := raise_closeStore_of_silent notify fault s
    exact ⟨fun _ => ⟨k, n, none, silent⟩, fun integ => absurd (ErrorClass.eq_of_result_integFail integ) notify⟩

/-! ### Several entities (60_exceptions R312) -/

/-- A step of entity `k` puts back entity `k` alone. -/
theorem stepEntity_cases {k : Nat} {sys sys' : System} (h : stepEntity k sys = .next sys') :
    sys' = sys ∨ ∃ t, sys' = sys.set k t := by
  unfold stepEntity at h
  split at h
  · exact .inl (Host.Outcome.next.inj h).symm
  · split at h <;> cases h
    exact .inr ⟨_, rfl⟩

/-- Settles O9: a list with its element `k` replaced. -/
theorem entitiesAreIsolated : Obligations.EntitiesAreIsolated := by
  intro k sys sys' h
  rcases stepEntity_cases h with rfl | ⟨t, rfl⟩
  · exact ⟨rfl, fun _ _ => rfl⟩
  · exact ⟨List.length_set, fun _ other => List.getElem?_set_ne other.symm⟩

/-! ### The Timer service is asked consistently (60_exceptions R303 (iv); 10_state R43) -/

/-- The service's timer after one sequence of requests and another. -/
theorem serveTimer_append (running : Bool) (xs ys : List TimerRequest) :
    serveTimer running (xs ++ ys) = (serveTimer running xs).bind (serveTimer · ys) := by
  induction xs generalizing running with
  | nil => rfl
  | cons x xs ih => cases x <;> cases running <;> simp [serveTimer, ih]

/-- Between `s` and `t` the service could serve every request, and its timer is what `TIMER_RUNNING` says. -/
def TimerServed (s t : State) : Prop :=
  ∃ requests, t.timerCmd = s.timerCmd ++ requests ∧ serveTimer s.timerRunning requests = some t.timerRunning

theorem timerServed_of_same {s t : State} (cmd : t.timerCmd = s.timerCmd) (running : t.timerRunning = s.timerRunning) :
    TimerServed s t := ⟨[], by simp [cmd], by rw [running]; rfl⟩

theorem TimerServed.trans {s t u : State} (first : TimerServed s t) (later : TimerServed t u) : TimerServed s u := by
  obtain ⟨xs, cmd, served⟩ := first
  obtain ⟨ys, cmd', served'⟩ := later
  exact ⟨xs ++ ys, by rw [cmd', cmd, List.append_assoc], by rw [serveTimer_append, served]; exact served'⟩

theorem timerServed_startTimer {s : State} (stopped : s.timerRunning = false) : TimerServed s s.startTimer :=
  ⟨[.start s.tReord], rfl, by rw [stopped]; rfl⟩

theorem timerServed_stopTimer {s : State} (running : s.timerRunning = true) : TimerServed s s.stopTimer :=
  ⟨[.stop], rfl, by rw [running]; rfl⟩

/-- The expiry body runs with a stopped timer and at most starts it (41_timer_expiry R141). -/
theorem timerServed_expiryBody {s : State} (stopped : s.timerRunning = false) : TimerServed s s.expiryBody.1 := by
  have drain : TimerServed s s.expiryDrain := timerServed_of_same (by simp) (by simp)
  rcases expiryBody_cases s with ⟨_, e⟩ | ⟨_, _, e⟩ | ⟨_, _, e⟩ <;> rw [e]
  · exact drain
  · exact drain.trans (timerServed_of_same rfl rfl)
  · exact drain.trans (timerServed_startTimer (by simpa using stopped))

theorem timerServed_stopIfDue (s : State) : TimerServed s s.stopIfDue := by
  rcases stopIfDue_cases s with ⟨running, _, e⟩ | ⟨_, e⟩ <;> rw [e]
  · exact timerServed_stopTimer running
  · exact timerServed_of_same rfl rfl

/-- No timer runs with a zero duration (60_exceptions R288), so the expiry body of step 7b finds it stopped. -/
theorem timerServed_startIfNeeded {s : State} (zero : s.tReord = Config.timerZero → s.timerRunning = false) :
    TimerServed s s.startIfNeeded.1 := by
  rcases startIfNeeded_cases s with ⟨_, e⟩ | ⟨hz, e⟩ | ⟨_, _, stopped, _, e⟩ | ⟨_, _, _, e⟩ <;> rw [e]
  · exact timerServed_of_same rfl rfl
  · have moved : TimerServed s { s with rxReord := s.rxNext } := timerServed_of_same rfl rfl
    exact moved.trans (timerServed_expiryBody (zero hz))
  · exact timerServed_startTimer stopped
  · exact timerServed_of_same rfl rfl

theorem timerServed_timerManagement {s : State} (zero : s.tReord = Config.timerZero → s.timerRunning = false) :
    TimerServed s s.timerManagement.1 := by
  refine (timerServed_stopIfDue s).trans (timerServed_startIfNeeded fun hz => ?_)
  have stopped : s.timerRunning = false := zero ((carries_stopIfDue s).tReord.symm.trans hz)
  rw [stopIfDue_of_stopped stopped, stopped]

theorem timerServed_acceptPdu {s : State} (zero : s.tReord = Config.timerZero → s.timerRunning = false)
    (payload : Octets) : TimerServed s (s.acceptPdu payload) := by
  set d := (s.insertPdu payload).drainIfNext with hd
  have drained : TimerServed s d := timerServed_of_same (by simp [hd]) (by simp [hd])
  have duration : d.tReord = s.tReord := (sameConfig_drainIfNext (s.insertPdu payload)).tReord
  have managed : TimerServed d d.timerManagement.1 := timerServed_timerManagement fun hz => by
    simpa [hd] using zero (duration.symm.trans hz)
  exact (drained.trans managed).trans (timerServed_of_same rfl rfl)

theorem timerServed_stopIfRunning (s : State) : TimerServed s s.stopIfRunning := by
  unfold State.stopIfRunning
  split
  · exact timerServed_stopTimer ‹_›
  · exact timerServed_of_same rfl rfl

theorem State.Sound.stopped_of_zero {s : State} (sound : s.Sound) (zero : s.tReord = Config.timerZero) :
    s.timerRunning = false :=
  Bool.eq_false_iff.2 fun running => (sound.timerFinite running).1 zero

theorem State.Sound.stopped_of_idle {s : State} (sound : s.Sound) (idle : s.lc = .idle) : s.timerRunning = false := by
  obtain ⟨_, _, _, _, stopped, _⟩ := sound.idleQuiet idle
  exact stopped

/-- The `T_EXPIRE` of an ACTIVE entity tells that the service's timer has stopped (R303 (iv)). -/
theorem timerServed_of_expiry {s t : State} (active : s.lc = .active) (h : exec .tExpire s = .next t) :
    TimerServed { s with timerRunning := false } t := by
  cases running : s.timerRunning with
  | false =>
    obtain rfl := Host.Outcome.next.inj ((exec_tExpire_of_stopped running).symm.trans h)
    exact timerServed_of_same rfl running
  | true =>
    obtain rfl : s.expire = t := Host.Outcome.next.inj h
    rw [expire_of_running active running]
    exact (timerServed_expiryBody rfl).trans (timerServed_of_same rfl rfl)

/-- Every other instruction. -/
theorem timerServed_of_exec {i : Instr} {s t : State} (sound : s.Sound) (other : ¬ (i = .tExpire ∧ s.lc = .active))
    (h : exec i s = .next t) : TimerServed s t := by
  cases runs_of_exec h with
  | refused e _ => exact timerServed_of_same (by simp) (by simp)
  | read _ _ _ _ => exact timerServed_of_same rfl rfl
  | written n v _ _ => exact timerServed_of_same (by simp) (by simp)
  | created _ idle _ => exact timerServed_of_same rfl (sound.stopped_of_idle idle).symm
  | released _ _ => exact (timerServed_stopIfRunning s).trans (timerServed_of_same rfl rfl)
  | expired hi active _ _ => exact absurd ⟨hi, active⟩ other
  | rejected _ _ _ e k => exact timerServed_of_same (by simp) (by simp)
  | accepted _ _ _ k payload =>
    have accepted : TimerServed (s.withWork k) ((s.withWork k).acceptPdu payload) :=
      timerServed_acceptPdu (s := s.withWork k) sound.stopped_of_zero payload
    exact accepted.trans (timerServed_of_same rfl rfl)

/-- The step accepts an expiry from the port for an ACTIVE entity. -/
def State.AcceptsExpiry (s : State) : Prop := (∃ rest, decode s.port = .command .tExpire rest) ∧ s.lc = .active

theorem timerServed_of_step {s t : State} (sound : s.Sound) (hs : step s = .next t) :
    (s.AcceptsExpiry → TimerServed { s with timerRunning := false } t) ∧ (¬ s.AcceptsExpiry → TimerServed s t) := by
  refine ⟨fun ⟨⟨rest, hd⟩, active⟩ => ?_, fun other => ?_⟩
  · exact timerServed_of_expiry (s := s.accept rest) active ((step_of_command hd).symm.trans hs)
  · rcases step_cases s with ⟨i, rest, hd, e⟩ | ⟨_, rest, _, e⟩ | ⟨_, e⟩
    · have noExpiry : ¬ (i = .tExpire ∧ (s.accept rest).lc = .active) :=
        fun ⟨hi, active⟩ => other ⟨⟨rest, hi ▸ hd⟩, active⟩
      have served : TimerServed (s.accept rest) t :=
        timerServed_of_exec ((sameEntity_accept s rest).sound sound) noExpiry (e.symm.trans hs)
      exact served
    · obtain rfl := Host.Outcome.next.inj (e.symm.trans hs)
      exact timerServed_of_same rfl rfl
    · obtain rfl := Host.Outcome.next.inj (e.symm.trans hs)
      exact timerServed_of_same rfl rfl

/-- Settles O45: a start finds the timer stopped and a stop finds it running, along every way a command runs. -/
theorem timerServiceIsAskedConsistently : Obligations.TimerServiceIsAskedConsistently := by
  intro s t sound hs
  obtain ⟨expiry, other⟩ := timerServed_of_step sound hs
  by_cases h : s.AcceptsExpiry
  · obtain ⟨requests, cmd, served⟩ := expiry h
    exact ⟨requests, cmd, fun _ => served, fun no => absurd h no⟩
  · obtain ⟨requests, cmd, served⟩ := other h
    exact ⟨requests, cmd, fun yes => absurd yes h, fun _ => served⟩

end Sys2Proof.Machine

namespace Sys2Proof.Machine

/-! ### Key registers that are not read (70_reset R323; 93 U12) -/

/-- `f` does the same whatever the key registers hold, and leaves them alone. -/
def KeyBlind (f : State → State) : Prop :=
  ∀ (s : State) (k0 k1 k2 k3 : Key128), f (s.withKeys k0 k1 k2 k3) = (f s).withKeys k0 k1 k2 k3

/-- The same for an operation that also returns a result code, which the keys do not decide either. -/
def KeyBlindAnswer (f : State → State × ResultCode) : Prop :=
  ∀ (s : State) (k0 k1 k2 k3 : Key128), f (s.withKeys k0 k1 k2 k3) = ((f s).1.withKeys k0 k1 k2 k3, (f s).2)

@[simp] theorem State.withKeys_buf (s : State) (k0 k1 k2 k3 : Key128) : (s.withKeys k0 k1 k2 k3).buf = s.buf := rfl

@[simp] theorem State.withKeys_rxDeliv (s : State) (k0 k1 k2 k3 : Key128) :
    (s.withKeys k0 k1 k2 k3).rxDeliv = s.rxDeliv := rfl

theorem keyBlind_of_ite {p : State → Prop} [DecidablePred p] {f g : State → State}
    (condition : ∀ (s : State) (k0 k1 k2 k3 : Key128), p (s.withKeys k0 k1 k2 k3) ↔ p s) (hf : KeyBlind f)
    (hg : KeyBlind g) : KeyBlind fun s => if p s then f s else g s := by
  intro s k0 k1 k2 k3
  by_cases h : p s
  · simp only [condition, h, if_true]
    exact hf s k0 k1 k2 k3
  · simp only [condition, h, if_false]
    exact hg s k0 k1 k2 k3

theorem keyBlind_id : KeyBlind fun s => s := fun _ _ _ _ _ => rfl

theorem keyBlind_raise (e : ErrorClass) : KeyBlind (State.raise e) := by
  intro s k0 k1 k2 k3
  cases e <;> rfl

theorem keyBlind_closeStore : KeyBlind State.closeStore := fun _ _ _ _ _ => rfl

theorem keyBlind_stopTimer : KeyBlind State.stopTimer := fun _ _ _ _ _ => rfl

theorem keyBlind_drainRounds (n : Nat) : KeyBlind (drainRounds n) := by
  intro s k0 k1 k2 k3
  induction n generalizing s with
  | zero => rfl
  | succ n ih =>
    rw [drainRounds, drainRounds, State.withKeys_buf, State.withKeys_rxDeliv]
    cases Buffer.find s.buf s.rxDeliv with
    | none => rfl
    | some p => exact ih (s.deliverNext p)

theorem keyBlind_consecutiveDrain : KeyBlind State.consecutiveDrain :=
  fun s => keyBlind_drainRounds s.buf.length s

theorem keyBlind_expiryDrain : KeyBlind State.expiryDrain :=
  fun s => keyBlind_consecutiveDrain { s.drainBelow s.rxReord with rxDeliv := s.rxReord }

theorem keyBlindAnswer_expiryRestart : KeyBlindAnswer State.expiryRestart := by
  intro s k0 k1 k2 k3
  show (if s.outstanding then if s.tReord = Config.timerZero then _ else _ else _) = _
  unfold State.expiryRestart
  split_ifs <;> rfl

theorem keyBlindAnswer_expiryBody : KeyBlindAnswer State.expiryBody := by
  intro s k0 k1 k2 k3
  rw [State.expiryBody, keyBlind_expiryDrain]
  exact keyBlindAnswer_expiryRestart s.expiryDrain k0 k1 k2 k3

theorem keyBlind_drainIfNext : KeyBlind State.drainIfNext :=
  keyBlind_of_ite (fun _ _ _ _ _ => Iff.rfl) keyBlind_consecutiveDrain keyBlind_id

theorem keyBlind_stopIfDue : KeyBlind State.stopIfDue :=
  keyBlind_of_ite (fun _ _ _ _ _ => Iff.rfl) keyBlind_stopTimer keyBlind_id

theorem keyBlindAnswer_startIfNeeded : KeyBlindAnswer State.startIfNeeded := by
  intro s k0 k1 k2 k3
  show (if s.tReord = Config.timerInfinite then _ else if s.tReord = Config.timerZero then _
    else if (!s.timerRunning && s.outstanding) = true then _ else _) = _
  unfold State.startIfNeeded
  split_ifs
  · rfl
  · exact keyBlindAnswer_expiryBody { s with rxReord := s.rxNext } k0 k1 k2 k3
  · rfl
  · rfl

/-- Steps 5 to 7 and the end of an accepted PDU read no key (40_reception R116 to R118). -/
theorem keyBlind_acceptPdu (payload : Octets) : KeyBlind (State.acceptPdu payload) := by
  intro s k0 k1 k2 k3
  have inserted : (s.withKeys k0 k1 k2 k3).insertPdu payload = (s.insertPdu payload).withKeys k0 k1 k2 k3 := rfl
  rw [State.acceptPdu, inserted, keyBlind_drainIfNext, State.timerManagement, keyBlind_stopIfDue,
    keyBlindAnswer_startIfNeeded]
  rfl

/-- Steps 4 to 7 read no key (40_reception R115 to R118). -/
theorem keyBlind_discardOrAccept (w : SnWidth) (payload : Octets) : KeyBlind (State.discardOrAccept w payload) :=
  keyBlind_of_ite (fun _ _ _ _ _ => Iff.rfl) (keyBlind_raise .stale) <|
    keyBlind_of_ite (fun _ _ _ _ _ => Iff.rfl) (keyBlind_raise .duplicate) <|
      keyBlind_of_ite (fun _ _ _ _ _ => Iff.rfl) (keyBlind_raise .internalFault) (keyBlind_acceptPdu payload)

/-- The given keys agree with those of `s` in each register that its configuration reads (42_security_engine R151,
R154, R157). -/
structure State.AgreesOnReadKeys (s : State) (k0 k1 k2 k3 : Key128) : Prop where
  cipher : cfgCiphEn s.cfg = 1#1 → cfgCiphAlg s.cfg ≠ 0#2 → (s.withKeys k0 k1 k2 k3).cipherKey = s.cipherKey
  integrity : cfgBearerType s.cfg = 0#1 ∨ cfgIntEn s.cfg = 1#1 → cfgIntAlg s.cfg ≠ 0#2 →
    (s.withKeys k0 k1 k2 k3).integrityKey = s.integrityKey

section
variable {s : State} {k0 k1 k2 k3 : Key128}

theorem decipher_withKeys (c : Crypto)
    (agree : cfgCiphAlg s.cfg ≠ 0#2 → (s.withKeys k0 k1 k2 k3).cipherKey = s.cipherKey) (region : Octets)
    (count : Word) : decipher c (s.withKeys k0 k1 k2 k3) region count = decipher c s region count := by
  cases alg : algOf (cfgCiphAlg s.cfg) with
  | none => rw [decipher_of_null c alg, decipher_of_null c (s := s.withKeys k0 k1 k2 k3) alg]
  | some a =>
    have named : cfgCiphAlg s.cfg ≠ 0#2 := fun null => by simp [algOf_eq_none_iff.2 null] at alg
    rw [decipher_of_alg c alg, decipher_of_alg c (s := s.withKeys k0 k1 k2 k3) alg, State.keystream, agree named]
    rfl

theorem verifyIntegrity_withKeys (c : Crypto)
    (agree : cfgIntAlg s.cfg ≠ 0#2 → (s.withKeys k0 k1 k2 k3).integrityKey = s.integrityKey) (message : Octets)
    (count : Word) (tag : Tag) :
    verifyIntegrity c (s.withKeys k0 k1 k2 k3) message count tag = verifyIntegrity c s message count tag := by
  cases alg : algOf (cfgIntAlg s.cfg) with
  | none => rw [verifyIntegrity_of_null c alg, verifyIntegrity_of_null c (s := s.withKeys k0 k1 k2 k3) alg]
  | some a =>
    have named : cfgIntAlg s.cfg ≠ 0#2 := fun null => by simp [algOf_eq_none_iff.2 null] at alg
    rw [Bool.eq_iff_iff, verifyIntegrity_of_alg c alg, verifyIntegrity_of_alg c (s := s.withKeys k0 k1 k2 k3) alg,
      agree named]
    rfl

theorem State.AgreesOnReadKeys.plainBody_eq (agree : s.AgreesOnReadKeys k0 k1 k2 k3) (c : Crypto) (w : SnWidth)
    (pdu : Octets) (count : Word) :
    plainBody c w (s.withKeys k0 k1 k2 k3) pdu count = plainBody c w s pdu count := by
  show (if cfgCiphEn s.cfg = 1#1 then _ else _) = _
  unfold plainBody
  split_ifs with enabled
  · exact decipher_withKeys c (agree.cipher enabled) _ _
  · rfl

theorem State.AgreesOnReadKeys.rxPayload_eq (agree : s.AgreesOnReadKeys k0 k1 k2 k3) (c : Crypto) (w : SnWidth)
    (pdu : Octets) (count : Word) :
    rxPayload c w (s.withKeys k0 k1 k2 k3) pdu count = rxPayload c w s pdu count := by
  rw [rxPayload, agree.plainBody_eq]
  rfl

theorem State.AgreesOnReadKeys.rxAuthentic_eq (agree : s.AgreesOnReadKeys k0 k1 k2 k3) (c : Crypto) (w : SnWidth)
    (pdu : Octets) (count : Word) :
    rxAuthentic c w (s.withKeys k0 k1 k2 k3) pdu count = rxAuthentic c w s pdu count := by
  rw [rxAuthentic, agree.rxPayload_eq, agree.plainBody_eq]
  show (if tagPresent s.cfg then _ else _) = _
  unfold rxAuthentic
  split_ifs with tagged
  · have checked : cfgBearerType s.cfg = 0#1 ∨ cfgIntEn s.cfg = 1#1 := by simpa [tagPresent] using tagged
    exact verifyIntegrity_withKeys c (agree.integrity checked) _ _ _
  · rfl

/-- The Security Engine reads the selected keys alone (42_security_engine R150). -/
theorem State.AgreesOnReadKeys.securityRx_eq (agree : s.AgreesOnReadKeys k0 k1 k2 k3) (c : Crypto) (w : SnWidth)
    (pdu : Octets) (count : Word) :
    securityRx c w (s.withKeys k0 k1 k2 k3) pdu count = securityRx c w s pdu count := by
  rw [securityRx, agree.rxAuthentic_eq, agree.rxPayload_eq, securityRx]

/-- Steps 3 to 7 read the selected keys alone (40_reception R114 to R118). -/
theorem State.AgreesOnReadKeys.verifyAndAccept_eq (agree : s.AgreesOnReadKeys k0 k1 k2 k3) (c : Crypto)
    (w : SnWidth) (k : Work) :
    ((s.withKeys k0 k1 k2 k3).withWork k).verifyAndAccept c w =
      ((s.withWork k).verifyAndAccept c w).withKeys k0 k1 k2 k3 := by
  rw [verifyAndAccept_withWork, verifyAndAccept_withWork, agree.securityRx_eq]
  split
  · exact keyBlind_discardOrAccept w _ (s.withWork k) k0 k1 k2 k3
  · exact keyBlind_raise .integrityFailure (s.withWork k) k0 k1 k2 k3

theorem State.Parses.withKeys {pdu : Octets} {w : SnWidth} {sn : Word} (h : s.Parses pdu w sn) :
    (s.withKeys k0 k1 k2 k3).Parses pdu w sn :=
  ⟨h.fits, h.active, h.width, h.wellformed, h.number⟩

/-- `RX_PDU` reads the selected keys alone, on each of its ways (40_reception R110). -/
theorem State.AgreesOnReadKeys.receive_eq (agree : s.AgreesOnReadKeys k0 k1 k2 k3) (c : Crypto) (pdu : Octets) :
    (s.withKeys k0 k1 k2 k3).receive c pdu = (s.receive c pdu).withKeys k0 k1 k2 k3 := by
  by_cases long : s.params.maxPduLen.toNat < pdu.length
  · rw [receive_of_oversized c long, receive_of_oversized (s := s.withKeys k0 k1 k2 k3) c long, keyBlind_raise]
  have fits : pdu.length ≤ s.params.maxPduLen.toNat := Nat.not_lt.1 long
  by_cases inactive : s.lc ≠ .active
  · rw [receive_of_not_active c fits inactive, receive_of_not_active (s := s.withKeys k0 k1 k2 k3) c fits inactive,
      keyBlind_raise]
  have active : s.lc = .active := not_not.1 inactive
  cases wellformed : checkWellformed s.cfg pdu.length with
  | none =>
    rw [receive_of_malformed c fits active wellformed,
      receive_of_malformed (s := s.withKeys k0 k1 k2 k3) c fits active wellformed, keyBlind_raise, keyBlind_closeStore]
  | some w =>
    obtain ⟨sn, number⟩ := exists_number_of_wellformed wellformed
    have parses : s.Parses pdu w sn := parses_iff.2 ⟨fits, active, wellformed, number⟩
    rw [receive_of_parses c parses, receive_of_parses c parses.withKeys, agree.verifyAndAccept_eq, keyBlind_closeStore]
    rfl

end

/-- Settles O32: the Security Engine reads the selected keys alone, and no other step of `RX_PDU` reads a key. -/
theorem unreadKeysDoNotMatter : Obligations.UnreadKeysDoNotMatter :=
  fun c _ pdu _ _ _ _ cipher integrity => State.AgreesOnReadKeys.receive_eq ⟨cipher, integrity⟩ c pdu

/-! ### The end of a complete trace (70_reset R336) -/

/-- Settles O58: the step keeps `Ordered`, by which an ACTIVE entity without a timer has nothing outstanding, so that
nothing fits in the buffer between `RX_DELIV` and `RX_NEXT`. -/
theorem completeTraceHasDeliveredAll : Obligations.CompleteTraceHasDeliveredAll := by
  intro s t sound ordered fits hs active finite complete
  have sound' : t.Sound := everyStepKeepsSound s t sound hs
  have ordered' : t.Ordered := everyStepKeepsOrdered s t sound ordered fits hs
  have stopped : t.timerRunning = false := complete.resolve_right (not_not.2 active)
  have settled : t.rxDeliv = t.rxNext := ordered'.settled active finite stopped
  exact ⟨settled, (inOrder_of_invariants sound' ordered').buf_eq_nil settled⟩

/-! ### The moves of the environment (70_reset R320, R337) -/

/-- The consumers take from the front of the queues and the issuers use the port: neither invariant is lost. -/
theorem invariants_of_consumed {s : State} (sound : s.Sound) (ordered : s.Ordered) {data : List Octets}
    {ctrl : List Notification} {timer : List TimerRequest} (completions : List Completion) (port : Octets)
    (hdata : data <:+ s.ulData) (hctrl : ctrl <:+ s.ulCtrl) (htimer : timer <:+ s.timerCmd) :
    let t : State := { s with
      ulData := data, ulCtrl := ctrl, timerCmd := timer, completions := completions, port := port }
    t.Sound ∧ t.Ordered := by
  have traced := sound.traced
  exact ⟨⟨sound.canonical, sound.cfgReserved, sound.capacity, sound.idleQuiet, sound.timerFinite,
      ⟨hdata.trans traced.data, hctrl.trans traced.ctrl, htimer.trans traced.timer⟩⟩,
    ⟨ordered.delivNext, ordered.keys, ordered.timer, ordered.near, ordered.settled⟩⟩

/-- Hardware reset empties the queues; the global trace goes on (log 25). -/
theorem hardwareReset_sound (s : State) : s.hardwareReset.Sound := by
  obtain ⟨canonical, cfgReserved, capacity, idleQuiet, timerFinite, _⟩ := invariantsHoldAtReset.left
  exact ⟨canonical, cfgReserved, capacity, idleQuiet, timerFinite,
    ⟨List.nil_suffix, List.nil_suffix, List.nil_suffix⟩⟩

theorem hardwareReset_ordered (s : State) : s.hardwareReset.Ordered := ordered_of_nothing_outstanding rfl rfl rfl

/-- Settles O56, by the moves: an arrival and a pop take nothing of the entity, and a reset leaves none. -/
theorem environmentKeepsInvariants : Obligations.EnvironmentKeepsInvariants := by
  intro e s sound ordered
  have all {α : Type} (q : List α) : q <:+ q := List.suffix_refl q
  cases e with
  | arrive octets =>
    exact invariants_of_consumed sound ordered s.completions (s.port ++ octets) (all _) (all _) (all _)
  | popData =>
    exact invariants_of_consumed sound ordered s.completions s.port (List.tail_suffix _) (all _) (all _)
  | popCtrl =>
    exact invariants_of_consumed sound ordered s.completions s.port (all _) (List.tail_suffix _) (all _)
  | popTimer =>
    exact invariants_of_consumed sound ordered s.completions s.port (all _) (all _) (List.tail_suffix _)
  | popCompletion =>
    exact invariants_of_consumed sound ordered s.completions.tail s.port (all _) (all _) (all _)
  | hardwareReset => exact ⟨hardwareReset_sound s, hardwareReset_ordered s⟩

end Sys2Proof.Machine
